-- ==== Sys2Proof/Word.lean ====
section
/-! DEFINITION. The word types of the block (00_scope.md R10: every value is unsigned). -/

namespace Sys2Proof

/-- A byte (R10: `0..255`). -/
abbrev Byte := BitVec 8

/-- A 32-bit host bus word: one register or the command word (R23, R70). -/
abbrev Word := BitVec 32

/-- A 16-bit checksum value (R8). -/
abbrev Crc := BitVec 16

end Sys2Proof
end

