-- ==== Sys2Proof/Config.lean ====
section
/-! DEFINITION. What an implementation fixes (the two budgets and the base address) and the free values: what the channel
answers where no answer is scripted, what the host reads while busy, and a size that no rule states. A free value is a
constant with no body: no proof can know it. -/

namespace Sys2Proof

/-- The result of one `ChanRead` (R14): `Ok(t)` with `t` a byte sequence, or `Err`. `ok []` is "no data yet". -/
inductive ReadAnswer where
  | ok (bytes : List Byte)
  | err
deriving DecidableEq, Repr, Inhabited

/-- The result of one `ChanWrite` (R14): `Ok(k)` with `0 <= k`, or `Err`. -/
inductive WriteAnswer where
  | ok (count : Nat)
  | err
deriving DecidableEq, Repr, Inhabited

/-- The parameters of the block (R6, R7, R53). The platform fixes them before reset is released (R145) and no step changes
them (log 4). -/
structure Config where
  /-- POLL_BUDGET (R6): read attempts for the length byte before `Timeout`. -/
  pollBudget : Nat
  /-- BODY_POLL_BUDGET (R7): empty read attempts tolerated while the body is collected. -/
  bodyPollBudget : Nat
  /-- BLOCK_BASE (R53): the platform address of window offset 0. No rule depends on it (log 4). -/
  blockBase : Nat
deriving DecidableEq, Repr, Inhabited

/-- The reference values: 1,000,000 (R6), and BODY_POLL_BUDGET equal to it (R7). The spec gives BLOCK_BASE no
reference value; 0 is log 4's. -/
def Config.reference : Config := { pollBudget := 1000000, bodyPollBudget := 1000000, blockBase := 0 }

/-- FREE VALUE: what a host read returns while the running operation writes what is read (R48), for each draw. -/
opaque Config.freeWord : Nat → Word

/-- FREE VALUE: the channel's answer to a `ChanRead` that no script answers (R14, R49), for each draw. -/
opaque Config.freeRead : Nat → ReadAnswer

/-- FREE VALUE: the channel's answer to a `ChanWrite` that no script answers (R14, R49), for each draw. -/
opaque Config.freeWrite : Nat → WriteAnswer

/-- FREE VALUE: the `size` that `decode_buf` gives a buffer of `n` bytes where `n - 6` is no byte value (log 16). -/
opaque Config.freeSize : Nat → Byte

end Sys2Proof
end

