-- ==== Sys2Proof/Syntax.lean ====
section
/-! DEFINITION. The block's operations and the rows of spec/opcode_table.json (30_encoding.md). -/

namespace Sys2Proof

/-- The operations of R71, and INVALID (R73): what `fsm.op` holds (R45). -/
inductive Op where
  | crcInit | crcByte | crcSpan | encode | transmit | receive | decode | run | invalid
deriving DecidableEq, Repr, Inhabited

/-- One constructor per row of the opcode table. A command word carries its BYTE field (R70, R72: every operation
admits any BYTE, and R24 latches it), INVALID carries its whole word (R73), a wire opcode carries nothing (R82). -/
inductive Instr where
  | crcInit (byte : Byte)
  | crcByte (byte : Byte)
  | crcSpan (byte : Byte)
  | encode (byte : Byte)
  | transmit (byte : Byte)
  | receive (byte : Byte)
  | decode (byte : Byte)
  | run (byte : Byte)
  | invalid (word : Word)
  | wireTagInventory
  | wireSetRfPower
  | wireSetInventoryTime
  | wireSetBuzzerEnabled
deriving DecidableEq, Repr, Inhabited

end Sys2Proof
end

