-- ==== Sys2Proof/Machine/State.lean ====
section
/-! DEFINITION. Everything the spec gives the machine (10_state.md), as plain data, and beside it the other agents' data:
the agenda of the host and the platform, the channel's scripted answers, the two budgets. -/

namespace Sys2Proof.Machine

/-- The outcome codes of STATUS.ERR (R123). The reserved codes 7–15 are never produced, so they have no constructor. -/
inductive ErrKind where
  | none | ioError | timeout | malformed | checksumMismatch | invalidParameter | invalidOperation
deriving DecidableEq, Repr, Inhabited

/-- STATUS (R25). Its reserved bits 31:8 read 0 (`statusWord`, Flags.lean). -/
structure Status where
  /-- 1 while an operation is in progress (R26) -/
  busy : Bool
  /-- 1 once the last accepted operation has completed (R27) -/
  done : Bool
  /-- 1 if a host write was rejected since the last accepted CMD write (R28) -/
  rej : Bool
  /-- 1 while RESP_* and RXBUF hold a validated response (R29) -/
  respValid : Bool
  /-- outcome of the last completed operation (R30) -/
  err : ErrKind
deriving DecidableEq, Repr, Inhabited

/-- The host-visible registers with storage (R23); CMD has none: it reads 0 and its fields are latched in `Fsm`. -/
structure Regs where
  status : Status
  /-- the one CRC accumulator (R31) -/
  crc : Crc
  cmdAddr : Byte
  cmdOpcode : Byte
  cmdSize : Byte
  /-- valid bytes in TXBUF: 0 or 5..256 (R35) -/
  txLen : BitVec 9
  /-- length of the receive buffer as delivered to the decoder (R36) -/
  rxLen : BitVec 9
  respSize : Byte
  respAddr : Byte
  respCode : Byte
  respStatus : Byte
  /-- poll attempts of the last RECEIVE or RUN (R41) -/
  pollAttempts : BitVec 32
deriving DecidableEq, Repr, Inhabited

/-- Where the current operation stands (R45, R46). -/
inductive FsmState where
  | idle | exec | tx | poll | body | dec
deriving DecidableEq, Repr, Inhabited

/-- The hidden state (R45). Its counts are natural numbers, kept in R45's ranges by the invariant `Inv` (log 13). -/
structure Fsm where
  state : FsmState
  op : Op
  byte : Byte
  /-- the length byte the poll received -/
  declLen : Byte
  /-- bytes received after the length byte -/
  got : Nat
  /-- poll attempts made -/
  pollCnt : Nat
  /-- empty attempts made in BODY -/
  bodyCnt : Nat
deriving DecidableEq, Repr, Inhabited

/-- The buffers, keyed by window offset (R53). An offset that is not listed is a byte that is unwritten (R50). -/
abbrev Memory := List Host.Cell

/-- The canonical form: offsets strictly rising. (An unlisted byte reads as no value, so no entry equals it.) -/
abbrev Memory.wf (m : Memory) : Prop := m.Pairwise (fun c d => c.1 < d.1)

/-- One call the block made on the channel, with the channel's answer (R14). -/
inductive ChanCall where
  | write (bytes : List Byte) (answer : WriteAnswer)
  | read (maxLen : Nat) (answer : ReadAnswer)
deriving DecidableEq, Repr, Inhabited

/-- The channel agent: the answers it will give next, and the calls made on it, newest first (logs 2, 3). Once its
script of answers is used up it answers with free values. -/
structure Channel where
  writeAns : List WriteAnswer
  readAns : List ReadAnswer
  calls : List ChanCall
deriving DecidableEq, Repr, Inhabited

/-- One turn of the interleaving (R47, R64): a host access (R13), a reset (R141), or one block step. -/
inductive Event where
  /-- `MemRead(off, n)` -/
  | read (off n : Nat)
  /-- `MemWrite(off, n, v)` -/
  | write (off n : Nat) (v : Word)
  | reset
  | block
deriving DecidableEq, Repr, Inhabited

structure State where
  regs : Regs
  fsm : Fsm
  /-- PBUF, TXBUF and RXBUF (R42–R44) with their written marks (R50) -/
  mem : Memory
  /-- POLL_BUDGET, BODY_POLL_BUDGET and BLOCK_BASE: configuration, not block state (R20; log 4) -/
  cfg : Config
  chan : Channel
  /-- the turns still to come, the next first (log 1) -/
  todo : List Event
  /-- what the host's reads returned, newest first (log 11) -/
  seen : List Word
  /-- how many free values have been drawn (log 11) -/
  draws : Nat
deriving DecidableEq, Repr, Inhabited

/-- The model faults (R16, R132). None is an error code of the block. All are safe: the model stops where the spec says a
model must stop. -/
inductive Fault where
  /-- UNINIT_READ (R51): a host read, CRC_SPAN, ENCODE, TRANSMIT, DECODE or RUN consumes the unwritten byte at window
  offset `off`. Safe: the hardware returns some byte. -/
  | uninitRead (off : Nat)
  /-- BUS_ERROR (R57): a host access of `n` bytes at `off` that the block does not define. Safe. -/
  | busError (off n : Nat)
  /-- BAD_PARAMETER_CONFIG (R17): raised before any step of a machine whose budgets are out of range. Safe. -/
  | badParameterConfig
deriving DecidableEq, Repr, Inhabited

/-- Why a step has no meaning. -/
inductive Refusal where
  /-- an opcode-table row that the model gives no meaning: no arm of `exec` answers this. Safe. -/
  | notModelled (mnemonic : String)
deriving DecidableEq, Repr, Inhabited

/-- What a transition of the machine answers. -/
abbrev Result := Host.Outcome State Fault Refusal

/-- How a stage of an operation ends (R15): it goes on to the next stage, it has raised an error and completed, or a model
fault stops the machine. -/
inductive Stage where
  | goOn (s : State)
  | raised (s : State)
  | stop (f : Fault)
deriving DecidableEq, Repr, Inhabited

/-- The machine right after reset (R52): registers 0 but for CRC = 0xFFFF, IDLE, every written mark cleared. The hidden
fields other than `fsm.state` are unspecified there: the values here are log 5's. The budgets are the reference values
(R6, R7; log 4), BLOCK_BASE is log 4's; nothing is on the agenda, in the channel's script or in its history (logs 1–3, 11). -/
def State.reset : State where
  regs :=
    { status := { busy := false, done := false, rej := false, respValid := false, err := .none }
      crc := 0xFFFF#16, cmdAddr := 0#8, cmdOpcode := 0#8, cmdSize := 0#8, txLen := 0#9, rxLen := 0#9
      respSize := 0#8, respAddr := 0#8, respCode := 0#8, respStatus := 0#8, pollAttempts := 0#32 }
  fsm := { state := .idle, op := .invalid, byte := 0#8, declLen := 0#8, got := 0, pollCnt := 0, bodyCnt := 0 }
  mem := []
  cfg := Config.reference
  chan := { writeAns := [], readAns := [], calls := [] }
  todo := []
  seen := []
  draws := 0

end Sys2Proof.Machine
end

