-- ==== Sys2Proof/Machine/Flags.lean ====
section
/-! DEFINITION. STATUS as the host reads it, and the codes of its ERR field (10_state.md R25, 60_exceptions.md R123). -/

namespace Sys2Proof.Machine

/-- `code(E)` (R15, R123). -/
def errCode : ErrKind → BitVec 4
  | .none => 0
  | .ioError => 1
  | .timeout => 2
  | .malformed => 3
  | .checksumMismatch => 4
  | .invalidParameter => 5
  | .invalidOperation => 6

/-- STATUS as a register word (R25): BUSY bit 0, DONE bit 1, REJ bit 2, RESP_VALID bit 3, ERR bits 7:4, the rest 0. -/
def statusWord (t : Status) : Word :=
  0#24 ++ errCode t.err ++ BitVec.ofBool t.respValid ++ BitVec.ofBool t.rej ++ BitVec.ofBool t.done ++ BitVec.ofBool t.busy

/-- STATUS after an accepted CMD write (R24): RESP_VALID is kept. -/
def statusAccepted (t : Status) : Status := { t with done := false, err := .none, rej := false, busy := true }

/-- STATUS after a completion with outcome `e` (R127). -/
def statusCompleted (e : ErrKind) (t : Status) : Status := { t with err := e, busy := false, done := true }

/-- STATUS after a rejected host write (R28, R61). -/
def statusRejected (t : Status) : Status := { t with rej := true }

end Sys2Proof.Machine
end

