-- ==== Sys2Proof/WellFormed.lean ====
section
/-! DEFINITION. Which terms of Instr stand for something the host can write: the one check is that INVALID holds an
illegal word (R73). Every other field admits every value of its type (R72). -/

namespace Sys2Proof

/-- R73: a CMD word is illegal when its OP is reserved (0x0, 0x9–0xF) or a reserved bit (7:4, 31:16) is set. -/
def illegalWord (w : Word) : Bool :=
  w.extractLsb' 0 4 == 0 || w.extractLsb' 0 4 ≥ 9 || w.extractLsb' 4 4 != 0 || w.extractLsb' 16 16 != 0

/-- A well-formed instruction. -/
def Instr.wellFormed : Instr → Bool
  | .crcInit _ | .crcByte _ | .crcSpan _ | .encode _ | .transmit _ | .receive _ | .decode _ | .run _ => true
  | .invalid w => illegalWord w
  | .wireTagInventory | .wireSetRfPower | .wireSetInventoryTime | .wireSetBuzzerEnabled => true

end Sys2Proof
end

