-- ==== Sys2Proof/Decode.lean ====
section
/-! DEFINITION. The decoder and the encoder of the two opcode spaces (30_encoding.md R70–R73, R82, R88). A command word
is the 32-bit word written to CMD, four bytes in bus order (R58: low byte first); a wire opcode is the one byte written to
CMD_OPCODE (R33, R82). -/

namespace Sys2Proof

/-! ### Bit-field and byte-order helpers -/

/-- The OP field of a CMD word, bits 3:0 (R70). -/
def opField (w : Word) : BitVec 4 := w.extractLsb' 0 4

/-- The BYTE field of a CMD word, bits 15:8 (R70, R72). -/
def byteField (w : Word) : Byte := w.extractLsb' 8 8

/-- The reserved bits 7:4 and 31:16 of a CMD word are all 0 (R70, R73). -/
def reservedClear (w : Word) : Bool := w.extractLsb' 4 4 == 0 && w.extractLsb' 16 16 == 0

/-- A bus word as its four bytes, the least significant at the lowest offset (R58; log 14). -/
def wordBytes (w : Word) : List Byte :=
  [w.extractLsb' 0 8, w.extractLsb' 8 8, w.extractLsb' 16 8, w.extractLsb' 24 8]

/-- The bus word of four bytes, the first the least significant (R58). -/
def bytesWord (b0 b1 b2 b3 : Byte) : Word := b3 ++ b2 ++ b1 ++ b0

/-! ### Decoding -/

/-- `decode_op` with its operand (R71–R73): total, an illegal word is INVALID. -/
def decodeCmd (w : Word) : Instr :=
  if reservedClear w then
    match (opField w).toNat with
    | 1 => .crcInit (byteField w)
    | 2 => .crcByte (byteField w)
    | 3 => .crcSpan (byteField w)
    | 4 => .encode (byteField w)
    | 5 => .transmit (byteField w)
    | 6 => .receive (byteField w)
    | 7 => .decode (byteField w)
    | 8 => .run (byteField w)
    | _ => .invalid w
  else .invalid w

/-- The wire opcode table (R82). Any other byte is no row of it (R83: the block passes it all the same). -/
def decodeWire (b : Byte) : Option Instr :=
  match b.toNat with
  | 0x01 => some .wireTagInventory
  | 0x2F => some .wireSetRfPower
  | 0x25 => some .wireSetInventoryTime
  | 0x40 => some .wireSetBuzzerEnabled
  | _ => none

/-- Why a byte sequence is no row of the opcode table. -/
inductive DecodeError where
  /-- one byte that R82's table does not list -/
  | noWireOpcode (b : Byte)
  /-- neither a command word (four bytes) nor a wire opcode (one byte) -/
  | noSuchLength (n : Nat)
deriving DecidableEq, Repr

/-- The decoder on bytes: four bytes are a command word, one byte is a wire opcode. -/
def decode (bs : List Byte) : Except DecodeError Instr :=
  match bs with
  | [b] =>
    match decodeWire b with
    | some i => .ok i
    | none => .error (.noWireOpcode b)
  | [b0, b1, b2, b3] => .ok (decodeCmd (bytesWord b0 b1 b2 b3))
  | _ => .error (.noSuchLength bs.length)

/-! ### Encoding -/

/-- The command word of operation code `code` with BYTE `b` (R70, R88). -/
def cmdWord (code : Nat) (b : Byte) : Word := (b.setWidth 32 <<< 8) ||| BitVec.ofNat 32 code

/-- The bytes of an instruction: the command word's four bytes (R88), or the wire opcode byte (R82). -/
def encode : Instr → List Byte
  | .crcInit b => wordBytes (cmdWord 1 b)
  | .crcByte b => wordBytes (cmdWord 2 b)
  | .crcSpan b => wordBytes (cmdWord 3 b)
  | .encode b => wordBytes (cmdWord 4 b)
  | .transmit b => wordBytes (cmdWord 5 b)
  | .receive b => wordBytes (cmdWord 6 b)
  | .decode b => wordBytes (cmdWord 7 b)
  | .run b => wordBytes (cmdWord 8 b)
  | .invalid w => wordBytes w
  | .wireTagInventory => [0x01#8]
  | .wireSetRfPower => [0x2F#8]
  | .wireSetInventoryTime => [0x25#8]
  | .wireSetBuzzerEnabled => [0x40#8]

/-! ### What the decoder reads from an opcode-table word -/

/-- The bytes of a table word of `nbits` bits: one byte for a wire opcode row, a bus word in bus order for a command
word row (its bits above `nbits` are 0). -/
def tableBytes (nbits w : Nat) : List Byte :=
  if nbits = 8 then [BitVec.ofNat 8 w] else wordBytes (BitVec.ofNat 32 w)

/-- The instruction the decoder reads from a table word, numbered as spec/opcode_table.json numbers its bits. -/
def decodeTableWord (nbits w : Nat) : Option Instr :=
  match decode (tableBytes nbits w) with
  | .ok i => some i
  | .error _ => none

end Sys2Proof
end

