-- ==== Sys2Proof/Machine/Operands.lean ====
section
/-! DEFINITION. Where operands come from and go to: the byte order of the checksum field, the buffers in the window, and
the registers and buffers a host access can name (20_memory.md). -/

namespace Sys2Proof.Machine

/-! ### The 16-bit checksum as two bytes (R80) -/

/-- `c[7:0]`, the crc_lsb byte. -/
def crcLsb (c : Crc) : Byte := c.extractLsb' 0 8

/-- `c[15:8]`, the crc_msb byte. -/
def crcMsb (c : Crc) : Byte := c.extractLsb' 8 8

/-- A received pair `(lo, hi)`: `zext_16(lo) | (zext_16(hi) << 8)`. -/
def crcOfBytes (lo hi : Byte) : Crc := lo.setWidth 16 ||| (hi.setWidth 16 <<< 8)

/-! ### Buffers (R42–R44, R53, R59) -/

/-- The three buffers. -/
inductive Buf where
  | pbuf | txbuf | rxbuf
deriving DecidableEq, Repr, Inhabited

/-- The window offset of a buffer's byte 0 (R53, R86). -/
def bufBase : Buf → Nat
  | .pbuf => 0x100
  | .txbuf => 0x200
  | .rxbuf => 0x300

/-- The number of bytes of a buffer (R8, R42–R44). -/
def bufSize : Buf → Nat
  | .pbuf => 255
  | .txbuf => 256
  | .rxbuf => 256

/-- The buffer byte at a window offset: the buffer and the index (R53, R56). -/
def bufAt (off : Nat) : Option (Buf × Nat) :=
  if 0x100 ≤ off ∧ off < 0x1FF then some (.pbuf, off - 0x100)
  else if 0x200 ≤ off ∧ off < 0x300 then some (.txbuf, off - 0x200)
  else if 0x300 ≤ off ∧ off < 0x400 then some (.rxbuf, off - 0x300)
  else none

/-! ### Registers (R23) -/

/-- The thirteen registers of R23. -/
inductive Reg where
  | cmd | status | crc | cmdAddr | cmdOpcode | cmdSize | txLen | rxLen
  | respSize | respAddr | respCode | respStatus | pollAttempts
deriving DecidableEq, Repr, Inhabited

/-- The register at a window offset (R23). -/
def regAt (off : Nat) : Option Reg :=
  match off with
  | 0x000 => some .cmd
  | 0x004 => some .status
  | 0x008 => some .crc
  | 0x00C => some .cmdAddr
  | 0x010 => some .cmdOpcode
  | 0x014 => some .cmdSize
  | 0x018 => some .txLen
  | 0x01C => some .rxLen
  | 0x020 => some .respSize
  | 0x024 => some .respAddr
  | 0x028 => some .respCode
  | 0x02C => some .respStatus
  | 0x030 => some .pollAttempts
  | _ => none

/-- The used bits of a register as a mask: the other bits read 0 (R23). -/
def usedMask : Reg → Word
  | .cmd => 0x00000000#32
  | .status => 0x000000FF#32
  | .crc => 0x0000FFFF#32
  | .cmdAddr | .cmdOpcode | .cmdSize => 0x000000FF#32
  | .txLen | .rxLen => 0x000001FF#32
  | .respSize | .respAddr | .respCode | .respStatus => 0x000000FF#32
  | .pollAttempts => 0xFFFFFFFF#32

/-! ### The window in the platform's address space (R53) -/

/-- The number of bytes of the window (R53). -/
def windowSize : Nat := 0x400

/-- The window offset of a platform address: the window starts at BLOCK_BASE (R53). Host accesses name offsets (R13), so no
step asks for it. -/
def windowOffset (c : Config) (addr : Nat) : Option Nat :=
  if c.blockBase ≤ addr ∧ addr < c.blockBase + windowSize then some (addr - c.blockBase) else none

/-! ### What a host access names (R55–R57) -/

/-- A legal host access names a register or a buffer byte. -/
inductive Target where
  | reg (r : Reg)
  | byte (b : Buf) (i : Nat)
deriving DecidableEq, Repr, Inhabited

/-- R55: a register takes a 4-byte access at its own offset. R56: a buffer byte takes a 1-byte access. R57: any other access
is a bus error (`none`). -/
def target (off n : Nat) : Option Target :=
  if n = 4 then (regAt off).map .reg
  else if n = 1 then (bufAt off).map fun p => .byte p.1 p.2
  else none

end Sys2Proof.Machine
end

