-- ==== Sys2Proof/Machine/Ops.lean ====
section
/-! DEFINITION. The shared operations: buffer bytes, register updates, starting an operation (R24), completing it (R127),
and the channel (R14). The block has no trap: an error ends the operation and is reported in STATUS.ERR, which is
`raise` here; there is no return from an error (R129), the next accepted CMD write clears it (`accept`). -/

namespace Sys2Proof.Machine

/-- R17: the budgets of a configuration of this block. -/
def configOk (c : Config) : Bool :=
  1 ≤ c.pollBudget && c.pollBudget ≤ 2 ^ 32 - 1 && 1 ≤ c.bodyPollBudget && c.bodyPollBudget ≤ 2 ^ 32 - 1

/-! ### Buffer bytes (R50, R51) -/

/-- The byte at a window offset, or none if it is unwritten (R51). -/
def memRead : Memory → Nat → Option Byte
  | [], _ => none
  | (a, b) :: m, off => if a = off then some b else memRead m off

/-- Write one byte, which sets its written mark (R50). Keeps the canonical form. -/
def memWrite : Memory → Nat → Byte → Memory
  | [], off, v => [(off, v)]
  | (a, b) :: m, off, v =>
    if off < a then (off, v) :: (a, b) :: m
    else if off = a then (off, v) :: m
    else (a, b) :: memWrite m off v

/-- The bytes at `off .. off + n`, or the first of these offsets that is unwritten (R51). -/
def memSpan (m : Memory) : Nat → Nat → Except Fault (List Byte)
  | _, 0 => .ok []
  | off, n + 1 =>
    match memRead m off with
    | none => .error (.uninitRead off)
    | some b =>
      match memSpan m (off + 1) n with
      | .ok bs => .ok (b :: bs)
      | .error f => .error f

/-- Write bytes from `off` on, in index order (R69). -/
def memWriteSpan (m : Memory) : Nat → List Byte → Memory
  | _, [] => m
  | off, b :: bs => memWriteSpan (memWrite m off b) (off + 1) bs

/-! ### Updates of one register or field -/

/-- `REG.CRC <- c` -/
def setCrc (c : Crc) (s : State) : State := { s with regs := { s.regs with crc := c } }

/-- `REG.TX_LEN <- n` -/
def setTxLen (n : Nat) (s : State) : State := { s with regs := { s.regs with txLen := BitVec.ofNat 9 n } }

/-- `REG.RX_LEN <- n` -/
def setRxLen (n : Nat) (s : State) : State := { s with regs := { s.regs with rxLen := BitVec.ofNat 9 n } }

/-- `REG.STATUS <- t` -/
def setStatus (t : Status) (s : State) : State := { s with regs := { s.regs with status := t } }

/-- `REG.STATUS.RESP_VALID <- v` -/
def setRespValid (v : Bool) (s : State) : State := setStatus { s.regs.status with respValid := v } s

/-- `REG.POLL_ATTEMPTS <- n` -/
def setPollAttempts (n : Nat) (s : State) : State :=
  { s with regs := { s.regs with pollAttempts := BitVec.ofNat 32 n } }

/-- `fsm.state <- f` -/
def setFsmState (f : FsmState) (s : State) : State := { s with fsm := { s.fsm with state := f } }

/-- The whole hidden state. -/
def setFsm (f : Fsm) (s : State) : State := { s with fsm := f }

/-- The buffers. -/
def setMem (m : Memory) (s : State) : State := { s with mem := m }

/-! ### Starting and completing an operation -/

/-- An accepted CMD write, up to the entry action (R24). -/
def accept (op : Op) (b : Byte) (s : State) : State :=
  setFsm { s.fsm with op := op, byte := b } (setStatus (statusAccepted s.regs.status) s)

/-- `completion(code)` (R127): the one end of every operation. -/
def completion (e : ErrKind) (s : State) : State :=
  setFsmState .idle (setStatus (statusCompleted e s.regs.status) s)

/-- `complete` (R15): completion with code NONE. -/
def complete (s : State) : State := completion .none s

/-- `raise E` (R15): completion with the code of `e`. -/
def raise (e : ErrKind) (s : State) : State := completion e s

/-- A rejected host write (R61): no effect but `STATUS.REJ <- 1`. -/
def reject (s : State) : State := setStatus (statusRejected s.regs.status) s

/-- One transition of an operation done by one EXEC step: accepted from IDLE with its entry action, `work` in EXEC. In the
states such an operation never reaches there is no transition (R22; log 10). -/
def localOp (op : Op) (b : Byte) (entry : State → State) (work : State → Result) (s : State) : Result :=
  match s.fsm.state with
  | .idle => .next (entry (accept op b s))
  | .exec => work s
  | .tx | .poll | .body | .dec => .next s

/-- The last stage of an operation: if it goes on, `complete`. -/
def finishWith (r : Stage) : Result :=
  match r with
  | .goOn s => .next (complete s)
  | .raised s => .next s
  | .stop f => .fault f

/-- A stage of an operation that has further ones: if it goes on, `k` is what the step does last. -/
def continueWith (k : State → State) (r : Stage) : Result :=
  match r with
  | .goOn s => .next (k s)
  | .raised s => .next s
  | .stop f => .fault f

/-! ### The channel (R14, R49; logs 2, 3) -/

/-- A `ChanRead(m)` result holds at most `m` bytes (R14): a scripted or drawn answer is cut to its type. -/
def clipRead (m : Nat) : ReadAnswer → ReadAnswer
  | .ok t => .ok (t.take m)
  | .err => .err

/-- `ChanRead(m)`: the channel's next scripted answer, else a free value. -/
def chanRead (m : Nat) (s : State) : ReadAnswer × State :=
  match s.chan.readAns with
  | a :: rest =>
    (clipRead m a, { s with chan := { s.chan with readAns := rest, calls := .read m (clipRead m a) :: s.chan.calls } })
  | [] =>
    let a := clipRead m (Config.freeRead s.draws)
    (a, { s with chan := { s.chan with calls := .read m a :: s.chan.calls }, draws := s.draws + 1 })

/-- `ChanWrite(bytes)`: the channel's next scripted answer, else a free value. -/
def chanWrite (bytes : List Byte) (s : State) : WriteAnswer × State :=
  match s.chan.writeAns with
  | a :: rest =>
    (a, { s with chan := { s.chan with writeAns := rest, calls := .write bytes a :: s.chan.calls } })
  | [] =>
    let a := Config.freeWrite s.draws
    (a, { s with chan := { s.chan with calls := .write bytes a :: s.chan.calls }, draws := s.draws + 1 })

end Sys2Proof.Machine
end

