-- ==== Sys2Proof/Machine/Checksum.lean ====
section
/-! DEFINITION. The checksum generator (40_checksum.md): the functions of R89 and R90, and CRC_INIT, CRC_BYTE, CRC_SPAN. -/

namespace Sys2Proof.Machine

/-- One iteration of R89: a logical shift right, then XOR 0x8408 if the bit shifted out was 1. -/
def crcShift (c : Crc) : Crc := if c.getLsbD 0 then (c >>> 1) ^^^ 0x8408#16 else c >>> 1

/-- `n` iterations of R89. -/
def crcShifts : Nat → Crc → Crc
  | 0, c => c
  | n + 1, c => crcShifts n (crcShift c)

/-- `crc_step(c, b)` (R89): the byte enters bits 7:0, then 8 iterations. -/
def crcStep (c : Crc) (b : Byte) : Crc := crcShifts 8 (c ^^^ b.setWidth 16)

/-- `crc16(d)` (R90): initial value 0xFFFF, no final XOR. Total on every byte sequence (R94). -/
def crc16 (d : List Byte) : Crc := d.foldl crcStep 0xFFFF#16

/-- The entry action of an operation done by one EXEC step. -/
def enterExec (s : State) : State := setFsmState .exec s

/-- CRC_INIT (R91). -/
def execCrcInit (b : Byte) (s : State) : Result :=
  localOp .crcInit b enterExec (fun s => .next (complete (setCrc 0xFFFF#16 s))) s

/-- CRC_BYTE (R92): folds `fsm.byte` into the accumulator. -/
def execCrcByte (b : Byte) (s : State) : Result :=
  localOp .crcByte b enterExec (fun s => .next (complete (setCrc (crcStep s.regs.crc s.fsm.byte) s))) s

/-- The payload span `PBUF[0 .. CMD_SIZE]` (R34, R93, R98), or UNINIT_READ of its first unwritten byte (R51). -/
def payloadSpan (s : State) : Except Fault (List Byte) := memSpan s.mem (bufBase .pbuf) s.regs.cmdSize.toNat

/-- CRC_SPAN (R93). -/
def execCrcSpan (b : Byte) (s : State) : Result :=
  localOp .crcSpan b enterExec
    (fun s =>
      match payloadSpan s with
      | .error f => .fault f
      | .ok d => .next (complete (setCrc (crc16 d) s))) s

end Sys2Proof.Machine
end

