-- ==== Sys2Proof/Machine/Frame.lean ====
section
/-! DEFINITION. The frame encoder and the write stage (41_frame_encode.md): `encode_frame` (R97), `encode_stage` (R98),
`tx_step` (R99), ENCODE (R100) and TRANSMIT (R101). -/

namespace Sys2Proof.Machine

/-- The largest payload the encoder accepts (R8, R75). -/
def maxPayload : Nat := 251

/-- A byte sequence followed by its checksum, low byte first (R74, R80). -/
def withChecksum (h : List Byte) : List Byte := h ++ [crcLsb (crc16 h), crcMsb (crc16 h)]

/-- `encode_frame(a, o, p)` (R97): the length byte is `size + 4`. -/
def encodeFrame (a o : Byte) (p : List Byte) : Except ErrKind (List Byte) :=
  if p.length > maxPayload then .error .invalidParameter
  else .ok (withChecksum ([BitVec.ofNat 8 (p.length + 4), a, o] ++ p))

/-- Put an encoded frame into TXBUF, TX_LEN and CRC (R98): CRC is the pair at the frame's end. -/
def storeFrame (f : List Byte) (s : State) : State :=
  setCrc (crcOfBytes (f.getD (f.length - 2) 0) (f.getD (f.length - 1) 0))
    (setTxLen f.length (setMem (memWriteSpan s.mem (bufBase .txbuf) f) s))

/-- `encode_stage` (R98). The size check comes first, so no PBUF byte is read if it fails (R130). -/
def encodeStage (s : State) : Stage :=
  if s.regs.cmdSize.toNat > maxPayload then .raised (raise .invalidParameter (setTxLen 0 s))
  else
    match payloadSpan s with
    | .error f => .stop f
    | .ok p =>
      match encodeFrame s.regs.cmdAddr s.regs.cmdOpcode p with
      | .error e => .raised (raise e (setTxLen 0 s))
      | .ok f => .goOn (storeFrame f s)

/-- `tx_step` (R99): one ChanWrite of `TXBUF[0 .. TX_LEN]`; any answer but `Ok(TX_LEN)` is IoError. -/
def txStep (s : State) : Stage :=
  if s.regs.txLen.toNat = 0 then .raised (raise .invalidParameter s)
  else
    match memSpan s.mem (bufBase .txbuf) s.regs.txLen.toNat with
    | .error f => .stop f
    | .ok bytes =>
      match chanWrite bytes s with
      | (.err, t) => .raised (raise .ioError t)
      | (.ok k, t) => if k = s.regs.txLen.toNat then .goOn t else .raised (raise .ioError t)

/-- ENCODE (R100). -/
def execEncode (b : Byte) (s : State) : Result :=
  localOp .encode b enterExec (fun s => finishWith (encodeStage s)) s

/-- TRANSMIT (R101). -/
def execTransmit (b : Byte) (s : State) : Result :=
  match s.fsm.state with
  | .idle => .next (setFsmState .tx (accept .transmit b s))
  | .tx => finishWith (txStep s)
  | .exec | .poll | .body | .dec => .next s

end Sys2Proof.Machine
end

