-- ==== Sys2Proof/Machine/Receive.lean ====
section
/-! DEFINITION. The length-prefixed receive (42_receive.md): `poll_entry`, `poll_step`, `body_step`, `finish_receive` and
RECEIVE. RUN (Exchange.lean) uses the same stages. -/

namespace Sys2Proof.Machine

/-- `poll_entry` (R102). -/
def pollEntry (s : State) : State :=
  setPollAttempts 0 (setFsm { s.fsm with pollCnt := 0, bodyCnt := 0, got := 0, state := .poll } s)

/-- `fail_receive ; raise E` (R102): RX_LEN <- 0, so no partial frame is left as a frame. -/
def failReceive (e : ErrKind) (s : State) : State := raise e (setRxLen 0 s)

/-- `finish_receive` (R105): the count byte, RX_LEN, then completion for RECEIVE and DEC for RUN. -/
def finishReceive (s : State) : State :=
  let t := setRxLen (1 + s.fsm.got) (setMem (memWrite s.mem (bufBase .rxbuf) (BitVec.ofNat 8 s.fsm.got)) s)
  if s.fsm.op = .receive then complete t else setFsmState .dec t

/-- One more poll attempt is counted (R103). -/
def countPoll (s : State) : State :=
  setPollAttempts (s.fsm.pollCnt + 1) (setFsm { s.fsm with pollCnt := s.fsm.pollCnt + 1 } s)

/-- The length byte has arrived (R103). -/
def startBody (len : Byte) (s : State) : State :=
  let t := setFsm { s.fsm with declLen := len, got := 0, bodyCnt := 0 } s
  if len = 0 then finishReceive t else setFsmState .body t

/-- `poll_step` (R103): one attempt to read the length byte. -/
def pollStep (s : State) : State :=
  let r := chanRead 1 s
  let t := countPoll r.2
  match r.1 with
  | .err => failReceive .ioError t
  | .ok [] => if t.fsm.pollCnt = s.cfg.pollBudget then failReceive .timeout t else t
  | .ok (len :: _) => startBody len t

/-- Bytes have arrived in BODY (R104): they go to RXBUF from index `1 + got` on. -/
def storeBody (bytes : List Byte) (s : State) : State :=
  let t := setFsm { s.fsm with got := s.fsm.got + bytes.length }
    (setMem (memWriteSpan s.mem (bufBase .rxbuf + 1 + s.fsm.got) bytes) s)
  if t.fsm.got = t.fsm.declLen.toNat then finishReceive t else t

/-- `body_step` (R104): one attempt to read the bytes still missing. -/
def bodyStep (s : State) : State :=
  let r := chanRead (s.fsm.declLen.toNat - s.fsm.got) s
  match r.1 with
  | .err => failReceive .ioError r.2
  | .ok [] =>
    let t := setFsm { s.fsm with bodyCnt := s.fsm.bodyCnt + 1 } r.2
    if t.fsm.bodyCnt = s.cfg.bodyPollBudget then failReceive .ioError t else t
  | .ok (b :: bs) => storeBody (b :: bs) r.2

/-- RECEIVE (R106). -/
def execReceive (b : Byte) (s : State) : Result :=
  match s.fsm.state with
  | .idle => .next (pollEntry (setRespValid false (accept .receive b s)))
  | .poll => .next (pollStep s)
  | .body => .next (bodyStep s)
  | .exec | .tx | .dec => .next s

end Sys2Proof.Machine
end

