-- ==== Sys2Proof/Machine/Validate.lean ====
section
/-! DEFINITION. The frame decoder and response validator (43_decode_validate.md): `decode_buf` (R110), `decode_stage`
(R111) and DECODE (R112). Nothing but length and checksum is checked (R113). -/

namespace Sys2Proof.Machine

/-- A validated response (R110, §3 of the source). -/
structure Response where
  size : Byte
  readerAddress : Byte
  responseCode : Byte
  status : Byte
  payload : List Byte
deriving DecidableEq, Repr, Inhabited

/-- The shortest buffer the decoder accepts (R79, R110). -/
def minFrame : Nat := 6

/-- The checksum computed over a buffer but its last two bytes (R79). -/
def bufChecksum (buf : List Byte) : Crc := crc16 (buf.take (buf.length - 2))

/-- The checksum a buffer carries in its last two bytes, low byte first (R80). -/
def bufTrailer (buf : List Byte) : Crc := crcOfBytes (buf.getD (buf.length - 2) 0) (buf.getD (buf.length - 1) 0)

/-- `Response.size` of a buffer of `n` bytes (R81, R110): `n - 6`. `size` is one byte (§3 of the source) and no rule reduces
`n - 6` to a byte where it is none, `n > 261`: there it is a free value (DESIGN CHOICE, log 16). `decodeStage` only decodes
up to 256 bytes. -/
def responseSize (n : Nat) : Byte := if n ≤ 261 then BitVec.ofNat 8 (n - 6) else Config.freeSize n

/-- The response a buffer holds (R79, R81): `size` comes from the buffer's length, never from its count byte. -/
def bufResponse (buf : List Byte) : Response where
  size := responseSize buf.length
  readerAddress := buf.getD 1 0
  responseCode := buf.getD 2 0
  status := buf.getD 3 0
  payload := (buf.take (buf.length - 2)).drop 4

/-- `decode_buf(buf)` (R110). -/
def decodeBuf (buf : List Byte) : Except ErrKind Response :=
  if buf.length < minFrame then .error .malformed
  else if bufChecksum buf ≠ bufTrailer buf then .error .checksumMismatch
  else .ok (bufResponse buf)

/-- The response registers of a validated response (R111): RESP_* and `STATUS.RESP_VALID <- 1`. -/
def setResponse (r : Response) (s : State) : State :=
  setRespValid true
    { s with
      regs :=
        { s.regs with
          respSize := r.size, respAddr := r.readerAddress, respCode := r.responseCode, respStatus := r.status } }

/-- `decode_stage` (R111). The length checks come before any RXBUF byte is read (R130). -/
def decodeStage (s : State) : Stage :=
  if s.regs.rxLen.toNat > 256 then .raised (raise .invalidParameter s)
  else if s.regs.rxLen.toNat < minFrame then .raised (raise .malformed s)
  else
    match memSpan s.mem (bufBase .rxbuf) s.regs.rxLen.toNat with
    | .error f => .stop f
    | .ok buf =>
      match decodeBuf buf with
      | .error e => .raised (raise e (setCrc (bufChecksum buf) s))
      | .ok r => .goOn (setResponse r (setCrc (bufChecksum buf) s))

/-- DECODE (R112). -/
def execDecode (b : Byte) (s : State) : Result :=
  localOp .decode b (fun s => enterExec (setRespValid false s)) (fun s => finishWith (decodeStage s)) s

end Sys2Proof.Machine
end

