-- ==== Sys2Proof/Machine/Exchange.lean ====
section
/-! DEFINITION. The exchange (44_exchange.md): RUN chains the encode, write, receive and decode stages (R117–R119). -/

namespace Sys2Proof.Machine

/-- RUN's entry action (R117). -/
def runEntry (s : State) : State := enterExec (setPollAttempts 0 (setRespValid false s))

/-- RUN (R117): each state's block step is that of the stage it names. -/
def execRun (b : Byte) (s : State) : Result :=
  match s.fsm.state with
  | .idle => .next (runEntry (accept .run b s))
  | .exec => continueWith (setFsmState .tx) (encodeStage s)
  | .tx => continueWith pollEntry (txStep s)
  | .poll => .next (pollStep s)
  | .body => .next (bodyStep s)
  | .dec => finishWith (decodeStage s)

end Sys2Proof.Machine
end

