-- ==== Sys2Proof/Machine/Invalid.lean ====
section
/-! DEFINITION. INVALID, the operation of an illegal command word (60_exceptions.md R125). -/

namespace Sys2Proof.Machine

/-- INVALID (R125): one EXEC step that raises InvalidOperation and writes nothing but STATUS. -/
def execInvalid (w : Word) (s : State) : Result :=
  localOp .invalid (byteField w) enterExec (fun s => .next (raise .invalidOperation s)) s

end Sys2Proof.Machine
end

