-- ==== Sys2Proof/Machine/Wire.lean ====
section
/-! DEFINITION. The wire opcodes (30_encoding.md R82, R83). To the block a wire opcode is the byte the host puts into
CMD_OPCODE, which ENCODE and RUN copy into byte 2 of the request frame (R33): its meaning here is that host write
(log 9). What the reader at the far end does with it belongs to the reader (R82). -/

namespace Sys2Proof.Machine

/-- A host write of CMD_OPCODE: stored while idle (R60), rejected while busy (R61). Any byte is accepted (R33, R83). -/
def writeOpcode (o : Byte) (s : State) : State :=
  if s.regs.status.busy then reject s else { s with regs := { s.regs with cmdOpcode := o } }

/-- Tag inventory, 0x01 (R82). -/
def execWireTagInventory (s : State) : Result := .next (writeOpcode 0x01#8 s)

/-- Set RF power, 0x2F (R82). -/
def execWireSetRfPower (s : State) : Result := .next (writeOpcode 0x2F#8 s)

/-- Set inventory time, 0x25 (R82). -/
def execWireSetInventoryTime (s : State) : Result := .next (writeOpcode 0x25#8 s)

/-- Set buzzer enabled, 0x40 (R82). -/
def execWireSetBuzzerEnabled (s : State) : Result := .next (writeOpcode 0x40#8 s)

end Sys2Proof.Machine
end

