-- ==== Sys2Proof/Machine/Dispatch.lean ====
section
/-! DEFINITION. One transition of an instruction: from IDLE its acceptance (R24), from any other state its block step. -/

namespace Sys2Proof.Machine

def exec (i : Instr) (s : State) : Host.Outcome State Fault Refusal :=
  match i with
  | .crcInit b => Sys2Proof.Machine.execCrcInit b s
  | .crcByte b => Sys2Proof.Machine.execCrcByte b s
  | .crcSpan b => Sys2Proof.Machine.execCrcSpan b s
  | .encode b => Sys2Proof.Machine.execEncode b s
  | .transmit b => Sys2Proof.Machine.execTransmit b s
  | .receive b => Sys2Proof.Machine.execReceive b s
  | .decode b => Sys2Proof.Machine.execDecode b s
  | .run b => Sys2Proof.Machine.execRun b s
  | .invalid w => Sys2Proof.Machine.execInvalid w s
  | .wireTagInventory => Sys2Proof.Machine.execWireTagInventory s
  | .wireSetRfPower => Sys2Proof.Machine.execWireSetRfPower s
  | .wireSetInventoryTime => Sys2Proof.Machine.execWireSetInventoryTime s
  | .wireSetBuzzerEnabled => Sys2Proof.Machine.execWireSetBuzzerEnabled s

end Sys2Proof.Machine
end

