-- ==== Sys2Proof/Machine/Bus.lean ====
section
/-! DEFINITION. What the agents do in one turn: host reads and writes (20_memory.md), reset (70_reset_and_hazards.md) and
the block's own step (10_state.md R47). A host write of CMD, and a host write of CMD_OPCODE that names a wire opcode, run
the instruction the decoder reads from it. -/

namespace Sys2Proof.Machine

/-! ### Host reads -/

/-- The value of a register with its reserved bits 0 (R23, R55). CMD reads 0 (R24). -/
def regValue (r : Reg) (g : Regs) : Word :=
  match r with
  | .cmd => 0
  | .status => statusWord g.status
  | .crc => g.crc.setWidth 32
  | .cmdAddr => g.cmdAddr.setWidth 32
  | .cmdOpcode => g.cmdOpcode.setWidth 32
  | .cmdSize => g.cmdSize.setWidth 32
  | .txLen => g.txLen.setWidth 32
  | .rxLen => g.rxLen.setWidth 32
  | .respSize => g.respSize.setWidth 32
  | .respAddr => g.respAddr.setWidth 32
  | .respCode => g.respCode.setWidth 32
  | .respStatus => g.respStatus.setWidth 32
  | .pollAttempts => g.pollAttempts

/-- R23's column "written by operations", but STATUS, which always reads its current value (R48). -/
def opWritesReg (op : Op) (r : Reg) : Bool :=
  match r with
  | .cmd | .status | .cmdAddr | .cmdOpcode | .cmdSize => false
  | .crc => op ∈ [Op.crcInit, .crcByte, .crcSpan, .encode, .decode, .run]
  | .txLen => op ∈ [Op.encode, .run]
  | .rxLen => op ∈ [Op.receive, .run]
  | .respSize | .respAddr | .respCode | .respStatus => op ∈ [Op.decode, .run]
  | .pollAttempts => op ∈ [Op.receive, .run]

/-- Whether the running operation writes byte `i` of a buffer (R42–R44, R98, R104, R105). A frame covers TXBUF below
`CMD_SIZE + 5`. A receive covers RXBUF up to the declared length once that is known, and may reach any byte before. -/
def opWritesByte (s : State) (b : Buf) (i : Nat) : Bool :=
  match b with
  | .pbuf => false
  | .txbuf => s.fsm.op ∈ [Op.encode, .run] && s.regs.cmdSize.toNat ≤ 251 && i < s.regs.cmdSize.toNat + 5
  | .rxbuf =>
    s.fsm.op ∈ [Op.receive, .run] &&
      match s.fsm.state with
      | .body | .dec => i ≤ s.fsm.declLen.toNat
      | .idle | .exec | .tx | .poll => true

/-- The host has read `v`. No block state changes (R62). -/
def answerRead (v : Word) (s : State) : State := { s with seen := v :: s.seen }

/-- The host has read an unspecified value of the bits in `mask` (R48): a free value. -/
def drawRead (mask : Word) (s : State) : State :=
  answerRead (Config.freeWord s.draws &&& mask) { s with draws := s.draws + 1 }

/-- `MemRead(off, n)` (R55–R57, R48, R51). An unwritten byte faults whether or not the running operation writes it
(log 7). -/
def hostRead (off n : Nat) (s : State) : Result :=
  match target off n with
  | none => .fault (.busError off n)
  | some (.reg r) =>
    if s.regs.status.busy && opWritesReg s.fsm.op r then .next (drawRead (usedMask r) s)
    else .next (answerRead (regValue r s.regs) s)
  | some (.byte b i) =>
    match memRead s.mem off with
    | none => .fault (.uninitRead off)
    | some v =>
      if s.regs.status.busy && opWritesByte s b i then .next (drawRead 0xFF#32 s)
      else .next (answerRead (v.setWidth 32) s)

/-! ### Host writes -/

/-- The low byte of a bus word: the used bits that R60 stores, and the one byte of a buffer access (log 15). -/
def lowByte (v : Word) : Byte := v.setWidth 8

/-- A host write of CMD: an accepted CMD write runs the word's operation (R24), a write while busy is rejected (R61). -/
def writeCmd (w : Word) (s : State) : Result :=
  if s.regs.status.busy then .next (reject s) else exec (decodeCmd w) s

/-- A host write of CMD_OPCODE: a byte of R82's table runs that wire opcode, any other byte is stored all the same (R83). -/
def writeCmdOpcode (v : Word) (s : State) : Result :=
  match decodeWire (lowByte v) with
  | some i => exec i s
  | none => .next (writeOpcode (lowByte v) s)

/-- A host write of an operand register or buffer byte: done while idle (R60), rejected while busy (R61). -/
def writeIfIdle (f : State → State) (s : State) : Result :=
  if s.regs.status.busy then .next (reject s) else .next (f s)

/-- A host write of a register (R60, R61): used bits are stored, a write of a read-only register is ignored. -/
def writeReg (r : Reg) (v : Word) (s : State) : Result :=
  match r with
  | .cmd => writeCmd v s
  | .cmdAddr => writeIfIdle (fun s => { s with regs := { s.regs with cmdAddr := lowByte v } }) s
  | .cmdOpcode => writeCmdOpcode v s
  | .cmdSize => writeIfIdle (fun s => { s with regs := { s.regs with cmdSize := lowByte v } }) s
  | .rxLen => writeIfIdle (fun s => { s with regs := { s.regs with rxLen := v.setWidth 9 } }) s
  | .status | .crc | .txLen | .respSize | .respAddr | .respCode | .respStatus | .pollAttempts => .next s

/-- A host write of a buffer byte (R60, R61): TXBUF ignores it. -/
def writeByte (b : Buf) (off : Nat) (v : Byte) (s : State) : Result :=
  match b with
  | .pbuf | .rxbuf => writeIfIdle (fun s => setMem (memWrite s.mem off v) s) s
  | .txbuf => .next s

/-- `MemWrite(off, n, v)` (R55–R57, R60, R61). -/
def hostWrite (off n : Nat) (v : Word) (s : State) : Result :=
  match target off n with
  | none => .fault (.busError off n)
  | some (.reg r) => writeReg r v s
  | some (.byte b _) => writeByte b off (lowByte v) s

/-! ### Reset and the block's own step -/

/-- The reset transition (R141): every piece of the block's state gets its value of R52. The configuration, the channel
(R143) and the host are not block state (R20). -/
def platformReset (s : State) : State :=
  { s with regs := State.reset.regs, fsm := State.reset.fsm, mem := State.reset.mem }

/-- The instruction in progress, from `fsm.op` and `fsm.byte` (R45). INVALID is rebuilt with OP = 0 (log 12). -/
def instrOf (op : Op) (b : Byte) : Instr :=
  match op with
  | .crcInit => .crcInit b
  | .crcByte => .crcByte b
  | .crcSpan => .crcSpan b
  | .encode => .encode b
  | .transmit => .transmit b
  | .receive => .receive b
  | .decode => .decode b
  | .run => .run b
  | .invalid => .invalid (cmdWord 0 b)

/-- One block step (R47): the transition of the operation in progress. An idle block takes none (R144). -/
def blockStep (s : State) : Result :=
  if s.fsm.state = .idle then .next s else exec (instrOf s.fsm.op s.fsm.byte) s

/-- One turn of the interleaving (R47, R64). -/
def turn (e : Event) (s : State) : Result :=
  match e with
  | .read off n => hostRead off n s
  | .write off n v => hostWrite off n v s
  | .reset => .next (platformReset s)
  | .block => blockStep s

/-- The agenda decides whose turn it is; when it is empty the block runs on (weak fairness, R47; log 1). A configuration out
of range is refused before any step (R17). -/
def advance (s : State) : Result :=
  if configOk s.cfg then
    match s.todo with
    | [] => blockStep s
    | e :: rest => turn e { s with todo := rest }
  else .fault .badParameterConfig

/-- The host write that presents a table word to the block: to CMD_OPCODE for a wire opcode row (8 bits), to CMD for a
command word row. -/
def wordWrite (nbits w : Nat) : Event :=
  if nbits = 8 then .write 0x010 4 (BitVec.ofNat 32 (w % 256)) else .write 0x000 4 (BitVec.ofNat 32 w)

end Sys2Proof.Machine
end

