-- ==== Sys2Proof/Machine/Step.lean ====
section
/-! DEFINITION. One step of the machine, and how a word is placed so that the next step runs it. -/

namespace Sys2Proof.Machine

/-- One step: one turn of the interleaving of host accesses, resets and block steps (10_state.md R47). -/
def step (s : State) : Host.Outcome State Fault Refusal := advance s

/-- `s` with the host's write of that word as the next turn (log 9, log 12): the next step runs it, if the block is idle. -/
def State.withFetchWord (s : State) (nbits w : Nat) : State := { s with todo := wordWrite nbits w :: s.todo }

end Sys2Proof.Machine
end

