-- ==== Sys2Proof/Safety.lean ====
section
/-! DEFINITION. What a good state is (`Inv`), what a run is (`Reaches`), running one operation alone (`runOp`), and the
vocabulary that the statements use: a state after an accepted CMD write, a state after a completion, the channel's next
answer. -/

namespace Sys2Proof.Machine

/-! ### The invariant -/

/-- Which operations a state of the machine can belong to (R46). -/
def opFits : FsmState → Op → Bool
  | .idle, _ => true
  | .exec, op => op ∈ [Op.crcInit, .crcByte, .crcSpan, .encode, .decode, .run, .invalid]
  | .tx, op => op ∈ [Op.transmit, .run]
  | .poll, op => op ∈ [Op.receive, .run]
  | .body, op => op ∈ [Op.receive, .run]
  | .dec, op => op ∈ [Op.run]

/-- What every reachable state satisfies. -/
structure Inv (s : State) : Prop where
  /-- the buffers keep the canonical form -/
  memWf : Memory.wf s.mem
  /-- only buffer bytes are listed (R53) -/
  memInBuffers : ∀ c ∈ s.mem, (bufAt c.1).isSome = true
  /-- BUSY says whether an operation is in progress (R46) -/
  busyIff : s.regs.status.busy = true ↔ s.fsm.state ≠ .idle
  /-- R26, R48: BUSY = 1 guarantees DONE = 0 and ERR = 0 -/
  busyClears : s.regs.status.busy = true → s.regs.status.done = false ∧ s.regs.status.err = .none
  /-- R46 -/
  opFits : opFits s.fsm.state s.fsm.op = true
  /-- R29: no response while an operation that clears RESP_VALID runs -/
  noResponse : s.regs.status.busy = true → s.fsm.op ∈ [Op.receive, .decode, .run] → s.regs.status.respValid = false
  /-- R35, R74: TXBUF[0 .. TX_LEN] is a request frame unless TX_LEN = 0 -/
  txFrame : s.regs.txLen ≠ 0#9 →
    ∃ a o p f, encodeFrame a o p = .ok f ∧ memSpan s.mem (bufBase .txbuf) s.regs.txLen.toNat = .ok f
  /-- R117: RUN reaches TX only with a frame -/
  runTx : s.fsm.state = .tx → s.fsm.op = .run → s.regs.txLen ≠ 0#9
  /-- R103 -/
  poll : s.fsm.state = .poll →
    s.fsm.pollCnt < s.cfg.pollBudget ∧ s.fsm.got = 0 ∧ s.fsm.bodyCnt = 0 ∧
      s.regs.pollAttempts = BitVec.ofNat 32 s.fsm.pollCnt
  /-- R104: 0 <= got < decl_len, and the bytes received are in RXBUF -/
  body : s.fsm.state = .body →
    s.fsm.pollCnt ≤ s.cfg.pollBudget ∧ s.fsm.got < s.fsm.declLen.toNat ∧ s.fsm.bodyCnt < s.cfg.bodyPollBudget ∧
      s.regs.pollAttempts = BitVec.ofNat 32 s.fsm.pollCnt ∧
      ∀ j, 1 ≤ j → j ≤ s.fsm.got → (memRead s.mem (bufBase .rxbuf + j)).isSome = true
  /-- R105: RUN decodes a whole frame -/
  dec : s.fsm.state = .dec →
    s.regs.rxLen.toNat = 1 + s.fsm.declLen.toNat ∧
      ∀ j, j < s.regs.rxLen.toNat → (memRead s.mem (bufBase .rxbuf + j)).isSome = true

/-! ### Runs -/

/-- `t` is reached from `s` by steps that answer a next state. -/
inductive Reaches : State → State → Prop where
  | refl (s : State) : Reaches s s
  | tail {s t u : State} : Reaches s t → step t = .next u → Reaches s u

/-- Block steps until the block is IDLE, at most `n` of them. -/
def settle : Nat → State → Result
  | 0, s => .next s
  | n + 1, s =>
    if s.fsm.state = .idle then .next s
    else
      match blockStep s with
      | .next t => settle n t
      | .fault f => .fault f
      | .refused r => .refused r

/-- The most block steps a receive takes (R108). -/
def receiveBound (c : Config) : Nat := c.pollBudget + c.bodyPollBudget + 255

/-- The most block steps an instruction takes once it has started (R155): one for a local operation and for TRANSMIT, those
of a receive for RECEIVE, three more for RUN. A wire opcode takes none. -/
def opBound (i : Instr) (c : Config) : Nat :=
  match i with
  | .crcInit _ | .crcByte _ | .crcSpan _ | .encode _ | .transmit _ | .decode _ | .invalid _ => 1
  | .receive _ => receiveBound c
  | .run _ => 2 + receiveBound c + 1
  | .wireTagInventory | .wireSetRfPower | .wireSetInventoryTime | .wireSetBuzzerEnabled => 0

/-- Start instruction `i` and run it to its completion with no host access in between. -/
def runOp (i : Instr) (s : State) : Result :=
  match exec i s with
  | .next t => settle (opBound i s.cfg) t
  | .fault f => .fault f
  | .refused r => .refused r

/-- Several instructions one after the other, each run to its completion. -/
def runOps : List Instr → State → Result
  | [], s => .next s
  | i :: is, s =>
    match runOp i s with
    | .next t => runOps is t
    | .fault f => .fault f
    | .refused r => .refused r

/-- Instruction `i`, started in `s` and run with no host access in between, is in progress after its start, and within `n`
block steps it completes or the model stops with UNINIT_READ. -/
def endsWithin (n : Nat) (i : Instr) (s : State) : Prop :=
  ∃ t, exec i s = .next t ∧ t.fsm.state ≠ .idle ∧
    ((∃ u, settle n t = .next u ∧ u.fsm.state = .idle ∧ u.regs.status.done = true ∧ u.regs.status.busy = false) ∨
      ∃ off, settle n t = .fault (.uninitRead off))

/-! ### Whose turn it is -/

/-- The next turn is the block's: it is next on the agenda, or the agenda is empty. -/
def blockTurn (s : State) : Prop := s.todo.head? = none ∨ s.todo.head? = some .block

/-- The next turn is a reset. -/
def resetTurn (s : State) : Prop := s.todo.head? = some .reset

/-- The next turn is a host write of `w` to CMD. -/
def cmdWriteTurn (w : Word) (s : State) : Prop := s.todo.head? = some (.write 0x000 4 w)

/-- The block is about to take the step of operation `op` in state `f`. -/
def stepOf (op : Op) (f : FsmState) (s : State) : Prop := blockTurn s ∧ s.fsm.op = op ∧ s.fsm.state = f

/-- `s` with the agenda's next turn taken off. -/
def nextTurn (s : State) : State := { s with todo := s.todo.tail }

/-! ### Vocabulary of the statements -/

/-- `s` after an accepted CMD write (R24) of `op` with BYTE `b`, the entry action having moved to state `f`. -/
def started (op : Op) (b : Byte) (f : FsmState) (s : State) : State :=
  { s with
    regs := { s.regs with status := { s.regs.status with done := false, err := .none, rej := false, busy := true } }
    fsm := { s.fsm with op := op, byte := b, state := f } }

/-- `s` after a completion with outcome `e` (R127). -/
def ended (e : ErrKind) (s : State) : State :=
  { s with
    regs := { s.regs with status := { s.regs.status with err := e, busy := false, done := true } }
    fsm := { s.fsm with state := .idle } }

/-- `s` with the given CRC register. -/
def withCrc (c : Crc) (s : State) : State := { s with regs := { s.regs with crc := c } }

/-- `s` on a platform that puts the window at `b` (R53). -/
def withBase (b : Nat) (s : State) : State := { s with cfg := { s.cfg with blockBase := b } }

/-- `s` with the given RX_LEN. -/
def withRxLen (n : BitVec 9) (s : State) : State := { s with regs := { s.regs with rxLen := n } }

/-- The channel's answer to the next `ChanRead(m)` in `s`. -/
def nextRead (m : Nat) (s : State) : ReadAnswer :=
  match s.chan.readAns with
  | a :: _ => clipRead m a
  | [] => clipRead m (Config.freeRead s.draws)

/-- The channel's answer to the next `ChanWrite` in `s`. -/
def nextWrite (s : State) : WriteAnswer :=
  match s.chan.writeAns with
  | a :: _ => a
  | [] => Config.freeWrite s.draws

/-- `s` once the channel has answered a `ChanRead(m)`: one script entry or one free value is used, the call is recorded,
and nothing else changes. -/
def afterRead (m : Nat) (s : State) : State :=
  match s.chan.readAns with
  | _ :: rest => { s with chan := { s.chan with readAns := rest, calls := .read m (nextRead m s) :: s.chan.calls } }
  | [] => { s with chan := { s.chan with calls := .read m (nextRead m s) :: s.chan.calls }, draws := s.draws + 1 }

/-- `s` once the channel has answered a `ChanWrite(bytes)`. -/
def afterWrite (bytes : List Byte) (s : State) : State :=
  match s.chan.writeAns with
  | _ :: rest => { s with chan := { s.chan with writeAns := rest, calls := .write bytes (nextWrite s) :: s.chan.calls } }
  | [] => { s with chan := { s.chan with calls := .write bytes (nextWrite s) :: s.chan.calls }, draws := s.draws + 1 }

/-- What lies outside the block in `t` is as in `s`: configuration, agenda, host, channel, free values. -/
def sameOutside (s t : State) : Prop :=
  t.cfg = s.cfg ∧ t.chan = s.chan ∧ t.todo = s.todo ∧ t.seen = s.seen ∧ t.draws = s.draws

/-- In `t`, the bytes from window offset `base` on are `f`, and every other byte reads as in `s`. -/
def storedAt (base : Nat) (f : List Byte) (s t : Memory) : Prop :=
  (∀ i, i < f.length → memRead t (base + i) = f[i]?) ∧
    ∀ a, (a < base ∨ base + f.length ≤ a) → memRead t a = memRead s a

/-- The bytes from window offset `base` on are all written and are `f`. -/
def holdsAt (base : Nat) (f : List Byte) (m : Memory) : Prop := ∀ i, i < f.length → memRead m (base + i) = f[i]?

/-- Some byte of the `n` bytes from window offset `base` on is unwritten. -/
def unwrittenIn (base n : Nat) (m : Memory) : Prop := ∃ i, i < n ∧ memRead m (base + i) = none

/-- `r` is UNINIT_READ of an unwritten byte among the `n` bytes from window offset `base` on. -/
def stopsUninit (base n : Nat) (m : Memory) (r : Result) : Prop :=
  ∃ i, i < n ∧ memRead m (base + i) = none ∧ r = .fault (.uninitRead (base + i))

/-- Same registers, buffers, channel and free values drawn. -/
def sameEnd (s t : State) : Prop := t.regs = s.regs ∧ t.mem = s.mem ∧ t.chan = s.chan ∧ t.draws = s.draws

/-- The request frame of address `a`, opcode `o` and payload `p` (R74–R76, R80), written out. -/
def requestFrame (a o : Byte) (p : List Byte) : List Byte :=
  let h := BitVec.ofNat 8 (p.length + 4) :: a :: o :: p
  h ++ [(crc16 h).extractLsb' 0 8, (crc16 h).extractLsb' 8 8]

/-- The response-shaped frame of R78 and R115, written out. -/
def responseFrame (a o t : Byte) (p : List Byte) : List Byte :=
  let h := BitVec.ofNat 8 (p.length + 5) :: a :: o :: t :: p
  h ++ [(crc16 h).extractLsb' 0 8, (crc16 h).extractLsb' 8 8]

/-- `buf` with bit `k` of byte `i` flipped. -/
def flipBit (buf : List Byte) (i k : Nat) : List Byte := buf.modify i (fun b => b ^^^ (1#8 <<< k))

end Sys2Proof.Machine
end

