-- ==== Sys2Proof/Certificates/Slice0/Obligations.lean ====
section
/-! DEFINITION. The statements for the provers. Each says in its docstring which rule of spec/ it formalises. Effects are
written out as whole states or field by field, so that a reader need not unfold the model's operations; `started`, `ended`,
`holdsAt`, `storedAt`, `nextRead` and the other words used are in Sys2Proof/Safety.lean. Nothing here rests on a value that
a free value or a log entry chose, unless the docstring says so. -/

open Sys2Proof Sys2Proof.Machine

/-! ## Encodings (30_encoding.md) -/

/-- 30_encoding.md R71: for every word, INVALID if R73 applies, otherwise the operation named by bits 3:0. -/
def Obligations.CommandWordSelectsOperation : Prop :=
  ∀ w : Word,
    ((w.extractLsb' 0 4 = 0#4 ∨ 9 ≤ (w.extractLsb' 0 4).toNat ∨ w.extractLsb' 4 4 ≠ 0#4 ∨ w.extractLsb' 16 16 ≠ 0#16) →
      decodeCmd w = .invalid w) ∧
    (w.extractLsb' 4 4 = 0#4 → w.extractLsb' 16 16 = 0#16 →
      (w.extractLsb' 0 4 = 1#4 → decodeCmd w = .crcInit (w.extractLsb' 8 8)) ∧
      (w.extractLsb' 0 4 = 2#4 → decodeCmd w = .crcByte (w.extractLsb' 8 8)) ∧
      (w.extractLsb' 0 4 = 3#4 → decodeCmd w = .crcSpan (w.extractLsb' 8 8)) ∧
      (w.extractLsb' 0 4 = 4#4 → decodeCmd w = .encode (w.extractLsb' 8 8)) ∧
      (w.extractLsb' 0 4 = 5#4 → decodeCmd w = .transmit (w.extractLsb' 8 8)) ∧
      (w.extractLsb' 0 4 = 6#4 → decodeCmd w = .receive (w.extractLsb' 8 8)) ∧
      (w.extractLsb' 0 4 = 7#4 → decodeCmd w = .decode (w.extractLsb' 8 8)) ∧
      (w.extractLsb' 0 4 = 8#4 → decodeCmd w = .run (w.extractLsb' 8 8)))

/-- Decoding the encoding of a well-formed instruction gives it back, whatever its BYTE or illegal word. -/
def Obligations.DecodeOfEncodeIsIdentity : Prop :=
  ∀ i : Instr, i.wellFormed = true → decode (encode i) = .ok i

/-- Whatever bytes decode to an instruction are exactly its encoding, and the instruction is well formed: no two rows
overlap and no bit is dropped. -/
def Obligations.EncodeOfDecodeIsIdentity : Prop :=
  ∀ (bs : List Byte) (i : Instr), decode bs = .ok i → i.wellFormed = true ∧ encode i = bs

/-- The words of 30_encoding.md R88 (BYTE = 0, and BYTE = 0x31 for CRC_BYTE), words of 95_test_vectors.md section 7 and
the wire opcodes of R82 decode to what they stand for. That a command word's four bytes are listed low byte first is the
model's reading of R58 (log 14, DEDUCED). -/
def Obligations.ListedWordsDecode : Prop :=
  decode [0x01#8, 0x00#8, 0x00#8, 0x00#8] = .ok (.crcInit 0x00#8) ∧
  decode [0x02#8, 0x31#8, 0x00#8, 0x00#8] = .ok (.crcByte 0x31#8) ∧
  decode [0x03#8, 0x00#8, 0x00#8, 0x00#8] = .ok (.crcSpan 0x00#8) ∧
  decode [0x04#8, 0xAB#8, 0x00#8, 0x00#8] = .ok (.encode 0xAB#8) ∧
  decode [0x05#8, 0x00#8, 0x00#8, 0x00#8] = .ok (.transmit 0x00#8) ∧
  decode [0x06#8, 0x00#8, 0x00#8, 0x00#8] = .ok (.receive 0x00#8) ∧
  decode [0x07#8, 0x00#8, 0x00#8, 0x00#8] = .ok (.decode 0x00#8) ∧
  decode [0x08#8, 0x00#8, 0x00#8, 0x00#8] = .ok (.run 0x00#8) ∧
  decode [0x01#8, 0x00#8, 0x01#8, 0x00#8] = .ok (.invalid 0x00010001#32) ∧
  decode [0x14#8, 0x00#8, 0x00#8, 0x00#8] = .ok (.invalid 0x00000014#32) ∧
  decode [0x01#8] = .ok .wireTagInventory ∧ decode [0x2F#8] = .ok .wireSetRfPower ∧
  decode [0x25#8] = .ok .wireSetInventoryTime ∧ decode [0x40#8] = .ok .wireSetBuzzerEnabled ∧
  decode [0x02#8] = .error (.noWireOpcode 0x02#8)

/-- A step runs the decoded instruction: a host write whose bytes decode to `i` is, in the next state of the agenda,
exactly `exec i` (a command word written to CMD while BUSY = 0, R24; a wire opcode byte written to CMD_OPCODE, R33, R82:
log 9). A block turn is exactly `exec` of the operation that `fsm.op` and `fsm.byte` hold (R45, R47). -/
def Obligations.StepRunsDecodedInstruction : Prop :=
  ∀ (s : State) (i : Instr), configOk s.cfg = true →
    (∀ (w : Word) (rest : List Event), s.todo = .write 0x000 4 w :: rest → s.regs.status.busy = false →
      decode (wordBytes w) = .ok i → step s = exec i { s with todo := rest }) ∧
    (∀ (v : Word) (rest : List Event), s.todo = .write 0x010 4 v :: rest → decode [v.extractLsb' 0 8] = .ok i →
      step s = exec i { s with todo := rest }) ∧
    (blockTurn s → s.fsm.state ≠ .idle → i = instrOf s.fsm.op s.fsm.byte → step s = exec i (nextTurn s)) ∧
    (∀ nbits w : Nat, (nbits = 8 ∨ nbits = 32) → s.regs.status.busy = false → decodeTableWord nbits w = some i →
      step (s.withFetchWord nbits w) = exec i s)

/-! ## The checksum generator (40_checksum.md) -/

/-- R89, R90: one byte enters the low byte and is shifted out bit by bit; `crc16` starts at 0xFFFF, folds the bytes in order
and changes nothing at the end. -/
def Obligations.ChecksumFoldsBytesInOrder : Prop :=
  (∀ (c : Crc) (b : Byte), crcStep c b =
    (fun x : Crc => if x.getLsbD 0 then (x >>> 1) ^^^ 0x8408#16 else x >>> 1)^[8] (c ^^^ b.setWidth 16)) ∧
  crc16 [] = 0xFFFF#16 ∧ ∀ (d : List Byte) (b : Byte), crc16 (d ++ [b]) = crcStep (crc16 d) b

/-- R91, CRC_INIT: its word, its start, its one EXEC step; everything else is unchanged. -/
def Obligations.CrcInitSetsInitialValue : Prop :=
  ∀ (b : Byte) (s : State),
    decodeCmd ((b.setWidth 32 <<< 8) ||| 0x1#32) = .crcInit b ∧
    (s.fsm.state = .idle → exec (.crcInit b) s = .next (started .crcInit b .exec s)) ∧
    (s.fsm.state = .exec → exec (.crcInit b) s = .next (ended .none (withCrc 0xFFFF#16 s)))

/-- R92, CRC_BYTE: its word, its start, its one EXEC step and the corner values; everything else is unchanged. -/
def Obligations.CrcByteFoldsOneByte : Prop :=
  (∀ (b : Byte) (s : State),
    decodeCmd ((b.setWidth 32 <<< 8) ||| 0x2#32) = .crcByte b ∧
    (s.fsm.state = .idle → exec (.crcByte b) s = .next (started .crcByte b .exec s)) ∧
    (s.fsm.state = .exec →
      exec (.crcByte b) s = .next (ended .none (withCrc (crcStep s.regs.crc s.fsm.byte) s)))) ∧
  crcStep 0x0000#16 0x00#8 = 0x0000#16 ∧ crcStep 0xFFFF#16 0xFF#8 = 0x00FF#16 ∧ crcStep 0xFFFF#16 0x00#8 = 0x0F87#16

/-- The running CRC, which R92 derives from R89 and R90: CRC_INIT and then CRC_BYTE of each byte of `d`, each run to its
completion, leave CRC = `crc16(d)`. -/
def Obligations.RunningCrcIsCrc16 : Prop :=
  ∀ (d : List Byte) (s : State), s.fsm.state = .idle →
    ∃ t, runOps (.crcInit 0#8 :: d.map .crcByte) s = .next t ∧ t.fsm.state = .idle ∧ t.regs.crc = crc16 d ∧ t.mem = s.mem

/-- R93, CRC_SPAN: its word, its start, its one EXEC step on a written span, UNINIT_READ on an unwritten one, the empty
span, and the example. -/
def Obligations.CrcSpanChecksumsPayload : Prop :=
  (∀ (b : Byte) (s : State),
    decodeCmd ((b.setWidth 32 <<< 8) ||| 0x3#32) = .crcSpan b ∧
    (s.fsm.state = .idle → exec (.crcSpan b) s = .next (started .crcSpan b .exec s)) ∧
    (∀ d : List Byte, s.fsm.state = .exec → d.length = s.regs.cmdSize.toNat → holdsAt 0x100 d s.mem →
      exec (.crcSpan b) s = .next (ended .none (withCrc (crc16 d) s))) ∧
    (s.fsm.state = .exec → unwrittenIn 0x100 s.regs.cmdSize.toNat s.mem →
      stopsUninit 0x100 s.regs.cmdSize.toNat s.mem (exec (.crcSpan b) s)) ∧
    (s.fsm.state = .exec → s.regs.cmdSize = 0#8 → exec (.crcSpan b) s = .next (ended .none (withCrc 0xFFFF#16 s)))) ∧
  crc16 [0x31#8, 0x32#8, 0x33#8, 0x34#8, 0x35#8, 0x36#8, 0x37#8, 0x38#8, 0x39#8] = 0x6F91#16

/-- R95, the residue, which 40_checksum.md derives from R89 and R90: a sequence followed by its checksum, low byte
first, has checksum 0, and so has a request frame. -/
def Obligations.ChecksumResidueIsZero : Prop :=
  (∀ d : List Byte, crc16 (d ++ [(crc16 d).extractLsb' 0 8, (crc16 d).extractLsb' 8 8]) = 0x0000#16) ∧
    (∀ (a o : Byte) (p : List Byte), crc16 (requestFrame a o p) = 0x0000#16) ∧
    ∀ (a o t : Byte) (p : List Byte), crc16 (responseFrame a o t p) = 0x0000#16

/-- R96, which 40_checksum.md derives from R89 and R90: linearity, and every single-bit change of the input changes the
result. -/
def Obligations.ChecksumLinearAndBitSensitive : Prop :=
  (∀ d e : List Byte, d.length = e.length →
    crc16 (List.zipWith (· ^^^ ·) d e) = crc16 d ^^^ crc16 e ^^^ crc16 (List.replicate d.length 0#8)) ∧
  ∀ (d : List Byte) (i k : Nat), i < d.length → k < 8 → crc16 (flipBit d i k) ≠ crc16 d

/-! ## The request frame, ENCODE and TRANSMIT (30_encoding.md, 41_frame_encode.md) -/

/-- R74, R76, R97: which payloads are encoded, and every byte of the frame. -/
def Obligations.RequestFrameLayout : Prop :=
  ∀ (a o : Byte) (p : List Byte),
    (251 < p.length → encodeFrame a o p = .error .invalidParameter) ∧
    (p.length ≤ 251 → ∃ f, encodeFrame a o p = .ok f ∧ f.length = p.length + 5 ∧
      f[0]?.map BitVec.toNat = some (p.length + 4) ∧ f[1]? = some a ∧ f[2]? = some o ∧
      (∀ i, i < p.length → f[3 + i]? = p[i]?) ∧
      f[3 + p.length]? = some ((crc16 (f.take (p.length + 3))).extractLsb' 0 8) ∧
      f[4 + p.length]? = some ((crc16 (f.take (p.length + 3))).extractLsb' 8 8))

/-- R100 with R98, ENCODE: its start; the frame in TXBUF, TX_LEN and CRC with all else unchanged; InvalidParameter above
251 with TX_LEN ← 0 only; the example. -/
def Obligations.EncodeBuildsRequestFrame : Prop :=
  (∀ (b : Byte) (s : State),
    decodeCmd ((b.setWidth 32 <<< 8) ||| 0x4#32) = .encode b ∧
    (s.fsm.state = .idle → exec (.encode b) s = .next (started .encode b .exec s)) ∧
    (∀ p : List Byte, s.fsm.state = .exec → s.regs.cmdSize.toNat ≤ 251 → p.length = s.regs.cmdSize.toNat →
      holdsAt 0x100 p s.mem →
      ∃ t, exec (.encode b) s = .next t ∧
        t.regs =
          { s.regs with
            txLen := BitVec.ofNat 9 (p.length + 5)
            crc := crc16 (BitVec.ofNat 8 (p.length + 4) :: s.regs.cmdAddr :: s.regs.cmdOpcode :: p)
            status := { s.regs.status with err := .none, busy := false, done := true } } ∧
        t.fsm = { s.fsm with state := .idle } ∧
        storedAt 0x200 (requestFrame s.regs.cmdAddr s.regs.cmdOpcode p) s.mem t.mem ∧ sameOutside s t) ∧
    (s.fsm.state = .exec → 251 < s.regs.cmdSize.toNat →
      exec (.encode b) s = .next (ended .invalidParameter { s with regs := { s.regs with txLen := 0#9 } })) ∧
    (s.fsm.state = .exec → s.regs.cmdSize.toNat ≤ 251 → unwrittenIn 0x100 s.regs.cmdSize.toNat s.mem →
      stopsUninit 0x100 s.regs.cmdSize.toNat s.mem (exec (.encode b) s))) ∧
  requestFrame 0x00#8 0x2F#8 [0x1E#8] = [0x05#8, 0x00#8, 0x2F#8, 0x1E#8, 0x72#8, 0x34#8]

/-- R101 with R99, TRANSMIT: its start; InvalidParameter with no channel access when TX_LEN = 0; else one ChanWrite of
TXBUF[0 .. TX_LEN], success exactly for `Ok(TX_LEN)` and IoError for any other answer; no register or buffer is written.
-/
def Obligations.TransmitWritesFrameOnce : Prop :=
  ∀ (b : Byte) (s : State),
    decodeCmd ((b.setWidth 32 <<< 8) ||| 0x5#32) = .transmit b ∧
    (s.fsm.state = .idle → exec (.transmit b) s = .next (started .transmit b .tx s)) ∧
    (s.fsm.state = .tx → s.regs.txLen = 0#9 → exec (.transmit b) s = .next (ended .invalidParameter s)) ∧
    (∀ f : List Byte, s.fsm.state = .tx → s.regs.txLen ≠ 0#9 → f.length = s.regs.txLen.toNat → holdsAt 0x200 f s.mem →
      (nextWrite s = .ok f.length → exec (.transmit b) s = .next (ended .none (afterWrite f s))) ∧
      (nextWrite s ≠ .ok f.length → exec (.transmit b) s = .next (ended .ioError (afterWrite f s))))

/-! ## The receive (42_receive.md) -/

/-- R106 with R102, RECEIVE's start: the accepted CMD write, RESP_VALID ← 0 and poll_entry; everything else is
unchanged. -/
def Obligations.ReceiveStartsPolling : Prop :=
  ∀ (b : Byte) (s : State),
    decodeCmd ((b.setWidth 32 <<< 8) ||| 0x6#32) = .receive b ∧
    (s.fsm.state = .idle →
      exec (.receive b) s = .next
        { s with
          regs :=
            { s.regs with
              status := { busy := true, done := false, rej := false, respValid := false, err := .none }
              pollAttempts := 0#32 }
          fsm := { s.fsm with op := .receive, byte := b, state := .poll, pollCnt := 0, bodyCnt := 0, got := 0 } })

/-- R103, poll_step, for RECEIVE and RUN alike: one ChanRead(1); what each answer does; there is no fifth answer. `t` is
the state in which the call has been made and counted. -/
def Obligations.PollStepByAnswer : Prop :=
  ∀ (b : Byte) (i : Instr) (s t : State), (i = .receive b ∨ i = .run b) → s.fsm.state = .poll →
    t = { afterRead 1 s with
          regs := { s.regs with pollAttempts := BitVec.ofNat 32 (s.fsm.pollCnt + 1) }
          fsm := { s.fsm with pollCnt := s.fsm.pollCnt + 1 } } →
    (nextRead 1 s = .err ∨ nextRead 1 s = .ok [] ∨ ∃ len, nextRead 1 s = .ok [len]) ∧
    (nextRead 1 s = .err → exec i s = .next (ended .ioError (withRxLen 0#9 t))) ∧
    (nextRead 1 s = .ok [] → s.fsm.pollCnt + 1 = s.cfg.pollBudget →
      exec i s = .next (ended .timeout (withRxLen 0#9 t))) ∧
    (nextRead 1 s = .ok [] → s.fsm.pollCnt + 1 ≠ s.cfg.pollBudget → exec i s = .next t) ∧
    (∀ len : Byte, nextRead 1 s = .ok [len] → len ≠ 0#8 →
      exec i s = .next { t with fsm := { t.fsm with declLen := len, got := 0, bodyCnt := 0, state := .body } }) ∧
    (nextRead 1 s = .ok [0#8] →
      ∃ u, exec i s = .next u ∧ storedAt 0x300 [0x00#8] s.mem u.mem ∧ sameOutside t u ∧
        (s.fsm.op = .receive → u.regs = (ended .none (withRxLen 1#9 t)).regs ∧
          u.fsm = { t.fsm with declLen := 0#8, got := 0, bodyCnt := 0, state := .idle }) ∧
        (s.fsm.op = .run → u.regs = (withRxLen 1#9 t).regs ∧
          u.fsm = { t.fsm with declLen := 0#8, got := 0, bodyCnt := 0, state := .dec }))

/-- R104 with R105, body_step and finish_receive, for RECEIVE and RUN alike: one ChanRead of the bytes still missing; what
each answer does. `n` is the number of bytes missing. -/
def Obligations.BodyStepByAnswer : Prop :=
  ∀ (b : Byte) (i : Instr) (s : State) (n : Nat), (i = .receive b ∨ i = .run b) → s.fsm.state = .body →
    s.fsm.declLen.toNat = s.fsm.got + n → 0 < n →
    (nextRead n s = .err → exec i s = .next (ended .ioError (withRxLen 0#9 (afterRead n s)))) ∧
    (nextRead n s = .ok [] → s.fsm.bodyCnt + 1 = s.cfg.bodyPollBudget →
      exec i s = .next
        (ended .ioError (withRxLen 0#9 { afterRead n s with fsm := { s.fsm with bodyCnt := s.fsm.bodyCnt + 1 } }))) ∧
    (nextRead n s = .ok [] → s.fsm.bodyCnt + 1 ≠ s.cfg.bodyPollBudget →
      exec i s = .next { afterRead n s with fsm := { s.fsm with bodyCnt := s.fsm.bodyCnt + 1 } }) ∧
    (∀ bs : List Byte, nextRead n s = .ok bs → bs ≠ [] →
      bs.length ≤ n ∧
      (bs.length < n →
        ∃ u, exec i s = .next u ∧ storedAt (0x301 + s.fsm.got) bs s.mem u.mem ∧ sameOutside (afterRead n s) u ∧
          u.regs = s.regs ∧ u.fsm = { s.fsm with got := s.fsm.got + bs.length }) ∧
      (bs.length = n →
        ∃ u, exec i s = .next u ∧ sameOutside (afterRead n s) u ∧
          memRead u.mem 0x300 = some s.fsm.declLen ∧
          (∀ j, j < bs.length → memRead u.mem (0x301 + s.fsm.got + j) = bs[j]?) ∧
          (∀ a, a ≠ 0x300 → (a < 0x301 + s.fsm.got ∨ 0x301 + s.fsm.got + bs.length ≤ a) →
            memRead u.mem a = memRead s.mem a) ∧
          (s.fsm.op = .receive →
            u.regs = (ended .none (withRxLen (BitVec.ofNat 9 (1 + s.fsm.declLen.toNat)) s)).regs ∧
            u.fsm = { s.fsm with got := s.fsm.declLen.toNat, state := .idle }) ∧
          (s.fsm.op = .run →
            u.regs = (withRxLen (BitVec.ofNat 9 (1 + s.fsm.declLen.toNat)) s).regs ∧
            u.fsm = { s.fsm with got := s.fsm.declLen.toNat, state := .dec })))

/-- R107, exact timeout, which 42_receive.md derives from R102 and R103: if every ChanRead returns `Ok([])`, a receive
(of RECEIVE or RUN) started at poll_entry makes exactly POLL_BUDGET read attempts and ends with Timeout, RX_LEN = 0,
POLL_ATTEMPTS = POLL_BUDGET and no RXBUF byte written. -/
def Obligations.EmptyChannelTimesOutExactly : Prop :=
  ∀ s : State, configOk s.cfg = true → s.fsm.state = .poll → (s.fsm.op = .receive ∨ s.fsm.op = .run) →
    s.fsm.pollCnt = 0 → s.chan.readAns.take s.cfg.pollBudget = List.replicate s.cfg.pollBudget (.ok []) →
    (∀ k, k < s.cfg.pollBudget → ∃ u, settle k s = .next u ∧ u.fsm.state = .poll ∧ u.fsm.pollCnt = k) ∧
    ∃ t, settle s.cfg.pollBudget s = .next t ∧ t.fsm.state = .idle ∧
      t.regs =
        { s.regs with
          status := { s.regs.status with err := .timeout, busy := false, done := true }
          rxLen := 0#9
          pollAttempts := BitVec.ofNat 32 s.cfg.pollBudget } ∧
      t.mem = s.mem ∧
      t.chan.calls = List.replicate s.cfg.pollBudget (.read 1 (.ok [])) ++ s.chan.calls

/-- R108, bounded receive, which 42_receive.md derives from R103 and R104: whatever the channel answers, a receive ends
after at most POLL_BUDGET + BODY_POLL_BUDGET + 255 block steps (RECEIVE is IDLE then, RUN is in DEC or IDLE). That the block
runs on when the agenda is empty (`todo = []`) is log 1 (DESIGN CHOICE). -/
def Obligations.ReceiveEndsWithinBound : Prop :=
  ∀ s : State, Inv s → configOk s.cfg = true → s.todo = [] → s.fsm.state = .poll → s.fsm.pollCnt = 0 →
    ∃ k t, k ≤ s.cfg.pollBudget + s.cfg.bodyPollBudget + 255 ∧ Host.Core.run Sys2Proof.core k s = .next t ∧
      (t.fsm.state = .idle ∨ (s.fsm.op = .run ∧ t.fsm.state = .dec))

/-! ## The decoder and validator (43_decode_validate.md) -/

/-- R110 with R113: decode_buf makes exactly the two checks, and its response takes every field from its place. `size` is stated
up to 261 bytes; beyond that `n - 6` is no byte and `size` is a free value (log 16, DESIGN CHOICE). -/
def Obligations.DecodeBufMakesTwoChecks : Prop :=
  ∀ buf : List Byte,
    (buf.length < 6 → decodeBuf buf = .error .malformed) ∧
    (6 ≤ buf.length → ∀ lo hi : Byte, buf[buf.length - 2]? = some lo → buf[buf.length - 1]? = some hi →
      (crc16 (buf.take (buf.length - 2)) ≠ (lo.setWidth 16 ||| (hi.setWidth 16 <<< 8)) →
        decodeBuf buf = .error .checksumMismatch) ∧
      (crc16 (buf.take (buf.length - 2)) = (lo.setWidth 16 ||| (hi.setWidth 16 <<< 8)) →
        ∃ r, decodeBuf buf = .ok r ∧ (buf.length ≤ 261 → r.size.toNat = buf.length - 6) ∧ buf[1]? = some r.readerAddress ∧
          buf[2]? = some r.responseCode ∧ buf[3]? = some r.status ∧ r.payload.length = buf.length - 6 ∧
          ∀ j, j < buf.length - 6 → r.payload[j]? = buf[4 + j]?))

/-- R111 with R112, decode_stage, for DECODE in EXEC and RUN in DEC alike, and DECODE's start; the frame is the whole
state. -/
def Obligations.DecodeStageValidatesBuffer : Prop :=
  ∀ (b : Byte) (i : Instr) (s : State),
    decodeCmd ((b.setWidth 32 <<< 8) ||| 0x7#32) = .decode b ∧
    (s.fsm.state = .idle →
      exec (.decode b) s = .next (started .decode b .exec
        { s with regs := { s.regs with status := { s.regs.status with respValid := false } } })) ∧
    ((i = .decode b ∧ s.fsm.state = .exec) ∨ (i = .run b ∧ s.fsm.state = .dec) →
      (256 < s.regs.rxLen.toNat → exec i s = .next (ended .invalidParameter s)) ∧
      (s.regs.rxLen.toNat < 6 → exec i s = .next (ended .malformed s)) ∧
      (6 ≤ s.regs.rxLen.toNat → s.regs.rxLen.toNat ≤ 256 → unwrittenIn 0x300 s.regs.rxLen.toNat s.mem →
        stopsUninit 0x300 s.regs.rxLen.toNat s.mem (exec i s)) ∧
      (∀ (buf : List Byte) (ra rc rs lo hi : Byte), 6 ≤ s.regs.rxLen.toNat → s.regs.rxLen.toNat ≤ 256 →
        buf.length = s.regs.rxLen.toNat → holdsAt 0x300 buf s.mem → buf[1]? = some ra → buf[2]? = some rc →
        buf[3]? = some rs → buf[buf.length - 2]? = some lo → buf[buf.length - 1]? = some hi →
        (crc16 (buf.take (buf.length - 2)) ≠ (lo.setWidth 16 ||| (hi.setWidth 16 <<< 8)) →
          exec i s = .next (ended .checksumMismatch (withCrc (crc16 (buf.take (buf.length - 2))) s))) ∧
        (crc16 (buf.take (buf.length - 2)) = (lo.setWidth 16 ||| (hi.setWidth 16 <<< 8)) →
          exec i s = .next (ended .none
            { s with
              regs :=
                { s.regs with
                  crc := crc16 (buf.take (buf.length - 2))
                  respSize := BitVec.ofNat 8 (buf.length - 6), respAddr := ra, respCode := rc, respStatus := rs
                  status := { s.regs.status with respValid := true } } }))))

/-- R114, boundary, which 43_decode_validate.md derives from R110: a 6-byte buffer with a valid checksum decodes to size
0, a 5-byte buffer is Malformed. -/
def Obligations.DecodeBoundaryAtSixBytes : Prop :=
  (∀ h : List Byte, h.length = 4 →
    ∃ r, decodeBuf (h ++ [(crc16 h).extractLsb' 0 8, (crc16 h).extractLsb' 8 8]) = .ok r ∧ r.size = 0#8 ∧
      r.payload = []) ∧
  ∀ buf : List Byte, buf.length = 5 → decodeBuf buf = .error .malformed

/-- R115, round trip, which 43_decode_validate.md derives from R97 and R110: decoding a response-shaped frame recovers
its fields; a request frame of 1..251 payload bytes decodes as the response it is shaped like; with no payload it is
Malformed. -/
def Obligations.ResponseFrameRoundTrip : Prop :=
  (∀ (a o t : Byte) (p : List Byte), p.length ≤ 250 →
    decodeBuf (responseFrame a o t p) =
      .ok { size := BitVec.ofNat 8 p.length, readerAddress := a, responseCode := o, status := t, payload := p }) ∧
  (∀ (a o q : Byte) (p : List Byte), p.length + 1 ≤ 251 →
    ∃ f, encodeFrame a o (q :: p) = .ok f ∧
      decodeBuf f =
        .ok { size := BitVec.ofNat 8 p.length, readerAddress := a, responseCode := o, status := q, payload := p }) ∧
  ∀ a o : Byte, ∃ f, encodeFrame a o [] = .ok f ∧ decodeBuf f = .error .malformed

/-- R116, tamper sensitivity, which 43_decode_validate.md derives from R110 and R96: flipping any one bit of an accepted
buffer, the count byte and the checksum bytes included, gives ChecksumMismatch. -/
def Obligations.SingleBitTamperIsDetected : Prop :=
  ∀ (g : List Byte) (r : Response) (i k : Nat), decodeBuf g = .ok r → i < g.length → k < 8 →
    decodeBuf (flipBit g i k) = .error .checksumMismatch

/-! ## The exchange (44_exchange.md) -/

/-- R117, RUN's start and its EXEC and TX steps (its POLL, BODY and DEC steps are PollStepByAnswer, BodyStepByAnswer and
DecodeStageValidatesBuffer): after a good encode it goes on to TX with BUSY still set, after a good write to POLL. -/
def Obligations.RunChainsEncodeAndWrite : Prop :=
  ∀ (b : Byte) (s : State),
    decodeCmd ((b.setWidth 32 <<< 8) ||| 0x8#32) = .run b ∧
    (s.fsm.state = .idle →
      exec (.run b) s = .next (started .run b .exec
        { s with regs := { s.regs with pollAttempts := 0#32, status := { s.regs.status with respValid := false } } })) ∧
    (∀ p : List Byte, s.fsm.state = .exec → s.regs.cmdSize.toNat ≤ 251 → p.length = s.regs.cmdSize.toNat →
      holdsAt 0x100 p s.mem →
      ∃ t, exec (.run b) s = .next t ∧
        t.regs =
          { s.regs with
            txLen := BitVec.ofNat 9 (p.length + 5)
            crc := crc16 (BitVec.ofNat 8 (p.length + 4) :: s.regs.cmdAddr :: s.regs.cmdOpcode :: p) } ∧
        t.fsm = { s.fsm with state := .tx } ∧
        storedAt 0x200 (requestFrame s.regs.cmdAddr s.regs.cmdOpcode p) s.mem t.mem ∧ sameOutside s t) ∧
    (s.fsm.state = .exec → 251 < s.regs.cmdSize.toNat →
      exec (.run b) s = .next (ended .invalidParameter { s with regs := { s.regs with txLen := 0#9 } })) ∧
    (s.fsm.state = .tx → s.regs.txLen = 0#9 → exec (.run b) s = .next (ended .invalidParameter s)) ∧
    (∀ f : List Byte, s.fsm.state = .tx → s.regs.txLen ≠ 0#9 → f.length = s.regs.txLen.toNat → holdsAt 0x200 f s.mem →
      (nextWrite s = .ok f.length →
        exec (.run b) s = .next
          { afterWrite f s with
            regs := { s.regs with pollAttempts := 0#32 }
            fsm := { s.fsm with state := .poll, pollCnt := 0, bodyCnt := 0, got := 0 } }) ∧
      (nextWrite s ≠ .ok f.length → exec (.run b) s = .next (ended .ioError (afterWrite f s))))

/-- R121, which 44_exchange.md derives from R117, R100, R101, R106 and R112: with no host access in between and the same
channel answers, RUN ends in the same registers and buffers as ENCODE, TRANSMIT, RECEIVE, DECODE run until one of them
fails; if ENCODE or TRANSMIT fails, RUN alone has RESP_VALID = 0 and POLL_ATTEMPTS = 0. -/
def Obligations.RunEqualsItsStages : Prop :=
  ∀ (b : Byte) (s : State), configOk s.cfg = true → s.fsm.state = .idle →
    let failedEarly := fun u : State => ∃ t, runOp (.run b) s = .next t ∧ t.fsm.state = .idle ∧
      sameEnd { u with regs := { u.regs with pollAttempts := 0#32,
                                             status := { u.regs.status with respValid := false } } } t
    let endsLike := fun u : State => ∃ t, runOp (.run b) s = .next t ∧ t.fsm.state = .idle ∧ sameEnd u t
    (∀ f, runOp (.encode b) s = .fault f → runOp (.run b) s = .fault f) ∧
    (∀ s1, runOp (.encode b) s = .next s1 →
      (s1.regs.status.err ≠ .none → failedEarly s1) ∧
      (s1.regs.status.err = .none →
        ∃ s2, runOp (.transmit b) s1 = .next s2 ∧
          (s2.regs.status.err ≠ .none → failedEarly s2) ∧
          (s2.regs.status.err = .none →
            ∃ s3, runOp (.receive b) s2 = .next s3 ∧
              (s3.regs.status.err ≠ .none → endsLike s3) ∧
              (s3.regs.status.err = .none → ∃ s4, runOp (.decode b) s3 = .next s4 ∧ endsLike s4))))

/-- R120, for a RUN with no host access between its steps (one interleaved with host accesses rests on
DecodeStageValidatesBuffer and RespValidLifetime): RUN, once completed, has RESP_VALID = 1 exactly when ERR = 0, and then the response is RESP_SIZE, RESP_ADDR,
RESP_CODE, RESP_STATUS and `RXBUF[4 .. 4 + RESP_SIZE]`: what decode_buf makes of the buffer received. -/
def Obligations.RunOutcomeMapping : Prop :=
  ∀ (b : Byte) (s t : State), configOk s.cfg = true → s.fsm.state = .idle → runOp (.run b) s = .next t →
    t.fsm.state = .idle ∧ t.regs.status.busy = false ∧ t.regs.status.done = true ∧
      (t.regs.status.err = .none ↔ t.regs.status.respValid = true) ∧
      (t.regs.status.err = .none →
        ∃ buf r, buf.length = t.regs.rxLen.toNat ∧ holdsAt 0x300 buf t.mem ∧ decodeBuf buf = .ok r ∧
          r.payload.length = t.regs.respSize.toNat ∧ holdsAt 0x304 r.payload t.mem ∧
          r.size = t.regs.respSize ∧ r.readerAddress = t.regs.respAddr ∧ r.responseCode = t.regs.respCode ∧
          r.status = t.regs.respStatus)

/-- R118, R119, for a RUN with no host access between its steps (ChannelTouchedOnlyByItsStates is about every step): RUN never
repeats a stage. Whatever the channel answers, a completed RUN has called it as follows, oldest call first: no call at all when CMD_SIZE > 251; else one ChanWrite of the request frame; and then, only if that
was answered with the whole count, ChanReads alone. -/
def Obligations.RunWritesOnceThenOnlyReads : Prop :=
  ∀ (b : Byte) (s t : State), configOk s.cfg = true → s.fsm.state = .idle → runOp (.run b) s = .next t →
    (251 < s.regs.cmdSize.toNat → t.chan = s.chan) ∧
    (s.regs.cmdSize.toNat ≤ 251 →
      ∃ (p f : List Byte) (reads : List ChanCall),
        p.length = s.regs.cmdSize.toNat ∧ holdsAt 0x100 p s.mem ∧
        f = requestFrame s.regs.cmdAddr s.regs.cmdOpcode p ∧
        t.chan.calls = reads ++ .write f (nextWrite s) :: s.chan.calls ∧
        (∀ c ∈ reads, ∃ n a, c = .read n a) ∧ (nextWrite s = .ok f.length ↔ reads ≠ []))

/-! ## INVALID and the wire opcodes -/

/-- R125, INVALID: its start, its one EXEC step with ERR = INVALID_OPERATION and nothing else written, and the words of
its corner cases and example. -/
def Obligations.InvalidReportsInvalidOperation : Prop :=
  (∀ (w : Word) (s : State),
    (s.fsm.state = .idle → exec (.invalid w) s = .next (started .invalid (w.extractLsb' 8 8) .exec s)) ∧
    (s.fsm.state = .exec → exec (.invalid w) s = .next (ended .invalidOperation s))) ∧
  decodeCmd 0x00000000#32 = .invalid 0x00000000#32 ∧ decodeCmd 0x00010001#32 = .invalid 0x00010001#32 ∧
  decodeCmd 0x0000000F#32 = .invalid 0x0000000F#32 ∧ errCode .invalidOperation = 6#4

/-- The wire opcodes of R82 as the model presents them to the block (log 9): a host write of CMD_OPCODE, stored while idle
and rejected with REJ while busy (R33, R60, R61); nothing else changes. Any other byte is stored just the same (R83). -/
def Obligations.WireOpcodesSetCommandOpcode : Prop :=
  ∀ s : State,
    (s.regs.status.busy = false →
      exec .wireTagInventory s = .next { s with regs := { s.regs with cmdOpcode := 0x01#8 } } ∧
      exec .wireSetRfPower s = .next { s with regs := { s.regs with cmdOpcode := 0x2F#8 } } ∧
      exec .wireSetInventoryTime s = .next { s with regs := { s.regs with cmdOpcode := 0x25#8 } } ∧
      exec .wireSetBuzzerEnabled s = .next { s with regs := { s.regs with cmdOpcode := 0x40#8 } } ∧
      ∀ v : Word, hostWrite 0x010 4 v s = .next { s with regs := { s.regs with cmdOpcode := v.extractLsb' 0 8 } }) ∧
    (s.regs.status.busy = true →
      ∀ i ∈ [Instr.wireTagInventory, .wireSetRfPower, .wireSetInventoryTime, .wireSetBuzzerEnabled],
        exec i s = .next { s with regs := { s.regs with status := { s.regs.status with rej := true } } })

/-! ## The host's accesses (10_state.md, 20_memory.md) -/

/-- R24: every accepted CMD write starts the operation of its word, latches BYTE, sets STATUS as R24 says and takes the
entry action (that of `exec` from IDLE, which each operation's statement writes out); no buffer, no operand and no channel
changes. A CMD write while BUSY = 1 is rejected, a read of CMD returns 0. -/
def Obligations.AcceptedWriteStartsOperation : Prop :=
  (∀ (w : Word) (s : State), s.regs.status.busy = true →
    hostWrite 0x000 4 w s = .next { s with regs := { s.regs with status := { s.regs.status with rej := true } } }) ∧
  (∀ s : State, hostRead 0x000 4 s = .next { s with seen := 0#32 :: s.seen }) ∧
  ∀ (w : Word) (s : State), s.regs.status.busy = false → s.fsm.state = .idle →
    ∃ t, hostWrite 0x000 4 w s = .next t ∧ exec (decodeCmd w) s = .next t ∧
      t.regs.status.busy = true ∧ t.regs.status.done = false ∧ t.regs.status.err = .none ∧ t.regs.status.rej = false ∧
      t.fsm.state ≠ .idle ∧ t.fsm.byte = w.extractLsb' 8 8 ∧
      (decodeCmd w = instrOf t.fsm.op t.fsm.byte ∨ (decodeCmd w = .invalid w ∧ t.fsm.op = .invalid)) ∧
      (t.regs.status.respValid = (s.regs.status.respValid && decide (t.fsm.op ∉ [Op.receive, .decode, .run]))) ∧
      t.mem = s.mem ∧ sameOutside s t ∧ t.regs.crc = s.regs.crc ∧ t.regs.cmdAddr = s.regs.cmdAddr ∧
      t.regs.cmdOpcode = s.regs.cmdOpcode ∧ t.regs.cmdSize = s.regs.cmdSize ∧ t.regs.txLen = s.regs.txLen ∧
      t.regs.rxLen = s.regs.rxLen ∧ t.regs.respSize = s.regs.respSize ∧ t.regs.respAddr = s.regs.respAddr ∧
      t.regs.respCode = s.regs.respCode ∧ t.regs.respStatus = s.regs.respStatus ∧
      t.regs.pollAttempts = (if t.fsm.op ∈ [Op.receive, .run] then 0#32 else s.regs.pollAttempts)

/-- R61: a host write while BUSY = 1 to CMD, a RW register, PBUF or RXBUF changes nothing but REJ; a write to a read-only
register or to TXBUF changes nothing at all. -/
def Obligations.BusyWritesAreRejected : Prop :=
  ∀ (v : Word) (s : State), s.regs.status.busy = true →
    (∀ off ∈ [0x000, 0x00C, 0x010, 0x014, 0x01C],
      hostWrite off 4 v s = .next { s with regs := { s.regs with status := { s.regs.status with rej := true } } }) ∧
    (∀ off, (0x100 ≤ off ∧ off ≤ 0x1FE) ∨ (0x300 ≤ off ∧ off ≤ 0x3FF) →
      hostWrite off 1 v s = .next { s with regs := { s.regs with status := { s.regs.status with rej := true } } }) ∧
    (∀ off ∈ [0x004, 0x008, 0x018, 0x020, 0x024, 0x028, 0x02C, 0x030], hostWrite off 4 v s = .next s) ∧
    ∀ off, 0x200 ≤ off ∧ off ≤ 0x2FF → hostWrite off 1 v s = .next s

/-- R60, the host's writes while BUSY = 0: CMD runs the operation of its word, RW registers store the used bits, read-only
registers and TXBUF ignore the write, PBUF and RXBUF store the byte and mark it; nothing else changes. A host read of CMD
returns 0, of any other register its value (IdleReadsReturnValues writes the values out). -/
def Obligations.IdleWritesStore : Prop :=
  ∀ (v : Word) (s : State), s.regs.status.busy = false →
    hostWrite 0x00C 4 v s = .next { s with regs := { s.regs with cmdAddr := v.extractLsb' 0 8 } } ∧
    hostWrite 0x010 4 v s = .next { s with regs := { s.regs with cmdOpcode := v.extractLsb' 0 8 } } ∧
    hostWrite 0x014 4 v s = .next { s with regs := { s.regs with cmdSize := v.extractLsb' 0 8 } } ∧
    hostWrite 0x01C 4 v s = .next { s with regs := { s.regs with rxLen := v.extractLsb' 0 9 } } ∧
    hostWrite 0x000 4 v s = exec (decodeCmd v) s ∧
    (∀ off r, regAt off = some r → hostRead off 4 s = .next { s with seen := regValue r s.regs :: s.seen }) ∧
    regValue .cmd s.regs = 0#32 ∧
    (∀ off ∈ [0x004, 0x008, 0x018, 0x020, 0x024, 0x028, 0x02C, 0x030], hostWrite off 4 v s = .next s) ∧
    (∀ off, 0x200 ≤ off ∧ off ≤ 0x2FF → hostWrite off 1 v s = .next s) ∧
    ∀ off, (0x100 ≤ off ∧ off ≤ 0x1FE) ∨ (0x300 ≤ off ∧ off ≤ 0x3FF) →
      ∃ t, hostWrite off 1 v s = .next t ∧ storedAt off [v.extractLsb' 0 8] s.mem t.mem ∧ t.regs = s.regs ∧
        t.fsm = s.fsm ∧ sameOutside s t

/-- R57 with R55, R56: which host accesses are bus errors, reads and writes alike, and that no other access is one. -/
def Obligations.BusErrorsExactly : Prop :=
  ∀ (off n : Nat) (v : Word) (s : State),
    let legal := (n = 4 ∧ off % 4 = 0 ∧ off ≤ 0x030) ∨
      (n = 1 ∧ ((0x100 ≤ off ∧ off ≤ 0x1FE) ∨ (0x200 ≤ off ∧ off ≤ 0x3FF)))
    (¬ legal → hostRead off n s = .fault (.busError off n) ∧ hostWrite off n v s = .fault (.busError off n)) ∧
    (legal → ∀ off' n', hostRead off n s ≠ .fault (.busError off' n') ∧ hostWrite off n v s ≠ .fault (.busError off' n'))

/-- R62, reads have no side effect: whatever the host reads, the block's registers, buffers and hidden state, the
configuration and the channel are unchanged; the host has seen one more value. -/
def Obligations.HostReadsHaveNoSideEffect : Prop :=
  ∀ (off n : Nat) (rest : List Event) (s t : State), s.todo = .read off n :: rest → step s = .next t →
    t.regs = s.regs ∧ t.fsm = s.fsm ∧ t.mem = s.mem ∧ t.cfg = s.cfg ∧ t.chan = s.chan ∧ t.todo = rest ∧
      ∃ v, t.seen = v :: s.seen

/-- R55, R56 with R23, R24: what the host reads while BUSY = 0, register by register with reserved bits 0, and from a
written buffer byte. -/
def Obligations.IdleReadsReturnValues : Prop :=
  ∀ s : State, s.regs.status.busy = false →
    let see := fun v : Word => (Host.Outcome.next { s with seen := v :: s.seen } : Result)
    hostRead 0x000 4 s = see 0#32 ∧
    hostRead 0x004 4 s = see (statusWord s.regs.status) ∧
    hostRead 0x008 4 s = see (0#16 ++ s.regs.crc) ∧
    hostRead 0x00C 4 s = see (0#24 ++ s.regs.cmdAddr) ∧
    hostRead 0x010 4 s = see (0#24 ++ s.regs.cmdOpcode) ∧
    hostRead 0x014 4 s = see (0#24 ++ s.regs.cmdSize) ∧
    hostRead 0x018 4 s = see (0#23 ++ s.regs.txLen) ∧
    hostRead 0x01C 4 s = see (0#23 ++ s.regs.rxLen) ∧
    hostRead 0x020 4 s = see (0#24 ++ s.regs.respSize) ∧
    hostRead 0x024 4 s = see (0#24 ++ s.regs.respAddr) ∧
    hostRead 0x028 4 s = see (0#24 ++ s.regs.respCode) ∧
    hostRead 0x02C 4 s = see (0#24 ++ s.regs.respStatus) ∧
    hostRead 0x030 4 s = see s.regs.pollAttempts ∧
    ∀ (off : Nat) (x : Byte), (0x100 ≤ off ∧ off ≤ 0x1FE) ∨ (0x200 ≤ off ∧ off ≤ 0x3FF) →
      memRead s.mem off = some x → hostRead off 1 s = see (0#24 ++ x)

/-- R25 with R123: the bits of STATUS, and the codes of ERR. -/
def Obligations.StatusWordFields : Prop :=
  (∀ t : Status,
    (statusWord t).getLsbD 0 = t.busy ∧ (statusWord t).getLsbD 1 = t.done ∧ (statusWord t).getLsbD 2 = t.rej ∧
    (statusWord t).getLsbD 3 = t.respValid ∧ (statusWord t).extractLsb' 4 4 = errCode t.err ∧
    (statusWord t).extractLsb' 8 24 = 0#24) ∧
  errCode .none = 0#4 ∧ errCode .ioError = 1#4 ∧ errCode .timeout = 2#4 ∧ errCode .malformed = 3#4 ∧
  errCode .checksumMismatch = 4#4 ∧ errCode .invalidParameter = 5#4 ∧ errCode .invalidOperation = 6#4

/-- R48, host reads while BUSY = 1: STATUS and what the operation does not write read their current values; what it writes
reads a free value, limited to the register's used bits, for every free value. Which bytes the operation writes is log 7
(DESIGN CHOICE): of TXBUF the frame, none if CMD_SIZE is over 251; of RXBUF the declared length once it is known, any byte
before. -/
def Obligations.BusyReadsDrawOrStayExact : Prop :=
  ∀ s : State, s.regs.status.busy = true →
    let see := fun v : Word => (Host.Outcome.next { s with seen := v :: s.seen } : Result)
    let draw := fun mask : Word =>
      (Host.Outcome.next { s with seen := (Config.freeWord s.draws &&& mask) :: s.seen, draws := s.draws + 1 } : Result)
    hostRead 0x004 4 s = see (statusWord s.regs.status) ∧ hostRead 0x000 4 s = see 0#32 ∧
    hostRead 0x00C 4 s = see (0#24 ++ s.regs.cmdAddr) ∧ hostRead 0x010 4 s = see (0#24 ++ s.regs.cmdOpcode) ∧
    hostRead 0x014 4 s = see (0#24 ++ s.regs.cmdSize) ∧
    hostRead 0x008 4 s = (if s.fsm.op ∈ [Op.crcInit, .crcByte, .crcSpan, .encode, .decode, .run]
      then draw 0xFFFF#32 else see (0#16 ++ s.regs.crc)) ∧
    hostRead 0x018 4 s = (if s.fsm.op ∈ [Op.encode, .run] then draw 0x1FF#32 else see (0#23 ++ s.regs.txLen)) ∧
    hostRead 0x01C 4 s = (if s.fsm.op ∈ [Op.receive, .run] then draw 0x1FF#32 else see (0#23 ++ s.regs.rxLen)) ∧
    hostRead 0x020 4 s = (if s.fsm.op ∈ [Op.decode, .run] then draw 0xFF#32 else see (0#24 ++ s.regs.respSize)) ∧
    hostRead 0x024 4 s = (if s.fsm.op ∈ [Op.decode, .run] then draw 0xFF#32 else see (0#24 ++ s.regs.respAddr)) ∧
    hostRead 0x028 4 s = (if s.fsm.op ∈ [Op.decode, .run] then draw 0xFF#32 else see (0#24 ++ s.regs.respCode)) ∧
    hostRead 0x02C 4 s = (if s.fsm.op ∈ [Op.decode, .run] then draw 0xFF#32 else see (0#24 ++ s.regs.respStatus)) ∧
    hostRead 0x030 4 s = (if s.fsm.op ∈ [Op.receive, .run] then draw 0xFFFFFFFF#32 else see s.regs.pollAttempts) ∧
    (∀ (off : Nat) (x : Byte), memRead s.mem off = some x →
      (0x100 ≤ off ∧ off ≤ 0x1FE → hostRead off 1 s = see (0#24 ++ x)) ∧
      (0x200 ≤ off ∧ off ≤ 0x2FF → s.fsm.op ∉ [Op.encode, .run] → hostRead off 1 s = see (0#24 ++ x)) ∧
      (0x300 ≤ off ∧ off ≤ 0x3FF → s.fsm.op ∉ [Op.receive, .run] → hostRead off 1 s = see (0#24 ++ x)) ∧
      (0x200 ≤ off → off < 0x200 + s.regs.cmdSize.toNat + 5 → s.regs.cmdSize.toNat ≤ 251 →
        s.fsm.op ∈ [Op.encode, .run] → hostRead off 1 s = draw 0xFF#32) ∧
      (0x200 + s.regs.cmdSize.toNat + 5 ≤ off → off ≤ 0x2FF → hostRead off 1 s = see (0#24 ++ x)) ∧
      (0x200 ≤ off → off ≤ 0x2FF → 251 < s.regs.cmdSize.toNat → s.fsm.op ∈ [Op.encode, .run] →
        hostRead off 1 s = see (0#24 ++ x)) ∧
      (0x300 ≤ off → off ≤ 0x3FF → s.fsm.state ∉ [FsmState.body, .dec] → s.fsm.op ∈ [Op.receive, .run] →
        hostRead off 1 s = draw 0xFF#32) ∧
      (0x300 + s.fsm.declLen.toNat < off → off ≤ 0x3FF → (s.fsm.state = .body ∨ s.fsm.state = .dec) →
        hostRead off 1 s = see (0#24 ++ x)) ∧
      (0x300 ≤ off → off ≤ 0x300 + s.fsm.declLen.toNat → (s.fsm.state = .body ∨ s.fsm.state = .dec) →
        s.fsm.op ∈ [Op.receive, .run] → hostRead off 1 s = draw 0xFF#32))

/-- R51, UNINIT_READ: a host read of an unwritten byte, and every operation that consumes one, stops the model there. Where the
block is busy and the running operation writes the unwritten byte the host reads, R48 would draw a value; that the model stops
there too is its choice (log 7, DESIGN CHOICE). -/
def Obligations.UnwrittenBytesStopTheModel : Prop :=
  ∀ (b : Byte) (s : State),
    (∀ off, (0x100 ≤ off ∧ off ≤ 0x1FE) ∨ (0x200 ≤ off ∧ off ≤ 0x3FF) → memRead s.mem off = none →
      hostRead off 1 s = .fault (.uninitRead off)) ∧
    (s.fsm.state = .exec → unwrittenIn 0x100 s.regs.cmdSize.toNat s.mem →
      stopsUninit 0x100 s.regs.cmdSize.toNat s.mem (exec (.crcSpan b) s) ∧
      (s.regs.cmdSize.toNat ≤ 251 → ∀ i ∈ [Instr.encode b, .run b],
        stopsUninit 0x100 s.regs.cmdSize.toNat s.mem (exec i s))) ∧
    (s.fsm.state = .tx → unwrittenIn 0x200 s.regs.txLen.toNat s.mem → ∀ i ∈ [Instr.transmit b, .run b],
      stopsUninit 0x200 s.regs.txLen.toNat s.mem (exec i s)) ∧
    (∀ i, (i = .decode b ∧ s.fsm.state = .exec) ∨ (i = .run b ∧ s.fsm.state = .dec) → 6 ≤ s.regs.rxLen.toNat →
      s.regs.rxLen.toNat ≤ 256 → unwrittenIn 0x300 s.regs.rxLen.toNat s.mem →
      stopsUninit 0x300 s.regs.rxLen.toNat s.mem (exec i s))

/-- R17: a configuration with a budget outside 1 .. 2^32-1 is refused before any step, and only such a one. -/
def Obligations.BadConfigurationIsRefused : Prop :=
  ∀ s : State,
    step s = .fault .badParameterConfig ↔
      ¬ (1 ≤ s.cfg.pollBudget ∧ s.cfg.pollBudget ≤ 4294967295 ∧
        1 ≤ s.cfg.bodyPollBudget ∧ s.cfg.bodyPollBudget ≤ 4294967295)

/-- R141 with R52: from any state, a reset turn is one transition that gives the block's state the values of R52 and
changes nothing else; `State.reset` has the same block state. Of the hidden fields only `fsm.state` is stated.
That no byte is marked written after a reset during an operation is R52's reading; U9 of 93_implementation_defined.md reads
otherwise (log 8, DEDUCED). -/
def Obligations.ResetSetsSpecifiedValues : Prop :=
  let values : Regs :=
    { status := { busy := false, done := false, rej := false, respValid := false, err := .none }
      crc := 0xFFFF#16, cmdAddr := 0#8, cmdOpcode := 0#8, cmdSize := 0#8, txLen := 0#9, rxLen := 0#9
      respSize := 0#8, respAddr := 0#8, respCode := 0#8, respStatus := 0#8, pollAttempts := 0#32 }
  (∀ (s : State) (rest : List Event), configOk s.cfg = true → s.todo = .reset :: rest →
    ∃ t, step s = .next t ∧ t.regs = values ∧ t.fsm.state = .idle ∧ (∀ a, memRead t.mem a = none) ∧
      t.cfg = s.cfg ∧ t.chan = s.chan ∧ t.todo = rest ∧ t.seen = s.seen ∧ t.draws = s.draws) ∧
  State.reset.regs = values ∧ State.reset.fsm.state = .idle ∧ ∀ a, memRead State.reset.mem a = none

/-! ## Whole-machine rules -/

/-- The invariant holds right after reset. -/
def Obligations.ResetSatisfiesInv : Prop := Inv State.reset

/-- Every step keeps the invariant: the buffers' canonical form and bounds, BUSY and DONE (R26, R46), the operation of
each state (R46), RESP_VALID while busy (R29), the request frame in TXBUF (R35, R74), and the ranges of the hidden
counters (R45, R103, R104). -/
def Obligations.EveryStepKeepsInv : Prop := ∀ s t : State, Inv s → step s = .next t → Inv t

/-- R26, R27, with R30: what sets and clears BUSY and DONE and writes ERR, that the accepted CMD write and the completion
do so, and that DONE = 1 and BUSY = 1 never hold at once. A reset (R141) is the other event. -/
def Obligations.BusySetOnlyByAcceptedWrite : Prop :=
  ∀ s t : State, Inv s → step s = .next t →
    (s.regs.status.busy = false → t.regs.status.busy = true → ∃ w, cmdWriteTurn w s) ∧
    (s.regs.status.busy = true → t.regs.status.busy = false →
      resetTurn s ∨ (blockTurn s ∧ t.regs.status.done = true ∧ t.fsm.state = .idle)) ∧
    ¬ (t.regs.status.busy = true ∧ t.regs.status.done = true) ∧
    (s.regs.status.done = true → t.regs.status.done = false → resetTurn s ∨ ∃ w, cmdWriteTurn w s) ∧
    (s.regs.status.done = false → t.regs.status.done = true →
      blockTurn s ∧ s.regs.status.busy = true ∧ t.regs.status.busy = false) ∧
    (t.regs.status.err ≠ s.regs.status.err →
      (t.regs.status.err = .none ∧ (resetTurn s ∨ ∃ w, cmdWriteTurn w s)) ∨
      (blockTurn s ∧ s.regs.status.done = false ∧ t.regs.status.done = true)) ∧
    (∀ w, cmdWriteTurn w s → s.regs.status.busy = false →
      t.regs.status.busy = true ∧ t.regs.status.done = false ∧ t.regs.status.err = .none) ∧
    (blockTurn s → s.regs.status.busy = true → t.fsm.state = .idle →
      t.regs.status.busy = false ∧ t.regs.status.done = true)

/-- R28: REJ is set by a host write that is rejected because BUSY = 1, which changes nothing else, and by nothing else; it
is cleared by an accepted CMD write and by a reset, and by nothing else. -/
def Obligations.RejRecordsRejectedWritesOnly : Prop :=
  ∀ s t : State, Inv s → step s = .next t →
    (∀ off n v, s.todo.head? = some (.write off n v) → s.regs.status.busy = true →
      ((n = 4 ∧ off ∈ [0x000, 0x00C, 0x010, 0x014, 0x01C]) ∨
        (n = 1 ∧ ((0x100 ≤ off ∧ off ≤ 0x1FE) ∨ (0x300 ≤ off ∧ off ≤ 0x3FF)))) → t.regs.status.rej = true) ∧
    ((resetTurn s ∨ ∃ w, cmdWriteTurn w s ∧ s.regs.status.busy = false) → t.regs.status.rej = false) ∧
    (s.regs.status.rej = false → t.regs.status.rej = true →
      s.regs.status.busy = true ∧ (∃ off n v, s.todo.head? = some (.write off n v)) ∧
        t = { nextTurn s with regs := { s.regs with status := { s.regs.status with rej := true } } }) ∧
    (s.regs.status.rej = true → t.regs.status.rej = false →
      resetTurn s ∨ ∃ w, cmdWriteTurn w s ∧ s.regs.status.busy = false ∧ t.regs.status.busy = true)

/-- R29: RESP_VALID is cleared by the accepted CMD write of RECEIVE, DECODE or RUN and by reset, set by the successful
completion of DECODE or RUN, and changed by no other event; where it is 0 after a step, the step left RESP_* as they were,
a reset apart. -/
def Obligations.RespValidLifetime : Prop :=
  ∀ s t : State, Inv s → step s = .next t →
    (t.regs.status.respValid ≠ s.regs.status.respValid →
      (t.regs.status.respValid = false ∧
        (resetTurn s ∨ ∃ w b, cmdWriteTurn w s ∧ decodeCmd w ∈ [Instr.receive b, .decode b, .run b])) ∨
      (t.regs.status.respValid = true ∧ t.regs.status.done = true ∧ t.regs.status.err = .none ∧
        (stepOf .decode .exec s ∨ stepOf .run .dec s))) ∧
    (resetTurn s → t.regs.status.respValid = false) ∧
    (∀ w b, cmdWriteTurn w s → s.regs.status.busy = false → decodeCmd w ∈ [Instr.receive b, .decode b, .run b] →
      t.regs.status.respValid = false) ∧
    (stepOf .decode .exec s ∨ stepOf .run .dec s → t.regs.status.err = .none → t.regs.status.respValid = true) ∧
    (¬ resetTurn s → t.regs.status.respValid = false →
      t.regs.respSize = s.regs.respSize ∧ t.regs.respAddr = s.regs.respAddr ∧ t.regs.respCode = s.regs.respCode ∧
        t.regs.respStatus = s.regs.respStatus)

/-- R31 with R37–R41, who writes the result registers: CRC, the RESP_* registers, TX_LEN and POLL_ATTEMPTS change only in
the steps of the operations that R23's table names, and by reset. -/
def Obligations.ResultRegistersHaveOnlyTheirWriters : Prop :=
  ∀ s t : State, Inv s → step s = .next t → ¬ resetTurn s →
    (t.regs.crc ≠ s.regs.crc →
      (∃ op ∈ [Op.crcInit, .crcByte, .crcSpan, .encode, .decode, .run], stepOf op .exec s) ∨ stepOf .run .dec s) ∧
    (t.regs.respSize ≠ s.regs.respSize ∨ t.regs.respAddr ≠ s.regs.respAddr ∨ t.regs.respCode ≠ s.regs.respCode ∨
        t.regs.respStatus ≠ s.regs.respStatus →
      (stepOf .decode .exec s ∨ stepOf .run .dec s) ∧ t.regs.status.respValid = true ∧ t.regs.status.err = .none) ∧
    (t.regs.txLen ≠ s.regs.txLen → stepOf .encode .exec s ∨ stepOf .run .exec s) ∧
    (t.regs.pollAttempts ≠ s.regs.pollAttempts →
      (∃ w b, cmdWriteTurn w s ∧ (decodeCmd w = .receive b ∨ decodeCmd w = .run b)) ∨
        stepOf .receive .poll s ∨ stepOf .run .poll s ∨ stepOf .run .tx s)

/-- R61, R67: the operands of a running operation cannot change under it: while BUSY = 1 only a reset changes CMD_ADDR,
CMD_OPCODE, CMD_SIZE or a PBUF byte, and only RECEIVE and RUN change RX_LEN or an RXBUF byte. -/
def Obligations.OperandsFrozenWhileBusy : Prop :=
  ∀ s t : State, Inv s → step s = .next t → s.regs.status.busy = true → ¬ resetTurn s →
    t.regs.cmdAddr = s.regs.cmdAddr ∧ t.regs.cmdOpcode = s.regs.cmdOpcode ∧ t.regs.cmdSize = s.regs.cmdSize ∧
    (∀ a, 0x100 ≤ a → a ≤ 0x1FE → memRead t.mem a = memRead s.mem a) ∧
    (s.fsm.op ∉ [Op.receive, .run] →
      t.regs.rxLen = s.regs.rxLen ∧ ∀ a, 0x300 ≤ a → a ≤ 0x3FF → memRead t.mem a = memRead s.mem a)

/-- R47, the channel: a step makes at most one channel call, only a block step in TX makes a ChanWrite, and only a block
step in POLL or BODY makes a ChanRead; every other step leaves the channel alone. -/
def Obligations.ChannelTouchedOnlyByItsStates : Prop :=
  ∀ s t : State, Inv s → step s = .next t →
    t.chan = s.chan ∨
    (blockTurn s ∧ s.fsm.state = .tx ∧ ∃ bs a, t.chan.calls = .write bs a :: s.chan.calls) ∨
    (blockTurn s ∧ (s.fsm.state = .poll ∨ s.fsm.state = .body) ∧
      ∃ n a, 1 ≤ n ∧ n ≤ 255 ∧ t.chan.calls = .read n a :: s.chan.calls)

/-- From any good state, whatever the block writes to the channel is one whole request frame (R74–R76) of at most 251
payload bytes. -/
def Obligations.EveryChannelWriteIsAFrame : Prop :=
  ∀ (s t : State) (bs : List Byte) (a : WriteAnswer), Inv s → step s = .next t →
    t.chan.calls = .write bs a :: s.chan.calls →
    ∃ (x o : Byte) (p : List Byte), p.length ≤ 251 ∧ bs = requestFrame x o p

/-- R124, which condition raises which error: a block step that completes an operation reports an error exactly under the
condition of its row. -/
def Obligations.ErrorsHaveTheirConditions : Prop :=
  ∀ s t : State, Inv s → blockTurn s → s.regs.status.busy = true → step s = .next t →
    let reports := fun e : ErrKind => t.regs.status.done = true ∧ t.regs.status.err = e
    let decoding := stepOf .decode .exec s ∨ stepOf .run .dec s
    let missing := s.fsm.declLen.toNat - s.fsm.got
    (reports .invalidParameter ↔
      ((stepOf .encode .exec s ∨ stepOf .run .exec s) ∧ 251 < s.regs.cmdSize.toNat) ∨
      (stepOf .transmit .tx s ∧ s.regs.txLen = 0#9) ∨ (stepOf .decode .exec s ∧ 256 < s.regs.rxLen.toNat)) ∧
    (reports .ioError ↔
      (s.fsm.state = .tx ∧ s.regs.txLen ≠ 0#9 ∧ nextWrite s ≠ .ok s.regs.txLen.toNat) ∨
      (s.fsm.state = .poll ∧ nextRead 1 s = .err) ∨
      (s.fsm.state = .body ∧ (nextRead missing s = .err ∨
        (nextRead missing s = .ok [] ∧ s.fsm.bodyCnt + 1 = s.cfg.bodyPollBudget)))) ∧
    (reports .timeout ↔
      s.fsm.state = .poll ∧ nextRead 1 s = .ok [] ∧ s.fsm.pollCnt + 1 = s.cfg.pollBudget) ∧
    (reports .malformed ↔ decoding ∧ s.regs.rxLen.toNat < 6) ∧
    (reports .checksumMismatch ↔
      decoding ∧ 6 ≤ s.regs.rxLen.toNat ∧ s.regs.rxLen.toNat ≤ 256 ∧
        ∃ buf, buf.length = s.regs.rxLen.toNat ∧ holdsAt 0x300 buf s.mem ∧ decodeBuf buf = .error .checksumMismatch) ∧
    (reports .invalidOperation ↔ s.fsm.op = .invalid)

/-- Once the first step of an operation is past, no fault can occur: a good state in TX, POLL, BODY or DEC always has a
next block step (R51 with R98, R104, R105: the bytes consumed there were written by the operation or an earlier ENCODE).
-/
def Obligations.NoFaultAfterTheFirstStep : Prop :=
  ∀ s : State, Inv s → s.fsm.state ∈ [FsmState.tx, .poll, .body, .dec] → ∃ t, blockStep s = .next t

/-- R155, R156: CRC_INIT, CRC_BYTE, CRC_SPAN, ENCODE, DECODE, INVALID and TRANSMIT take one block step each: the step that
leaves EXEC or TX ends in IDLE or stops with UNINIT_READ. -/
def Obligations.LocalOperationsTakeOneStep : Prop :=
  ∀ s : State, Inv s → s.fsm.state ≠ .idle →
    s.fsm.op ∈ [Op.crcInit, .crcByte, .crcSpan, .encode, .decode, .invalid, .transmit] →
    (∃ t, blockStep s = .next t ∧ t.fsm.state = .idle ∧ t.regs.status.done = true ∧ t.regs.status.busy = false) ∨
      ∃ off, blockStep s = .fault (.uninitRead off)

/-- R155 and R156, termination, which 70_reset_and_hazards.md derives from R47 and R108: whatever the channel answers, the
operation of every command word, run on its own, ends within its own bound: 1 block step, for RECEIVE
POLL_BUDGET + BODY_POLL_BUDGET + 255, for RUN three more (its EXEC, TX and DEC). It completes, or the model stops with
UNINIT_READ, and it takes at least one step: it is in progress once started. `runOp` runs it to that end. -/
def Obligations.EveryOperationTerminates : Prop :=
  ∀ (w : Word) (s : State), configOk s.cfg = true → s.fsm.state = .idle →
    ((∀ b : Byte, decodeCmd w ≠ .receive b ∧ decodeCmd w ≠ .run b) → endsWithin 1 (decodeCmd w) s) ∧
    (∀ b : Byte, decodeCmd w = .receive b →
      endsWithin (s.cfg.pollBudget + s.cfg.bodyPollBudget + 255) (decodeCmd w) s) ∧
    (∀ b : Byte, decodeCmd w = .run b →
      endsWithin (s.cfg.pollBudget + s.cfg.bodyPollBudget + 258) (decodeCmd w) s) ∧
    ((∃ t, runOp (decodeCmd w) s = .next t ∧ t.fsm.state = .idle ∧ t.regs.status.done = true ∧
        t.regs.status.busy = false) ∨
      ∃ off, runOp (decodeCmd w) s = .fault (.uninitRead off))

/-- R144: an IDLE block does nothing by itself; it waits for an accepted CMD write (log 1: the empty agenda). -/
def Obligations.IdleBlockWaits : Prop :=
  ∀ s : State, configOk s.cfg = true → s.fsm.state = .idle → blockTurn s → step s = .next (nextTurn s)

/-- R53, the window: where it lies in the platform's addresses, what each of its offsets holds and at which width, and that no
rule depends on BLOCK_BASE: a step is the same step whatever the base. -/
def Obligations.WindowMapAndBase : Prop :=
  (∀ (c : Config) (addr off : Nat), windowOffset c addr = some off ↔ off ≤ 0x3FF ∧ addr = c.blockBase + off) ∧
  (∀ (off n : Nat) (r : Reg), target off n = some (.reg r) ↔ n = 4 ∧
    (off, r) ∈ [(0x000, Reg.cmd), (0x004, .status), (0x008, .crc), (0x00C, .cmdAddr), (0x010, .cmdOpcode), (0x014, .cmdSize),
      (0x018, .txLen), (0x01C, .rxLen), (0x020, .respSize), (0x024, .respAddr), (0x028, .respCode), (0x02C, .respStatus),
      (0x030, .pollAttempts)]) ∧
  (∀ off n i : Nat,
    (target off n = some (.byte .pbuf i) ↔ n = 1 ∧ off = 0x100 + i ∧ i < 255) ∧
    (target off n = some (.byte .txbuf i) ↔ n = 1 ∧ off = 0x200 + i ∧ i < 256) ∧
    (target off n = some (.byte .rxbuf i) ↔ n = 1 ∧ off = 0x300 + i ∧ i < 256)) ∧
  (∀ (off n : Nat) (v : Word) (s : State), (0x034 ≤ off ∧ off ≤ 0x0FF) ∨ off = 0x1FF →
    hostRead off n s = .fault (.busError off n) ∧ hostWrite off n v s = .fault (.busError off n)) ∧
  ∀ (b : Nat) (s : State),
    (∀ t, step s = .next t → step (withBase b s) = .next (withBase b t)) ∧
    (∀ f, step s = .fault f → step (withBase b s) = .fault f)
end

