-- ==== Sys2Proof/Laws/State.lean ====
section
/-! SUPPORT. One lemma per field of State for each named update, so that no later proof unfolds a record update. -/

namespace Sys2Proof.Machine

/-! `setCrc` -/

@[simp] theorem setCrc_regs (c : Crc) (s : State) : (setCrc c s).regs = { s.regs with crc := c } := rfl
@[simp] theorem setCrc_fsm (c : Crc) (s : State) : (setCrc c s).fsm = s.fsm := rfl
@[simp] theorem setCrc_mem (c : Crc) (s : State) : (setCrc c s).mem = s.mem := rfl
@[simp] theorem setCrc_cfg (c : Crc) (s : State) : (setCrc c s).cfg = s.cfg := rfl
@[simp] theorem setCrc_chan (c : Crc) (s : State) : (setCrc c s).chan = s.chan := rfl
@[simp] theorem setCrc_todo (c : Crc) (s : State) : (setCrc c s).todo = s.todo := rfl
@[simp] theorem setCrc_seen (c : Crc) (s : State) : (setCrc c s).seen = s.seen := rfl
@[simp] theorem setCrc_draws (c : Crc) (s : State) : (setCrc c s).draws = s.draws := rfl

/-! `setTxLen` -/

@[simp] theorem setTxLen_regs (n : Nat) (s : State) :
    (setTxLen n s).regs = { s.regs with txLen := BitVec.ofNat 9 n } := rfl
@[simp] theorem setTxLen_fsm (n : Nat) (s : State) : (setTxLen n s).fsm = s.fsm := rfl
@[simp] theorem setTxLen_mem (n : Nat) (s : State) : (setTxLen n s).mem = s.mem := rfl
@[simp] theorem setTxLen_cfg (n : Nat) (s : State) : (setTxLen n s).cfg = s.cfg := rfl
@[simp] theorem setTxLen_chan (n : Nat) (s : State) : (setTxLen n s).chan = s.chan := rfl
@[simp] theorem setTxLen_todo (n : Nat) (s : State) : (setTxLen n s).todo = s.todo := rfl
@[simp] theorem setTxLen_seen (n : Nat) (s : State) : (setTxLen n s).seen = s.seen := rfl
@[simp] theorem setTxLen_draws (n : Nat) (s : State) : (setTxLen n s).draws = s.draws := rfl

/-! `setRxLen` -/

@[simp] theorem setRxLen_regs (n : Nat) (s : State) :
    (setRxLen n s).regs = { s.regs with rxLen := BitVec.ofNat 9 n } := rfl
@[simp] theorem setRxLen_fsm (n : Nat) (s : State) : (setRxLen n s).fsm = s.fsm := rfl
@[simp] theorem setRxLen_mem (n : Nat) (s : State) : (setRxLen n s).mem = s.mem := rfl
@[simp] theorem setRxLen_cfg (n : Nat) (s : State) : (setRxLen n s).cfg = s.cfg := rfl
@[simp] theorem setRxLen_chan (n : Nat) (s : State) : (setRxLen n s).chan = s.chan := rfl
@[simp] theorem setRxLen_todo (n : Nat) (s : State) : (setRxLen n s).todo = s.todo := rfl
@[simp] theorem setRxLen_seen (n : Nat) (s : State) : (setRxLen n s).seen = s.seen := rfl
@[simp] theorem setRxLen_draws (n : Nat) (s : State) : (setRxLen n s).draws = s.draws := rfl

/-! `setStatus` -/

@[simp] theorem setStatus_regs (t : Status) (s : State) : (setStatus t s).regs = { s.regs with status := t } := rfl
@[simp] theorem setStatus_fsm (t : Status) (s : State) : (setStatus t s).fsm = s.fsm := rfl
@[simp] theorem setStatus_mem (t : Status) (s : State) : (setStatus t s).mem = s.mem := rfl
@[simp] theorem setStatus_cfg (t : Status) (s : State) : (setStatus t s).cfg = s.cfg := rfl
@[simp] theorem setStatus_chan (t : Status) (s : State) : (setStatus t s).chan = s.chan := rfl
@[simp] theorem setStatus_todo (t : Status) (s : State) : (setStatus t s).todo = s.todo := rfl
@[simp] theorem setStatus_seen (t : Status) (s : State) : (setStatus t s).seen = s.seen := rfl
@[simp] theorem setStatus_draws (t : Status) (s : State) : (setStatus t s).draws = s.draws := rfl

/-! `setRespValid` -/

@[simp] theorem setRespValid_regs (v : Bool) (s : State) :
    (setRespValid v s).regs = { s.regs with status := { s.regs.status with respValid := v } } := rfl
@[simp] theorem setRespValid_fsm (v : Bool) (s : State) : (setRespValid v s).fsm = s.fsm := rfl
@[simp] theorem setRespValid_mem (v : Bool) (s : State) : (setRespValid v s).mem = s.mem := rfl
@[simp] theorem setRespValid_cfg (v : Bool) (s : State) : (setRespValid v s).cfg = s.cfg := rfl
@[simp] theorem setRespValid_chan (v : Bool) (s : State) : (setRespValid v s).chan = s.chan := rfl
@[simp] theorem setRespValid_todo (v : Bool) (s : State) : (setRespValid v s).todo = s.todo := rfl
@[simp] theorem setRespValid_seen (v : Bool) (s : State) : (setRespValid v s).seen = s.seen := rfl
@[simp] theorem setRespValid_draws (v : Bool) (s : State) : (setRespValid v s).draws = s.draws := rfl

/-! `setPollAttempts` -/

@[simp] theorem setPollAttempts_regs (n : Nat) (s : State) :
    (setPollAttempts n s).regs = { s.regs with pollAttempts := BitVec.ofNat 32 n } := rfl
@[simp] theorem setPollAttempts_fsm (n : Nat) (s : State) : (setPollAttempts n s).fsm = s.fsm := rfl
@[simp] theorem setPollAttempts_mem (n : Nat) (s : State) : (setPollAttempts n s).mem = s.mem := rfl
@[simp] theorem setPollAttempts_cfg (n : Nat) (s : State) : (setPollAttempts n s).cfg = s.cfg := rfl
@[simp] theorem setPollAttempts_chan (n : Nat) (s : State) : (setPollAttempts n s).chan = s.chan := rfl
@[simp] theorem setPollAttempts_todo (n : Nat) (s : State) : (setPollAttempts n s).todo = s.todo := rfl
@[simp] theorem setPollAttempts_seen (n : Nat) (s : State) : (setPollAttempts n s).seen = s.seen := rfl
@[simp] theorem setPollAttempts_draws (n : Nat) (s : State) : (setPollAttempts n s).draws = s.draws := rfl

/-! `setFsmState` -/

@[simp] theorem setFsmState_regs (f : FsmState) (s : State) : (setFsmState f s).regs = s.regs := rfl
@[simp] theorem setFsmState_fsm (f : FsmState) (s : State) : (setFsmState f s).fsm = { s.fsm with state := f } := rfl
@[simp] theorem setFsmState_mem (f : FsmState) (s : State) : (setFsmState f s).mem = s.mem := rfl
@[simp] theorem setFsmState_cfg (f : FsmState) (s : State) : (setFsmState f s).cfg = s.cfg := rfl
@[simp] theorem setFsmState_chan (f : FsmState) (s : State) : (setFsmState f s).chan = s.chan := rfl
@[simp] theorem setFsmState_todo (f : FsmState) (s : State) : (setFsmState f s).todo = s.todo := rfl
@[simp] theorem setFsmState_seen (f : FsmState) (s : State) : (setFsmState f s).seen = s.seen := rfl
@[simp] theorem setFsmState_draws (f : FsmState) (s : State) : (setFsmState f s).draws = s.draws := rfl

/-! `setFsm` -/

@[simp] theorem setFsm_regs (f : Fsm) (s : State) : (setFsm f s).regs = s.regs := rfl
@[simp] theorem setFsm_fsm (f : Fsm) (s : State) : (setFsm f s).fsm = f := rfl
@[simp] theorem setFsm_mem (f : Fsm) (s : State) : (setFsm f s).mem = s.mem := rfl
@[simp] theorem setFsm_cfg (f : Fsm) (s : State) : (setFsm f s).cfg = s.cfg := rfl
@[simp] theorem setFsm_chan (f : Fsm) (s : State) : (setFsm f s).chan = s.chan := rfl
@[simp] theorem setFsm_todo (f : Fsm) (s : State) : (setFsm f s).todo = s.todo := rfl
@[simp] theorem setFsm_seen (f : Fsm) (s : State) : (setFsm f s).seen = s.seen := rfl
@[simp] theorem setFsm_draws (f : Fsm) (s : State) : (setFsm f s).draws = s.draws := rfl

/-! `setMem` -/

@[simp] theorem setMem_regs (m : Memory) (s : State) : (setMem m s).regs = s.regs := rfl
@[simp] theorem setMem_fsm (m : Memory) (s : State) : (setMem m s).fsm = s.fsm := rfl
@[simp] theorem setMem_mem (m : Memory) (s : State) : (setMem m s).mem = m := rfl
@[simp] theorem setMem_cfg (m : Memory) (s : State) : (setMem m s).cfg = s.cfg := rfl
@[simp] theorem setMem_chan (m : Memory) (s : State) : (setMem m s).chan = s.chan := rfl
@[simp] theorem setMem_todo (m : Memory) (s : State) : (setMem m s).todo = s.todo := rfl
@[simp] theorem setMem_seen (m : Memory) (s : State) : (setMem m s).seen = s.seen := rfl
@[simp] theorem setMem_draws (m : Memory) (s : State) : (setMem m s).draws = s.draws := rfl

/-! `accept` -/

@[simp] theorem accept_regs (op : Op) (b : Byte) (s : State) :
    (accept op b s).regs = { s.regs with status := statusAccepted s.regs.status } := rfl
@[simp] theorem accept_fsm (op : Op) (b : Byte) (s : State) :
    (accept op b s).fsm = { s.fsm with op := op, byte := b } := rfl
@[simp] theorem accept_mem (op : Op) (b : Byte) (s : State) : (accept op b s).mem = s.mem := rfl
@[simp] theorem accept_cfg (op : Op) (b : Byte) (s : State) : (accept op b s).cfg = s.cfg := rfl
@[simp] theorem accept_chan (op : Op) (b : Byte) (s : State) : (accept op b s).chan = s.chan := rfl
@[simp] theorem accept_todo (op : Op) (b : Byte) (s : State) : (accept op b s).todo = s.todo := rfl
@[simp] theorem accept_seen (op : Op) (b : Byte) (s : State) : (accept op b s).seen = s.seen := rfl
@[simp] theorem accept_draws (op : Op) (b : Byte) (s : State) : (accept op b s).draws = s.draws := rfl

/-! `completion` -/

@[simp] theorem completion_regs (e : ErrKind) (s : State) :
    (completion e s).regs = { s.regs with status := statusCompleted e s.regs.status } := rfl
@[simp] theorem completion_fsm (e : ErrKind) (s : State) : (completion e s).fsm = { s.fsm with state := .idle } := rfl
@[simp] theorem completion_mem (e : ErrKind) (s : State) : (completion e s).mem = s.mem := rfl
@[simp] theorem completion_cfg (e : ErrKind) (s : State) : (completion e s).cfg = s.cfg := rfl
@[simp] theorem completion_chan (e : ErrKind) (s : State) : (completion e s).chan = s.chan := rfl
@[simp] theorem completion_todo (e : ErrKind) (s : State) : (completion e s).todo = s.todo := rfl
@[simp] theorem completion_seen (e : ErrKind) (s : State) : (completion e s).seen = s.seen := rfl
@[simp] theorem completion_draws (e : ErrKind) (s : State) : (completion e s).draws = s.draws := rfl

/-! `complete` -/

@[simp] theorem complete_regs (s : State) :
    (complete s).regs = { s.regs with status := statusCompleted .none s.regs.status } := rfl
@[simp] theorem complete_fsm (s : State) : (complete s).fsm = { s.fsm with state := .idle } := rfl
@[simp] theorem complete_mem (s : State) : (complete s).mem = s.mem := rfl
@[simp] theorem complete_cfg (s : State) : (complete s).cfg = s.cfg := rfl
@[simp] theorem complete_chan (s : State) : (complete s).chan = s.chan := rfl
@[simp] theorem complete_todo (s : State) : (complete s).todo = s.todo := rfl
@[simp] theorem complete_seen (s : State) : (complete s).seen = s.seen := rfl
@[simp] theorem complete_draws (s : State) : (complete s).draws = s.draws := rfl

/-! `raise` -/

@[simp] theorem raise_regs (e : ErrKind) (s : State) :
    (raise e s).regs = { s.regs with status := statusCompleted e s.regs.status } := rfl
@[simp] theorem raise_fsm (e : ErrKind) (s : State) : (raise e s).fsm = { s.fsm with state := .idle } := rfl
@[simp] theorem raise_mem (e : ErrKind) (s : State) : (raise e s).mem = s.mem := rfl
@[simp] theorem raise_cfg (e : ErrKind) (s : State) : (raise e s).cfg = s.cfg := rfl
@[simp] theorem raise_chan (e : ErrKind) (s : State) : (raise e s).chan = s.chan := rfl
@[simp] theorem raise_todo (e : ErrKind) (s : State) : (raise e s).todo = s.todo := rfl
@[simp] theorem raise_seen (e : ErrKind) (s : State) : (raise e s).seen = s.seen := rfl
@[simp] theorem raise_draws (e : ErrKind) (s : State) : (raise e s).draws = s.draws := rfl

/-! `reject` -/

@[simp] theorem reject_regs (s : State) :
    (reject s).regs = { s.regs with status := statusRejected s.regs.status } := rfl
@[simp] theorem reject_fsm (s : State) : (reject s).fsm = s.fsm := rfl
@[simp] theorem reject_mem (s : State) : (reject s).mem = s.mem := rfl
@[simp] theorem reject_cfg (s : State) : (reject s).cfg = s.cfg := rfl
@[simp] theorem reject_chan (s : State) : (reject s).chan = s.chan := rfl
@[simp] theorem reject_todo (s : State) : (reject s).todo = s.todo := rfl
@[simp] theorem reject_seen (s : State) : (reject s).seen = s.seen := rfl
@[simp] theorem reject_draws (s : State) : (reject s).draws = s.draws := rfl

/-! `enterExec` -/

@[simp] theorem enterExec_regs (s : State) : (enterExec s).regs = s.regs := rfl
@[simp] theorem enterExec_fsm (s : State) : (enterExec s).fsm = { s.fsm with state := .exec } := rfl
@[simp] theorem enterExec_mem (s : State) : (enterExec s).mem = s.mem := rfl
@[simp] theorem enterExec_cfg (s : State) : (enterExec s).cfg = s.cfg := rfl
@[simp] theorem enterExec_chan (s : State) : (enterExec s).chan = s.chan := rfl
@[simp] theorem enterExec_todo (s : State) : (enterExec s).todo = s.todo := rfl
@[simp] theorem enterExec_seen (s : State) : (enterExec s).seen = s.seen := rfl
@[simp] theorem enterExec_draws (s : State) : (enterExec s).draws = s.draws := rfl

/-! `storeFrame` -/

@[simp] theorem storeFrame_regs (f : List Byte) (s : State) :
    (storeFrame f s).regs = { s.regs with
        txLen := BitVec.ofNat 9 f.length
        crc := crcOfBytes (f.getD (f.length - 2) 0) (f.getD (f.length - 1) 0) } := rfl
@[simp] theorem storeFrame_fsm (f : List Byte) (s : State) : (storeFrame f s).fsm = s.fsm := rfl
@[simp] theorem storeFrame_mem (f : List Byte) (s : State) :
    (storeFrame f s).mem = memWriteSpan s.mem (bufBase .txbuf) f := rfl
@[simp] theorem storeFrame_cfg (f : List Byte) (s : State) : (storeFrame f s).cfg = s.cfg := rfl
@[simp] theorem storeFrame_chan (f : List Byte) (s : State) : (storeFrame f s).chan = s.chan := rfl
@[simp] theorem storeFrame_todo (f : List Byte) (s : State) : (storeFrame f s).todo = s.todo := rfl
@[simp] theorem storeFrame_seen (f : List Byte) (s : State) : (storeFrame f s).seen = s.seen := rfl
@[simp] theorem storeFrame_draws (f : List Byte) (s : State) : (storeFrame f s).draws = s.draws := rfl

/-! `pollEntry` -/

@[simp] theorem pollEntry_regs (s : State) : (pollEntry s).regs = { s.regs with pollAttempts := 0#32 } := rfl
@[simp] theorem pollEntry_fsm (s : State) :
    (pollEntry s).fsm = { s.fsm with pollCnt := 0, bodyCnt := 0, got := 0, state := .poll } := rfl
@[simp] theorem pollEntry_mem (s : State) : (pollEntry s).mem = s.mem := rfl
@[simp] theorem pollEntry_cfg (s : State) : (pollEntry s).cfg = s.cfg := rfl
@[simp] theorem pollEntry_chan (s : State) : (pollEntry s).chan = s.chan := rfl
@[simp] theorem pollEntry_todo (s : State) : (pollEntry s).todo = s.todo := rfl
@[simp] theorem pollEntry_seen (s : State) : (pollEntry s).seen = s.seen := rfl
@[simp] theorem pollEntry_draws (s : State) : (pollEntry s).draws = s.draws := rfl

/-! `failReceive` -/

@[simp] theorem failReceive_regs (e : ErrKind) (s : State) :
    (failReceive e s).regs = { s.regs with rxLen := 0#9, status := statusCompleted e s.regs.status } := rfl
@[simp] theorem failReceive_fsm (e : ErrKind) (s : State) : (failReceive e s).fsm = { s.fsm with state := .idle } := rfl
@[simp] theorem failReceive_mem (e : ErrKind) (s : State) : (failReceive e s).mem = s.mem := rfl
@[simp] theorem failReceive_cfg (e : ErrKind) (s : State) : (failReceive e s).cfg = s.cfg := rfl
@[simp] theorem failReceive_chan (e : ErrKind) (s : State) : (failReceive e s).chan = s.chan := rfl
@[simp] theorem failReceive_todo (e : ErrKind) (s : State) : (failReceive e s).todo = s.todo := rfl
@[simp] theorem failReceive_seen (e : ErrKind) (s : State) : (failReceive e s).seen = s.seen := rfl
@[simp] theorem failReceive_draws (e : ErrKind) (s : State) : (failReceive e s).draws = s.draws := rfl

/-! `countPoll` -/

@[simp] theorem countPoll_regs (s : State) :
    (countPoll s).regs = { s.regs with pollAttempts := BitVec.ofNat 32 (s.fsm.pollCnt + 1) } := rfl
@[simp] theorem countPoll_fsm (s : State) : (countPoll s).fsm = { s.fsm with pollCnt := s.fsm.pollCnt + 1 } := rfl
@[simp] theorem countPoll_mem (s : State) : (countPoll s).mem = s.mem := rfl
@[simp] theorem countPoll_cfg (s : State) : (countPoll s).cfg = s.cfg := rfl
@[simp] theorem countPoll_chan (s : State) : (countPoll s).chan = s.chan := rfl
@[simp] theorem countPoll_todo (s : State) : (countPoll s).todo = s.todo := rfl
@[simp] theorem countPoll_seen (s : State) : (countPoll s).seen = s.seen := rfl
@[simp] theorem countPoll_draws (s : State) : (countPoll s).draws = s.draws := rfl

/-! `setResponse` -/

@[simp] theorem setResponse_regs (r : Response) (s : State) :
    (setResponse r s).regs = { s.regs with
        respSize := r.size, respAddr := r.readerAddress, respCode := r.responseCode, respStatus := r.status
        status := { s.regs.status with respValid := true } } := rfl
@[simp] theorem setResponse_fsm (r : Response) (s : State) : (setResponse r s).fsm = s.fsm := rfl
@[simp] theorem setResponse_mem (r : Response) (s : State) : (setResponse r s).mem = s.mem := rfl
@[simp] theorem setResponse_cfg (r : Response) (s : State) : (setResponse r s).cfg = s.cfg := rfl
@[simp] theorem setResponse_chan (r : Response) (s : State) : (setResponse r s).chan = s.chan := rfl
@[simp] theorem setResponse_todo (r : Response) (s : State) : (setResponse r s).todo = s.todo := rfl
@[simp] theorem setResponse_seen (r : Response) (s : State) : (setResponse r s).seen = s.seen := rfl
@[simp] theorem setResponse_draws (r : Response) (s : State) : (setResponse r s).draws = s.draws := rfl

/-! `runEntry` -/

@[simp] theorem runEntry_regs (s : State) :
    (runEntry s).regs = { s.regs with pollAttempts := 0#32, status := { s.regs.status with respValid := false } } := rfl
@[simp] theorem runEntry_fsm (s : State) : (runEntry s).fsm = { s.fsm with state := .exec } := rfl
@[simp] theorem runEntry_mem (s : State) : (runEntry s).mem = s.mem := rfl
@[simp] theorem runEntry_cfg (s : State) : (runEntry s).cfg = s.cfg := rfl
@[simp] theorem runEntry_chan (s : State) : (runEntry s).chan = s.chan := rfl
@[simp] theorem runEntry_todo (s : State) : (runEntry s).todo = s.todo := rfl
@[simp] theorem runEntry_seen (s : State) : (runEntry s).seen = s.seen := rfl
@[simp] theorem runEntry_draws (s : State) : (runEntry s).draws = s.draws := rfl

/-! `platformReset` -/

@[simp] theorem platformReset_regs (s : State) : (platformReset s).regs = State.reset.regs := rfl
@[simp] theorem platformReset_fsm (s : State) : (platformReset s).fsm = State.reset.fsm := rfl
@[simp] theorem platformReset_mem (s : State) : (platformReset s).mem = [] := rfl
@[simp] theorem platformReset_cfg (s : State) : (platformReset s).cfg = s.cfg := rfl
@[simp] theorem platformReset_chan (s : State) : (platformReset s).chan = s.chan := rfl
@[simp] theorem platformReset_todo (s : State) : (platformReset s).todo = s.todo := rfl
@[simp] theorem platformReset_seen (s : State) : (platformReset s).seen = s.seen := rfl
@[simp] theorem platformReset_draws (s : State) : (platformReset s).draws = s.draws := rfl

/-! `answerRead` -/

@[simp] theorem answerRead_regs (v : Word) (s : State) : (answerRead v s).regs = s.regs := rfl
@[simp] theorem answerRead_fsm (v : Word) (s : State) : (answerRead v s).fsm = s.fsm := rfl
@[simp] theorem answerRead_mem (v : Word) (s : State) : (answerRead v s).mem = s.mem := rfl
@[simp] theorem answerRead_cfg (v : Word) (s : State) : (answerRead v s).cfg = s.cfg := rfl
@[simp] theorem answerRead_chan (v : Word) (s : State) : (answerRead v s).chan = s.chan := rfl
@[simp] theorem answerRead_todo (v : Word) (s : State) : (answerRead v s).todo = s.todo := rfl
@[simp] theorem answerRead_seen (v : Word) (s : State) : (answerRead v s).seen = v :: s.seen := rfl
@[simp] theorem answerRead_draws (v : Word) (s : State) : (answerRead v s).draws = s.draws := rfl

/-! `drawRead` -/

@[simp] theorem drawRead_regs (mask : Word) (s : State) : (drawRead mask s).regs = s.regs := rfl
@[simp] theorem drawRead_fsm (mask : Word) (s : State) : (drawRead mask s).fsm = s.fsm := rfl
@[simp] theorem drawRead_mem (mask : Word) (s : State) : (drawRead mask s).mem = s.mem := rfl
@[simp] theorem drawRead_cfg (mask : Word) (s : State) : (drawRead mask s).cfg = s.cfg := rfl
@[simp] theorem drawRead_chan (mask : Word) (s : State) : (drawRead mask s).chan = s.chan := rfl
@[simp] theorem drawRead_todo (mask : Word) (s : State) : (drawRead mask s).todo = s.todo := rfl
@[simp] theorem drawRead_seen (mask : Word) (s : State) :
    (drawRead mask s).seen = (Config.freeWord s.draws &&& mask) :: s.seen := rfl
@[simp] theorem drawRead_draws (mask : Word) (s : State) : (drawRead mask s).draws = s.draws + 1 := rfl

/-! `withBase` -/

@[simp] theorem withBase_regs (b : Nat) (s : State) : (withBase b s).regs = s.regs := rfl
@[simp] theorem withBase_fsm (b : Nat) (s : State) : (withBase b s).fsm = s.fsm := rfl
@[simp] theorem withBase_mem (b : Nat) (s : State) : (withBase b s).mem = s.mem := rfl
@[simp] theorem withBase_chan (b : Nat) (s : State) : (withBase b s).chan = s.chan := rfl
@[simp] theorem withBase_todo (b : Nat) (s : State) : (withBase b s).todo = s.todo := rfl
@[simp] theorem withBase_seen (b : Nat) (s : State) : (withBase b s).seen = s.seen := rfl
@[simp] theorem withBase_draws (b : Nat) (s : State) : (withBase b s).draws = s.draws := rfl
@[simp] theorem withBase_pollBudget (b : Nat) (s : State) : (withBase b s).cfg.pollBudget = s.cfg.pollBudget := rfl
@[simp] theorem withBase_bodyPollBudget (b : Nat) (s : State) :
    (withBase b s).cfg.bodyPollBudget = s.cfg.bodyPollBudget := rfl

end Sys2Proof.Machine
end

