-- ==== Sys2Proof/Laws/Memory.lean ====
section
/-! SUPPORT. The laws of the buffers: read after write, the canonical form, spans (10_state.md R50, R51). -/

namespace Sys2Proof.Machine

/-! ### One byte -/

@[simp] theorem memRead_nil (a : Nat) : memRead [] a = none := rfl

theorem memRead_memWrite_same (m : Memory) (a : Nat) (v : Byte) : memRead (memWrite m a v) a = some v := by
  induction m with
  | nil => simp [memWrite, memRead]
  | cons c m ih =>
    obtain ⟨b, w⟩ := c
    by_cases h1 : a < b
    · simp [memWrite, memRead, h1]
    · by_cases h2 : a = b
      · simp [memWrite, memRead, h2]
      · simpa [memWrite, memRead, h1, h2, Ne.symm h2] using ih

theorem memRead_memWrite_of_ne (m : Memory) {a b : Nat} (v : Byte) (h : b ≠ a) :
    memRead (memWrite m a v) b = memRead m b := by
  induction m with
  | nil => simp [memWrite, memRead, h.symm]
  | cons c m ih =>
    obtain ⟨d, w⟩ := c
    by_cases h1 : a < d
    · simp [memWrite, memRead, h1, h.symm]
    · by_cases h2 : a = d
      · subst h2; simp [memWrite, memRead, h.symm]
      · simp only [memWrite, h1, h2, if_false, memRead, ih]

/-- Reading after a write: the byte written there, every other byte as before. -/
theorem memRead_memWrite (m : Memory) (a b : Nat) (v : Byte) :
    memRead (memWrite m a v) b = if b = a then some v else memRead m b := by
  split
  · next h => subst h; exact memRead_memWrite_same m b v
  · next h => exact memRead_memWrite_of_ne m v h

/-- A write sets a mark and clears none (R50). -/
theorem memWrite_isSome {m : Memory} {a b : Nat} {v : Byte} (h : (memRead m b).isSome = true) :
    (memRead (memWrite m a v) b).isSome = true := by
  rw [memRead_memWrite]; split <;> simp [h]

theorem mem_memWrite {m : Memory} {a : Nat} {v : Byte} {c : Host.Cell} (h : c ∈ memWrite m a v) :
    c = (a, v) ∨ c ∈ m := by
  induction m with
  | nil => simpa [memWrite] using h
  | cons d m ih =>
    obtain ⟨b, w⟩ := d
    simp only [memWrite] at h
    split at h
    · simpa using h
    · split at h
      · rcases List.mem_cons.1 h with h | h
        · exact .inl h
        · exact .inr (List.mem_cons_of_mem _ h)
      · rcases List.mem_cons.1 h with h | h
        · exact .inr (by simp [h])
        · exact (ih h).imp id (List.mem_cons_of_mem _)

/-- Writing a byte keeps the canonical form. -/
theorem memWrite_wf {m : Memory} (a : Nat) (v : Byte) (h : Memory.wf m) : Memory.wf (memWrite m a v) := by
  induction m with
  | nil => simp [memWrite, Memory.wf]
  | cons d m ih =>
    obtain ⟨b, w⟩ := d
    obtain ⟨h1, h2⟩ := List.pairwise_cons.1 h
    simp only [memWrite]
    split
    · next hlt =>
      refine List.pairwise_cons.2 ⟨fun c hc => ?_, h⟩
      rcases List.mem_cons.1 hc with rfl | hc
      · exact hlt
      · exact Nat.lt_trans hlt (h1 c hc)
    · split
      · next heq => subst heq; exact List.pairwise_cons.2 ⟨h1, h2⟩
      · next hlt hne =>
        refine List.pairwise_cons.2 ⟨fun c hc => ?_, ih h2⟩
        rcases mem_memWrite hc with rfl | hc
        · exact Nat.lt_of_le_of_ne (Nat.le_of_not_lt hlt) (Ne.symm hne)
        · exact h1 c hc

/-- Writing a byte at an offset where `P` holds keeps `P` of every listed offset. -/
theorem memWrite_all {P : Nat → Prop} {m : Memory} {a : Nat} (v : Byte) (ha : P a) (h : ∀ c ∈ m, P c.1) :
    ∀ c ∈ memWrite m a v, P c.1 := by
  intro c hc
  rcases mem_memWrite hc with rfl | hc
  · exact ha
  · exact h c hc

/-! ### Spans -/

theorem memWriteSpan_wf {m : Memory} (a : Nat) (bs : List Byte) (h : Memory.wf m) :
    Memory.wf (memWriteSpan m a bs) := by
  induction bs generalizing m a with
  | nil => exact h
  | cons b bs ih => exact ih _ (memWrite_wf a b h)

theorem memWriteSpan_all {P : Nat → Prop} {m : Memory} {a : Nat} {bs : List Byte}
    (ha : ∀ i, i < bs.length → P (a + i)) (h : ∀ c ∈ m, P c.1) : ∀ c ∈ memWriteSpan m a bs, P c.1 := by
  induction bs generalizing m a with
  | nil => exact h
  | cons b bs ih =>
    refine ih (fun i hi => ?_) (memWrite_all b (by simpa using ha 0 (by simp)) h)
    have := ha (i + 1) (by simpa using hi)
    rwa [show a + 1 + i = a + (i + 1) by omega]

theorem memRead_memWriteSpan_outside (m : Memory) {a x : Nat} {bs : List Byte} (h : x < a ∨ a + bs.length ≤ x) :
    memRead (memWriteSpan m a bs) x = memRead m x := by
  induction bs generalizing m a with
  | nil => rfl
  | cons b bs ih =>
    simp only [List.length_cons] at h
    rw [memWriteSpan, ih _ (by omega), memRead_memWrite_of_ne _ _ (by omega)]

theorem memRead_memWriteSpan_inside (m : Memory) {a i : Nat} {bs : List Byte} (h : i < bs.length) :
    memRead (memWriteSpan m a bs) (a + i) = bs[i]? := by
  induction bs generalizing m a i with
  | nil => simp at h
  | cons b bs ih =>
    cases i with
    | zero => rw [memWriteSpan, memRead_memWriteSpan_outside _ (by omega)]; simp [memRead_memWrite_same]
    | succ i =>
      rw [memWriteSpan, show a + (i + 1) = a + 1 + i by omega, ih _ (by simpa using h)]
      rfl

/-- A span write stores its bytes in index order and leaves every other byte alone. -/
theorem memWriteSpan_storedAt (m : Memory) (a : Nat) (bs : List Byte) : storedAt a bs m (memWriteSpan m a bs) :=
  ⟨fun _ h => memRead_memWriteSpan_inside m h, fun _ h => memRead_memWriteSpan_outside m h⟩

theorem memWriteSpan_isSome {m : Memory} {a x : Nat} {bs : List Byte} (h : (memRead m x).isSome = true) :
    (memRead (memWriteSpan m a bs) x).isSome = true := by
  induction bs generalizing m a with
  | nil => exact h
  | cons b bs ih => exact ih (memWrite_isSome h)

theorem memSpan_length {m : Memory} {a n : Nat} {bs : List Byte} (h : memSpan m a n = .ok bs) : bs.length = n := by
  induction n generalizing a bs with
  | zero => cases h; rfl
  | succ n ih =>
    simp only [memSpan] at h
    split at h
    · cases h
    · split at h
      · next hs => cases h; simp [ih hs]
      · cases h

/-- What a span holds, byte by byte. -/
theorem memSpan_ok_iff {m : Memory} {a n : Nat} {bs : List Byte} :
    memSpan m a n = .ok bs ↔ bs.length = n ∧ ∀ i, i < n → memRead m (a + i) = bs[i]? := by
  induction n generalizing a bs with
  | zero => simp only [memSpan, Except.ok.injEq, Nat.not_lt_zero, false_implies, implies_true, and_true]
            exact ⟨fun h => by simp [← h], fun h => (List.length_eq_zero_iff.1 h).symm⟩
  | succ n ih =>
    constructor
    · intro h
      refine ⟨memSpan_length h, fun i hi => ?_⟩
      simp only [memSpan] at h
      split at h
      · cases h
      · next b hb =>
        split at h
        · next bs' hs =>
          cases h
          cases i with
          | zero => simpa using hb
          | succ i =>
            rw [show a + (i + 1) = a + 1 + i by omega, (ih.1 hs).2 i (by omega)]; rfl
        · cases h
    · rintro ⟨hl, hb⟩
      cases bs with
      | nil => simp at hl
      | cons b bs =>
        have h0 := hb 0 (by omega)
        simp only [Nat.add_zero, List.getElem?_cons_zero] at h0
        have hs : memSpan m (a + 1) n = .ok bs := ih.2 ⟨by simpa using hl, fun i hi => by
          rw [show a + 1 + i = a + (i + 1) by omega, hb (i + 1) (by omega)]; rfl⟩
        simp [memSpan, h0, hs]

/-- A span of written bytes reads without a fault (R51). -/
theorem memSpan_ok_of_written {m : Memory} {a n : Nat} (h : ∀ i, i < n → (memRead m (a + i)).isSome = true) :
    ∃ bs, memSpan m a n = .ok bs := by
  induction n generalizing a with
  | zero => exact ⟨[], rfl⟩
  | succ n ih =>
    obtain ⟨b, hb⟩ := Option.isSome_iff_exists.1 (h 0 (by omega))
    obtain ⟨bs, hs⟩ := ih (a := a + 1) fun i hi => by
      rw [show a + 1 + i = a + (i + 1) by omega]; exact h (i + 1) (by omega)
    exact ⟨b :: bs, by simp only [Nat.add_zero] at hb; simp [memSpan, hb, hs]⟩

/-- A span faults only at an unwritten byte of it (R51). -/
theorem memSpan_error {m : Memory} {a n : Nat} {f : Fault} (h : memSpan m a n = .error f) :
    ∃ i, i < n ∧ f = .uninitRead (a + i) ∧ memRead m (a + i) = none := by
  induction n generalizing a with
  | zero => cases h
  | succ n ih =>
    simp only [memSpan] at h
    split at h
    · next hn => cases h; exact ⟨0, by omega, rfl, hn⟩
    · split at h
      · cases h
      · next hs =>
        cases h
        obtain ⟨i, hi, rfl, hn⟩ := ih hs
        exact ⟨i + 1, by omega, by congr 1; omega, by rwa [show a + (i + 1) = a + 1 + i by omega]⟩

/-- A span reads the same in a memory that agrees on its bytes. -/
theorem memSpan_congr {m m' : Memory} {a n : Nat} (h : ∀ i, i < n → memRead m' (a + i) = memRead m (a + i)) :
    memSpan m' a n = memSpan m a n := by
  induction n generalizing a with
  | zero => rfl
  | succ n ih =>
    have h0 := h 0 (by omega)
    simp only [Nat.add_zero] at h0
    simp only [memSpan, h0]
    rw [ih fun i hi => by
      rw [show a + 1 + i = a + (i + 1) by omega]; exact h (i + 1) (by omega)]

/-- What was written as a span reads back as that span. -/
theorem memSpan_memWriteSpan (m : Memory) (a : Nat) (bs : List Byte) :
    memSpan (memWriteSpan m a bs) a bs.length = .ok bs :=
  memSpan_ok_iff.2 ⟨rfl, fun _ h => memRead_memWriteSpan_inside m h⟩

end Sys2Proof.Machine
end

