-- ==== Sys2Proof/Laws/Ops.lean ====
section
/-! SUPPORT. One lemma for each shared operation that says once everything it can do: the channel, the checksum field, the
encode, write, receive and decode stages. The provers cite these instead of unfolding the operations. -/

namespace Sys2Proof.Machine

/-! ### The channel (R14) -/

theorem chanRead_eq (m : Nat) (s : State) : chanRead m s = (nextRead m s, afterRead m s) := by
  unfold chanRead nextRead afterRead nextRead; cases s.chan.readAns <;> rfl

theorem chanWrite_eq (bs : List Byte) (s : State) : chanWrite bs s = (nextWrite s, afterWrite bs s) := by
  unfold chanWrite nextWrite afterWrite nextWrite; cases s.chan.writeAns <;> rfl

@[simp] theorem afterRead_regs (m : Nat) (s : State) : (afterRead m s).regs = s.regs := by
  unfold afterRead; split <;> rfl
@[simp] theorem afterRead_fsm (m : Nat) (s : State) : (afterRead m s).fsm = s.fsm := by
  unfold afterRead; split <;> rfl
@[simp] theorem afterRead_mem (m : Nat) (s : State) : (afterRead m s).mem = s.mem := by
  unfold afterRead; split <;> rfl
@[simp] theorem afterRead_cfg (m : Nat) (s : State) : (afterRead m s).cfg = s.cfg := by
  unfold afterRead; split <;> rfl
@[simp] theorem afterRead_todo (m : Nat) (s : State) : (afterRead m s).todo = s.todo := by
  unfold afterRead; split <;> rfl
@[simp] theorem afterRead_seen (m : Nat) (s : State) : (afterRead m s).seen = s.seen := by
  unfold afterRead; split <;> rfl
/-- A `ChanRead` is one call on the channel. -/
@[simp] theorem afterRead_calls (m : Nat) (s : State) :
    (afterRead m s).chan.calls = .read m (nextRead m s) :: s.chan.calls := by
  unfold afterRead; split <;> rfl

@[simp] theorem afterWrite_regs (bs : List Byte) (s : State) : (afterWrite bs s).regs = s.regs := by
  unfold afterWrite; split <;> rfl
@[simp] theorem afterWrite_fsm (bs : List Byte) (s : State) : (afterWrite bs s).fsm = s.fsm := by
  unfold afterWrite; split <;> rfl
@[simp] theorem afterWrite_mem (bs : List Byte) (s : State) : (afterWrite bs s).mem = s.mem := by
  unfold afterWrite; split <;> rfl
@[simp] theorem afterWrite_cfg (bs : List Byte) (s : State) : (afterWrite bs s).cfg = s.cfg := by
  unfold afterWrite; split <;> rfl
@[simp] theorem afterWrite_todo (bs : List Byte) (s : State) : (afterWrite bs s).todo = s.todo := by
  unfold afterWrite; split <;> rfl
@[simp] theorem afterWrite_seen (bs : List Byte) (s : State) : (afterWrite bs s).seen = s.seen := by
  unfold afterWrite; split <;> rfl
/-- A `ChanWrite` is one call on the channel. -/
@[simp] theorem afterWrite_calls (bs : List Byte) (s : State) :
    (afterWrite bs s).chan.calls = .write bs (nextWrite s) :: s.chan.calls := by
  unfold afterWrite; split <;> rfl

theorem clipRead_length {m : Nat} {a : ReadAnswer} {t : List Byte} (h : clipRead m a = .ok t) : t.length ≤ m := by
  cases a <;> simp only [clipRead, ReadAnswer.ok.injEq, reduceCtorEq] at h
  subst h
  simp

/-- The channel never returns more bytes than requested (R14, R49). -/
theorem nextRead_length {m : Nat} {s : State} {t : List Byte} (h : nextRead m s = .ok t) : t.length ≤ m := by
  unfold nextRead at h
  split at h <;> exact clipRead_length h

/-! ### The checksum field (R80) and the request frame (R74) -/

/-- The two bytes of a checksum, low byte first, carry it (R80). -/
@[simp] theorem crcOfBytes_lsb_msb (c : Crc) : crcOfBytes (crcLsb c) (crcMsb c) = c := by
  apply BitVec.eq_of_getLsbD_eq
  intro i hi
  simp only [crcOfBytes, crcLsb, crcMsb, BitVec.getLsbD_or, BitVec.getLsbD_setWidth, BitVec.getLsbD_extractLsb',
    BitVec.getLsbD_shiftLeft]
  by_cases h : i < 8
  · simp [h, hi]
  · simp [h, hi, show i - 8 < 8 by omega, show 8 + (i - 8) = i by omega, show i - 8 < 16 by omega]

@[simp] theorem withChecksum_length (h : List Byte) : (withChecksum h).length = h.length + 2 := by simp [withChecksum]

theorem requestFrame_eq (a o : Byte) (p : List Byte) :
    requestFrame a o p = withChecksum ([BitVec.ofNat 8 (p.length + 4), a, o] ++ p) := rfl

@[simp] theorem requestFrame_length (a o : Byte) (p : List Byte) : (requestFrame a o p).length = p.length + 5 := by
  simp [requestFrame]

/-- R97 on a payload the length byte can declare. -/
theorem encodeFrame_ok {a o : Byte} {p : List Byte} (h : p.length ≤ 251) :
    encodeFrame a o p = .ok (requestFrame a o p) := by
  simp [encodeFrame, maxPayload, Nat.not_lt.2 h, requestFrame_eq]

theorem encodeFrame_inv {a o : Byte} {p f : List Byte} (h : encodeFrame a o p = .ok f) :
    p.length ≤ 251 ∧ f = requestFrame a o p := by
  unfold encodeFrame maxPayload at h
  split at h
  · cases h
  · next hl => cases h; exact ⟨Nat.le_of_not_lt hl, rfl⟩

/-- The pair at the end of a frame carries the checksum of what comes before it (R76, R98). -/
theorem trailer_withChecksum (h : List Byte) :
    crcOfBytes ((withChecksum h).getD ((withChecksum h).length - 2) 0)
      ((withChecksum h).getD ((withChecksum h).length - 1) 0) = crc16 h := by
  have e0 : (withChecksum h).getD ((withChecksum h).length - 2) 0 = crcLsb (crc16 h) := by
    rw [withChecksum_length]; simp [withChecksum]
  have e1 : (withChecksum h).getD ((withChecksum h).length - 1) 0 = crcMsb (crc16 h) := by
    rw [withChecksum_length]; simp [withChecksum, show h.length + 1 - h.length = 1 by omega]
  rw [e0, e1, crcOfBytes_lsb_msb]

/-! ### The encode stage (R98) -/

/-- What the encode stage does when it goes on: the frame of the command registers is stored. -/
theorem encodeStage_goOn {s t : State} (h : encodeStage s = .goOn t) :
    ∃ p, s.regs.cmdSize.toNat ≤ 251 ∧ payloadSpan s = .ok p ∧ p.length = s.regs.cmdSize.toNat ∧
      t = storeFrame (requestFrame s.regs.cmdAddr s.regs.cmdOpcode p) s := by
  unfold encodeStage maxPayload at h
  split at h
  · cases h
  · next hs =>
    split at h
    · cases h
    · next p hp =>
      have hl : p.length = s.regs.cmdSize.toNat := memSpan_length hp
      rw [encodeFrame_ok (by omega)] at h
      cases h
      exact ⟨p, by omega, hp, hl, rfl⟩

/-- The encode stage raises only for a payload over 251 bytes, and then only TX_LEN and the completion change. -/
theorem encodeStage_raised {s t : State} (h : encodeStage s = .raised t) :
    251 < s.regs.cmdSize.toNat ∧ t = raise .invalidParameter (setTxLen 0 s) := by
  unfold encodeStage maxPayload at h
  split at h
  · next hs => cases h; exact ⟨hs, rfl⟩
  · next hs =>
    split at h
    · cases h
    · next p hp =>
      have hl : p.length = s.regs.cmdSize.toNat := memSpan_length hp
      rw [encodeFrame_ok (by omega)] at h
      cases h

/-- The encode stage stops only at an unwritten payload byte (R51). -/
theorem encodeStage_stop {s : State} {f : Fault} (h : encodeStage s = .stop f) :
    s.regs.cmdSize.toNat ≤ 251 ∧ payloadSpan s = .error f := by
  unfold encodeStage maxPayload at h
  split at h
  · cases h
  · next hs =>
    split at h
    · next hp => cases h; exact ⟨by omega, hp⟩
    · next p hp =>
      have hl : p.length = s.regs.cmdSize.toNat := memSpan_length hp
      rw [encodeFrame_ok (by omega)] at h
      cases h

/-- A stored request frame: CRC holds its checksum (R98). -/
theorem storeFrame_requestFrame_crc (a o : Byte) (p : List Byte) (s : State) :
    (storeFrame (requestFrame a o p) s).regs.crc = crc16 (BitVec.ofNat 8 (p.length + 4) :: a :: o :: p) := by
  simp only [storeFrame_regs, requestFrame_eq, trailer_withChecksum]; rfl

/-! ### The write stage (R99) -/

theorem txStep_goOn {s t : State} (h : txStep s = .goOn t) :
    ∃ bs, s.regs.txLen.toNat ≠ 0 ∧ memSpan s.mem (bufBase .txbuf) s.regs.txLen.toNat = .ok bs ∧
      nextWrite s = .ok s.regs.txLen.toNat ∧ t = afterWrite bs s := by
  unfold txStep at h
  split at h
  · cases h
  · next hn =>
    split at h
    · cases h
    · next bs hb =>
      simp only [chanWrite_eq] at h
      split at h
      · cases h
      · next heq =>
        split at h
        · next hk => simp only [Prod.mk.injEq] at heq; cases h; exact ⟨bs, hn, hb, by rw [heq.1, hk], heq.2.symm⟩
        · cases h

theorem txStep_raised {s t : State} (h : txStep s = .raised t) :
    (s.regs.txLen.toNat = 0 ∧ t = raise .invalidParameter s) ∨
      ∃ bs, s.regs.txLen.toNat ≠ 0 ∧ memSpan s.mem (bufBase .txbuf) s.regs.txLen.toNat = .ok bs ∧
        nextWrite s ≠ .ok s.regs.txLen.toNat ∧ t = raise .ioError (afterWrite bs s) := by
  unfold txStep at h
  split at h
  · next hn => cases h; exact .inl ⟨hn, rfl⟩
  · next hn =>
    split at h
    · cases h
    · next bs hb =>
      simp only [chanWrite_eq] at h
      split at h
      · next heq =>
        simp only [Prod.mk.injEq] at heq; cases h
        exact .inr ⟨bs, hn, hb, by rw [heq.1]; simp, by rw [heq.2]⟩
      · next heq =>
        split at h
        · cases h
        · next hk =>
          simp only [Prod.mk.injEq] at heq; cases h
          exact .inr ⟨bs, hn, hb, by rw [heq.1]; simpa using hk, by rw [heq.2]⟩

theorem txStep_stop {s : State} {f : Fault} (h : txStep s = .stop f) :
    s.regs.txLen.toNat ≠ 0 ∧ memSpan s.mem (bufBase .txbuf) s.regs.txLen.toNat = .error f := by
  unfold txStep at h
  split at h
  · cases h
  · next hn =>
    split at h
    · next hf => cases h; exact ⟨hn, hf⟩
    · simp only [chanWrite_eq] at h
      split at h
      · cases h
      · split at h <;> cases h

/-! ### The receive stages (R103–R105) -/

/-- What one poll attempt does, by the channel's answer (R103). -/
theorem pollStep_cases (s : State) :
    (nextRead 1 s = .err ∧ pollStep s = failReceive .ioError (countPoll (afterRead 1 s))) ∨
    (nextRead 1 s = .ok [] ∧ s.fsm.pollCnt + 1 = s.cfg.pollBudget ∧
      pollStep s = failReceive .timeout (countPoll (afterRead 1 s))) ∨
    (nextRead 1 s = .ok [] ∧ s.fsm.pollCnt + 1 ≠ s.cfg.pollBudget ∧ pollStep s = countPoll (afterRead 1 s)) ∨
    ∃ len, nextRead 1 s = .ok [len] ∧ pollStep s = startBody len (countPoll (afterRead 1 s)) := by
  unfold pollStep
  simp only [chanRead_eq]
  split
  · next h => exact .inl ⟨h, rfl⟩
  · next h =>
    simp only [countPoll_fsm, afterRead_fsm]
    split
    · next hb => exact .inr (.inl ⟨h, hb, rfl⟩)
    · next hb => exact .inr (.inr (.inl ⟨h, hb, rfl⟩))
  · next len rest h =>
    have hl := nextRead_length h
    cases rest with
    | nil => exact .inr (.inr (.inr ⟨len, h, rfl⟩))
    | cons => simp at hl

/-- The state in which one more empty body attempt is counted (R104). -/
theorem bodyStep_cases (s : State) :
    (nextRead (s.fsm.declLen.toNat - s.fsm.got) s = .err ∧
      bodyStep s = failReceive .ioError (afterRead (s.fsm.declLen.toNat - s.fsm.got) s)) ∨
    (nextRead (s.fsm.declLen.toNat - s.fsm.got) s = .ok [] ∧ s.fsm.bodyCnt + 1 = s.cfg.bodyPollBudget ∧
      bodyStep s = failReceive .ioError
        (setFsm { s.fsm with bodyCnt := s.fsm.bodyCnt + 1 } (afterRead (s.fsm.declLen.toNat - s.fsm.got) s))) ∨
    (nextRead (s.fsm.declLen.toNat - s.fsm.got) s = .ok [] ∧ s.fsm.bodyCnt + 1 ≠ s.cfg.bodyPollBudget ∧
      bodyStep s =
        setFsm { s.fsm with bodyCnt := s.fsm.bodyCnt + 1 } (afterRead (s.fsm.declLen.toNat - s.fsm.got) s)) ∨
    ∃ bs, bs ≠ [] ∧ bs.length ≤ s.fsm.declLen.toNat - s.fsm.got ∧
      nextRead (s.fsm.declLen.toNat - s.fsm.got) s = .ok bs ∧
      bodyStep s = storeBody bs (afterRead (s.fsm.declLen.toNat - s.fsm.got) s) := by
  unfold bodyStep
  simp only [chanRead_eq]
  split
  · next h => exact .inl ⟨h, rfl⟩
  · next h =>
    simp only [setFsm_fsm]
    by_cases hb : s.fsm.bodyCnt + 1 = s.cfg.bodyPollBudget
    · exact .inr (.inl ⟨h, hb, if_pos hb⟩)
    · exact .inr (.inr (.inl ⟨h, hb, if_neg hb⟩))
  · next b bs h => exact .inr (.inr (.inr ⟨b :: bs, by simp, nextRead_length h, h, rfl⟩))

/-- `finish_receive` for RECEIVE completes, for RUN it goes to DEC (R105). -/
theorem finishReceive_cases (s : State) :
    (s.fsm.op = .receive ∧ finishReceive s =
      complete (setRxLen (1 + s.fsm.got) (setMem (memWrite s.mem (bufBase .rxbuf) (BitVec.ofNat 8 s.fsm.got)) s))) ∨
    (s.fsm.op ≠ .receive ∧ finishReceive s =
      setFsmState .dec (setRxLen (1 + s.fsm.got) (setMem (memWrite s.mem (bufBase .rxbuf) (BitVec.ofNat 8 s.fsm.got)) s))) := by
  unfold finishReceive
  by_cases h : s.fsm.op = .receive
  · exact .inl ⟨h, if_pos h⟩
  · exact .inr ⟨h, if_neg h⟩

/-! ### The decode stage (R111) -/

/-- Up to 261 bytes the size is `n - 6` (R110). -/
theorem responseSize_toNat {n : Nat} (h : n ≤ 261) : (responseSize n).toNat = n - 6 := by
  rw [responseSize, if_pos h, BitVec.toNat_ofNat, Nat.mod_eq_of_lt (by omega)]

theorem decodeStage_goOn {s t : State} (h : decodeStage s = .goOn t) :
    ∃ buf, 6 ≤ s.regs.rxLen.toNat ∧ s.regs.rxLen.toNat ≤ 256 ∧
      memSpan s.mem (bufBase .rxbuf) s.regs.rxLen.toNat = .ok buf ∧ bufChecksum buf = bufTrailer buf ∧
      t = setResponse (bufResponse buf) (setCrc (bufChecksum buf) s) := by
  unfold decodeStage minFrame at h
  split at h
  · cases h
  split at h
  · cases h
  next h1 h2 =>
  split at h
  · cases h
  next buf hb =>
  unfold decodeBuf minFrame at h
  rw [if_neg (by rw [memSpan_length hb]; omega)] at h
  by_cases hc : bufChecksum buf = bufTrailer buf
  · rw [if_neg (by simpa using hc)] at h
    cases h
    exact ⟨buf, by omega, by omega, hb, hc, rfl⟩
  · rw [if_pos hc] at h
    cases h

theorem decodeStage_raised {s t : State} (h : decodeStage s = .raised t) :
    (256 < s.regs.rxLen.toNat ∧ t = raise .invalidParameter s) ∨
    (s.regs.rxLen.toNat < 6 ∧ t = raise .malformed s) ∨
    ∃ buf, 6 ≤ s.regs.rxLen.toNat ∧ s.regs.rxLen.toNat ≤ 256 ∧
      memSpan s.mem (bufBase .rxbuf) s.regs.rxLen.toNat = .ok buf ∧ bufChecksum buf ≠ bufTrailer buf ∧
      t = raise .checksumMismatch (setCrc (bufChecksum buf) s) := by
  unfold decodeStage minFrame at h
  split at h
  · next h1 => cases h; exact .inl ⟨h1, rfl⟩
  split at h
  · next h2 => cases h; exact .inr (.inl ⟨h2, rfl⟩)
  next h1 h2 =>
  split at h
  · cases h
  next buf hb =>
  unfold decodeBuf minFrame at h
  rw [if_neg (by rw [memSpan_length hb]; omega)] at h
  by_cases hc : bufChecksum buf = bufTrailer buf
  · rw [if_neg (by simpa using hc)] at h
    cases h
  · rw [if_pos hc] at h
    cases h
    exact .inr (.inr ⟨buf, by omega, by omega, hb, hc, rfl⟩)

theorem decodeStage_stop {s : State} {f : Fault} (h : decodeStage s = .stop f) :
    6 ≤ s.regs.rxLen.toNat ∧ s.regs.rxLen.toNat ≤ 256 ∧
      memSpan s.mem (bufBase .rxbuf) s.regs.rxLen.toNat = .error f := by
  unfold decodeStage minFrame at h
  split at h
  · cases h
  split at h
  · cases h
  next h1 h2 =>
  split at h
  · next hf => cases h; exact ⟨by omega, by omega, hf⟩
  · split at h <;> cases h

/-! ### How a step ends -/

theorem finishWith_next {r : Stage} {t : State} (h : finishWith r = .next t) :
    (∃ u, r = .goOn u ∧ t = complete u) ∨ r = .raised t := by
  cases r <;> simp only [finishWith, Host.Outcome.next.injEq, reduceCtorEq] at h
  · exact .inl ⟨_, rfl, h.symm⟩
  · exact .inr (by rw [h])

theorem continueWith_next {k : State → State} {r : Stage} {t : State} (h : continueWith k r = .next t) :
    (∃ u, r = .goOn u ∧ t = k u) ∨ r = .raised t := by
  cases r <;> simp only [continueWith, Host.Outcome.next.injEq, reduceCtorEq] at h
  · exact .inl ⟨_, rfl, h.symm⟩
  · exact .inr (by rw [h])

/-- One transition of an operation done by one EXEC step. -/
theorem localOp_cases {op : Op} {b : Byte} {entry : State → State} {work : State → Result} {s : State} {r : Result}
    (h : localOp op b entry work s = r) :
    (s.fsm.state = .idle ∧ r = .next (entry (accept op b s))) ∨ (s.fsm.state = .exec ∧ r = work s) ∨
      (s.fsm.state ≠ .idle ∧ s.fsm.state ≠ .exec ∧ r = .next s) := by
  unfold localOp at h
  cases hs : s.fsm.state <;> simp_all

end Sys2Proof.Machine
end

