-- ==== Sys2Proof/Laws/Step.lean ====
section
/-! SUPPORT. Once and for all, what one transition of an instruction can do (`exec_moves`), and what one turn of the
machine can do (`step_next`, `hostRead_next`, `hostWrite_next`, `blockStep_next`). Every claim about all steps starts here. -/

namespace Sys2Proof.Machine

/-- The operations done by one EXEC step whose entry action is only `fsm.state <- EXEC`. -/
def plainLocal : List Op := [.crcInit, .crcByte, .crcSpan, .encode, .invalid]

/-- The states that an operation never reaches: no transition is defined there (R22, R46; log 10). -/
def unreached (i : Instr) (f : FsmState) : Bool :=
  match i with
  | .crcInit _ | .crcByte _ | .crcSpan _ | .encode _ | .decode _ | .invalid _ => f ∉ [FsmState.idle, .exec]
  | .transmit _ => f ∉ [FsmState.idle, .tx]
  | .receive _ => f ∉ [FsmState.idle, .poll, .body]
  | .run _ => false
  | .wireTagInventory | .wireSetRfPower | .wireSetInventoryTime | .wireSetBuzzerEnabled => false

/-- An operation in a state of R46's list is never in an unreached one. -/
theorem unreached_of_opFits {f : FsmState} {op : Op} (b : Byte) (h : opFits f op = true) :
    unreached (instrOf op b) f = false := by
  cases f <;> cases op <;> first | rfl | cases h

/-- Everything a transition of instruction `i` can do when it answers a next state. -/
inductive Moves (i : Instr) (s : State) : State → Prop where
  /-- no transition in a state the operation never reaches (R22; log 10) -/
  | stay : unreached i s.fsm.state = true → Moves i s s
  | acceptLocal {op : Op} {b : Byte} : s.fsm.state = .idle → op ∈ plainLocal → Moves i s (enterExec (accept op b s))
  | acceptDecode {b : Byte} : s.fsm.state = .idle → Moves i s (enterExec (setRespValid false (accept .decode b s)))
  | acceptTransmit {b : Byte} : s.fsm.state = .idle → Moves i s (setFsmState .tx (accept .transmit b s))
  | acceptReceive {b : Byte} : s.fsm.state = .idle → Moves i s (pollEntry (setRespValid false (accept .receive b s)))
  | acceptRun {b : Byte} : s.fsm.state = .idle → Moves i s (runEntry (accept .run b s))
  | crcDone {c : Crc} {b : Byte} : i ∈ [Instr.crcInit b, .crcByte b, .crcSpan b] → s.fsm.state = .exec →
      Moves i s (complete (setCrc c s))
  | invalidDone {w : Word} : i = .invalid w → s.fsm.state = .exec → Moves i s (raise .invalidOperation s)
  | encodeDone {b : Byte} {p : List Byte} : i = .encode b → s.fsm.state = .exec → s.regs.cmdSize.toNat ≤ 251 →
      payloadSpan s = .ok p → p.length = s.regs.cmdSize.toNat →
      Moves i s (complete (storeFrame (requestFrame s.regs.cmdAddr s.regs.cmdOpcode p) s))
  | encodeRun {b : Byte} {p : List Byte} : i = .run b → s.fsm.state = .exec → s.regs.cmdSize.toNat ≤ 251 →
      payloadSpan s = .ok p → p.length = s.regs.cmdSize.toNat →
      Moves i s (setFsmState .tx (storeFrame (requestFrame s.regs.cmdAddr s.regs.cmdOpcode p) s))
  | encodeFailed {b : Byte} : i ∈ [Instr.encode b, .run b] → s.fsm.state = .exec → 251 < s.regs.cmdSize.toNat →
      Moves i s (raise .invalidParameter (setTxLen 0 s))
  | txDone {b : Byte} {bs : List Byte} : i = .transmit b → s.fsm.state = .tx → s.regs.txLen.toNat ≠ 0 →
      memSpan s.mem (bufBase .txbuf) s.regs.txLen.toNat = .ok bs → nextWrite s = .ok s.regs.txLen.toNat →
      Moves i s (complete (afterWrite bs s))
  | txRun {b : Byte} {bs : List Byte} : i = .run b → s.fsm.state = .tx → s.regs.txLen.toNat ≠ 0 →
      memSpan s.mem (bufBase .txbuf) s.regs.txLen.toNat = .ok bs → nextWrite s = .ok s.regs.txLen.toNat →
      Moves i s (pollEntry (afterWrite bs s))
  | txEmpty {b : Byte} : i ∈ [Instr.transmit b, .run b] → s.fsm.state = .tx → s.regs.txLen.toNat = 0 →
      Moves i s (raise .invalidParameter s)
  | txFailed {b : Byte} {bs : List Byte} : i ∈ [Instr.transmit b, .run b] → s.fsm.state = .tx →
      s.regs.txLen.toNat ≠ 0 → memSpan s.mem (bufBase .txbuf) s.regs.txLen.toNat = .ok bs →
      nextWrite s ≠ .ok s.regs.txLen.toNat → Moves i s (raise .ioError (afterWrite bs s))
  | poll {b : Byte} : i ∈ [Instr.receive b, .run b] → s.fsm.state = .poll → Moves i s (pollStep s)
  | body {b : Byte} : i ∈ [Instr.receive b, .run b] → s.fsm.state = .body → Moves i s (bodyStep s)
  | decodeDone {b : Byte} {buf : List Byte} :
      (i = .decode b ∧ s.fsm.state = .exec) ∨ (i = .run b ∧ s.fsm.state = .dec) →
      6 ≤ s.regs.rxLen.toNat → s.regs.rxLen.toNat ≤ 256 →
      memSpan s.mem (bufBase .rxbuf) s.regs.rxLen.toNat = .ok buf → bufChecksum buf = bufTrailer buf →
      Moves i s (complete (setResponse (bufResponse buf) (setCrc (bufChecksum buf) s)))
  | decodeTooLong {b : Byte} : (i = .decode b ∧ s.fsm.state = .exec) ∨ (i = .run b ∧ s.fsm.state = .dec) →
      256 < s.regs.rxLen.toNat → Moves i s (raise .invalidParameter s)
  | decodeTooShort {b : Byte} : (i = .decode b ∧ s.fsm.state = .exec) ∨ (i = .run b ∧ s.fsm.state = .dec) →
      s.regs.rxLen.toNat < 6 → Moves i s (raise .malformed s)
  | decodeMismatch {b : Byte} {buf : List Byte} :
      (i = .decode b ∧ s.fsm.state = .exec) ∨ (i = .run b ∧ s.fsm.state = .dec) →
      6 ≤ s.regs.rxLen.toNat → s.regs.rxLen.toNat ≤ 256 →
      memSpan s.mem (bufBase .rxbuf) s.regs.rxLen.toNat = .ok buf → bufChecksum buf ≠ bufTrailer buf →
      Moves i s (raise .checksumMismatch (setCrc (bufChecksum buf) s))
  | opcode {o : Byte} : i ∈ [Instr.wireTagInventory, .wireSetRfPower, .wireSetInventoryTime, .wireSetBuzzerEnabled] →
      decodeWire o = some i → Moves i s (writeOpcode o s)

theorem moves_decode {i : Instr} {b : Byte} {s t : State}
    (hi : (i = .decode b ∧ s.fsm.state = .exec) ∨ (i = .run b ∧ s.fsm.state = .dec))
    (h : finishWith (decodeStage s) = .next t) : Moves i s t := by
  rcases finishWith_next h with ⟨u, hu, rfl⟩ | hu
  · obtain ⟨buf, h6, h256, hb, hc, rfl⟩ := decodeStage_goOn hu
    exact .decodeDone hi h6 h256 hb hc
  · rcases decodeStage_raised hu with ⟨h1, rfl⟩ | ⟨h1, rfl⟩ | ⟨buf, h6, h256, hb, hc, rfl⟩
    · exact .decodeTooLong hi h1
    · exact .decodeTooShort hi h1
    · exact .decodeMismatch hi h6 h256 hb hc

/-- The inversion lemma of `exec`. -/
theorem exec_moves {i : Instr} {s t : State} (h : exec i s = .next t) : Moves i s t := by
  cases i with
  | crcInit b =>
    simp only [exec, execCrcInit] at h
    rcases localOp_cases h with ⟨hs, ht⟩ | ⟨hs, ht⟩ | ⟨hs, hne, ht⟩ <;> cases ht
    · exact .acceptLocal hs (by simp [plainLocal])
    · exact .crcDone (b := b) (by simp) hs
    · exact .stay (by simp [unreached, hs, hne])
  | crcByte b =>
    simp only [exec, execCrcByte] at h
    rcases localOp_cases h with ⟨hs, ht⟩ | ⟨hs, ht⟩ | ⟨hs, hne, ht⟩ <;> cases ht
    · exact .acceptLocal hs (by simp [plainLocal])
    · exact .crcDone (b := b) (by simp) hs
    · exact .stay (by simp [unreached, hs, hne])
  | crcSpan b =>
    simp only [exec, execCrcSpan] at h
    rcases localOp_cases h with ⟨hs, ht⟩ | ⟨hs, ht⟩ | ⟨hs, hne, ht⟩
    · cases ht; exact .acceptLocal hs (by simp [plainLocal])
    · split at ht <;> cases ht
      exact .crcDone (b := b) (by simp) hs
    · cases ht; exact .stay (by simp [unreached, hs, hne])
  | encode b =>
    simp only [exec, execEncode] at h
    rcases localOp_cases h with ⟨hs, ht⟩ | ⟨hs, ht⟩ | ⟨hs, hne, ht⟩
    · cases ht; exact .acceptLocal hs (by simp [plainLocal])
    · rcases finishWith_next ht.symm with ⟨u, hu, rfl⟩ | hu
      · obtain ⟨p, hz, hp, hl, rfl⟩ := encodeStage_goOn hu
        exact .encodeDone rfl hs hz hp hl
      · obtain ⟨hz, rfl⟩ := encodeStage_raised hu
        exact .encodeFailed (b := b) (by simp) hs hz
    · cases ht; exact .stay (by simp [unreached, hs, hne])
  | transmit b =>
    simp only [exec, execTransmit] at h
    cases hs : s.fsm.state <;> simp only [hs] at h
    case idle => cases h; exact .acceptTransmit hs
    case tx =>
      rcases finishWith_next h with ⟨u, hu, rfl⟩ | hu
      · obtain ⟨bs, hn, hb, ha, rfl⟩ := txStep_goOn hu
        exact .txDone rfl hs hn hb ha
      · rcases txStep_raised hu with ⟨hn, rfl⟩ | ⟨bs, hn, hb, ha, rfl⟩
        · exact .txEmpty (b := b) (by simp) hs hn
        · exact .txFailed (b := b) (by simp) hs hn hb ha
    all_goals cases h; exact .stay (by simp [unreached, hs])
  | receive b =>
    simp only [exec, execReceive] at h
    cases hs : s.fsm.state <;> simp only [hs] at h
    case idle => cases h; exact .acceptReceive hs
    case poll => cases h; exact .poll (b := b) (by simp) hs
    case body => cases h; exact .body (b := b) (by simp) hs
    all_goals cases h; exact .stay (by simp [unreached, hs])
  | decode b =>
    simp only [exec, execDecode] at h
    rcases localOp_cases h with ⟨hs, ht⟩ | ⟨hs, ht⟩ | ⟨hs, hne, ht⟩
    · cases ht; exact .acceptDecode hs
    · exact moves_decode (.inl ⟨rfl, hs⟩) ht.symm
    · cases ht; exact .stay (by simp [unreached, hs, hne])
  | run b =>
    simp only [exec, execRun] at h
    cases hs : s.fsm.state <;> simp only [hs] at h
    case idle => cases h; exact .acceptRun hs
    case exec =>
      rcases continueWith_next h with ⟨u, hu, rfl⟩ | hu
      · obtain ⟨p, hz, hp, hl, rfl⟩ := encodeStage_goOn hu
        exact .encodeRun rfl hs hz hp hl
      · obtain ⟨hz, rfl⟩ := encodeStage_raised hu
        exact .encodeFailed (b := b) (by simp) hs hz
    case tx =>
      rcases continueWith_next h with ⟨u, hu, rfl⟩ | hu
      · obtain ⟨bs, hn, hb, ha, rfl⟩ := txStep_goOn hu
        exact .txRun rfl hs hn hb ha
      · rcases txStep_raised hu with ⟨hn, rfl⟩ | ⟨bs, hn, hb, ha, rfl⟩
        · exact .txEmpty (b := b) (by simp) hs hn
        · exact .txFailed (b := b) (by simp) hs hn hb ha
    case poll => cases h; exact .poll (b := b) (by simp) hs
    case body => cases h; exact .body (b := b) (by simp) hs
    case dec => exact moves_decode (.inr ⟨rfl, hs⟩) h
  | invalid w =>
    simp only [exec, execInvalid] at h
    rcases localOp_cases h with ⟨hs, ht⟩ | ⟨hs, ht⟩ | ⟨hs, hne, ht⟩ <;> cases ht
    · exact .acceptLocal hs (by simp [plainLocal])
    · exact .invalidDone rfl hs
    · exact .stay (by simp [unreached, hs, hne])
  | wireTagInventory => cases h; exact .opcode (by simp) rfl
  | wireSetRfPower => cases h; exact .opcode (by simp) rfl
  | wireSetInventoryTime => cases h; exact .opcode (by simp) rfl
  | wireSetBuzzerEnabled => cases h; exact .opcode (by simp) rfl

/-! ### One turn -/

/-- The inversion lemma of `step`: a block step when the agenda is empty, else the agenda's next turn. -/
theorem step_next {s t : State} (h : step s = .next t) :
    configOk s.cfg = true ∧
      ((s.todo = [] ∧ blockStep s = .next t) ∨
        ∃ e rest, s.todo = e :: rest ∧ turn e { s with todo := rest } = .next t) := by
  unfold step advance at h
  split at h
  · next hc =>
    refine ⟨hc, ?_⟩
    split at h
    · next ht => exact .inl ⟨ht, h⟩
    · next e rest ht => exact .inr ⟨e, rest, ht, h⟩
  · cases h

/-- A block step is a transition of the operation in progress, or none while IDLE. -/
theorem blockStep_next {s t : State} (h : blockStep s = .next t) :
    (s.fsm.state = .idle ∧ t = s) ∨ (s.fsm.state ≠ .idle ∧ Moves (instrOf s.fsm.op s.fsm.byte) s t) := by
  unfold blockStep at h
  split at h
  · next hs => cases h; exact .inl ⟨hs, rfl⟩
  · next hs => exact .inr ⟨hs, exec_moves h⟩

/-- A host read changes nothing but what the host has seen, and draws at most one free value (R62). -/
theorem hostRead_next {off n : Nat} {s t : State} (h : hostRead off n s = .next t) :
    (∃ v, t = answerRead v s) ∨ ∃ mask, t = drawRead mask s := by
  unfold hostRead at h
  split at h
  · cases h
  · split at h <;> cases h
    · exact .inr ⟨_, rfl⟩
    · exact .inl ⟨_, rfl⟩
  · split at h
    · cases h
    · split at h <;> cases h
      · exact .inr ⟨_, rfl⟩
      · exact .inl ⟨_, rfl⟩

/-- What a host write can do (R24, R60, R61): nothing, a rejection, a store while idle, or the
instruction that a write to CMD or to CMD_OPCODE names. -/
theorem hostWrite_next {off n : Nat} {v : Word} {s t : State} (h : hostWrite off n v s = .next t) :
    t = s ∨ (s.regs.status.busy = true ∧ t = reject s) ∨
      (off = 0x000 ∧ n = 4 ∧ s.regs.status.busy = false ∧ exec (decodeCmd v) s = .next t) ∨
      (∃ i, off = 0x010 ∧ n = 4 ∧ decodeWire (lowByte v) = some i ∧ exec i s = .next t) ∨
      (s.regs.status.busy = false ∧
        (t = { s with regs := { s.regs with cmdAddr := lowByte v } } ∨
          t = { s with regs := { s.regs with cmdOpcode := lowByte v } } ∨
          t = { s with regs := { s.regs with cmdSize := lowByte v } } ∨
          t = { s with regs := { s.regs with rxLen := v.setWidth 9 } } ∨
          ∃ b i, b ≠ Buf.txbuf ∧ bufAt off = some (b, i) ∧ t = setMem (memWrite s.mem off (lowByte v)) s)) := by
  have wi : ∀ {f : State → State}, writeIfIdle f s = .next t →
      (s.regs.status.busy = true ∧ t = reject s) ∨ (s.regs.status.busy = false ∧ t = f s) := by
    intro f hf
    unfold writeIfIdle at hf
    cases hb : s.regs.status.busy <;> simp only [hb, if_true, Bool.false_eq_true, if_false] at hf <;> cases hf <;> simp
  unfold hostWrite at h
  split at h
  · cases h
  · next r hr =>
    have hr' : n = 4 ∧ regAt off = some r := by
      unfold target at hr
      split at hr
      · next hn => exact ⟨hn, by simpa using hr⟩
      · split at hr <;> simp at hr
    have hcmd : r = .cmd → off = 0x000 := by
      rintro rfl; have h2 := hr'.2; unfold regAt at h2; split at h2 <;> simp_all
    have hopc : r = .cmdOpcode → off = 0x010 := by
      rintro rfl; have h2 := hr'.2; unfold regAt at h2; split at h2 <;> simp_all
    cases r <;> simp only [writeReg] at h
    case cmd =>
      unfold writeCmd at h
      cases hb : s.regs.status.busy <;> simp only [hb, if_true, Bool.false_eq_true, if_false] at h
      · exact .inr (.inr (.inl ⟨hcmd rfl, hr'.1, rfl, h⟩))
      · cases h; exact .inr (.inl ⟨rfl, rfl⟩)
    case cmdOpcode =>
      unfold writeCmdOpcode at h
      split at h
      · next i hi => exact .inr (.inr (.inr (.inl ⟨i, hopc rfl, hr'.1, hi, h⟩)))
      · unfold writeOpcode at h
        cases hb : s.regs.status.busy <;> simp only [hb, if_true, Bool.false_eq_true, if_false] at h <;> cases h <;> simp
    case cmdAddr => rcases wi h with h | ⟨hb, h⟩ <;> simp_all
    case cmdSize => rcases wi h with h | ⟨hb, h⟩ <;> simp_all
    case rxLen => rcases wi h with h | ⟨hb, h⟩ <;> simp_all
    all_goals cases h; exact .inl rfl
  · next b i hr =>
    have hoff : bufAt off = some (b, i) := by
      unfold target at hr
      split at hr
      · simp at hr
      · split at hr
        · obtain ⟨p, hp, hq⟩ := Option.map_eq_some_iff.1 hr
          obtain ⟨rfl, rfl⟩ := Target.byte.inj hq
          exact hp
        · cases hr
    cases b <;> simp only [writeByte] at h
    case txbuf => cases h; exact .inl rfl
    all_goals
      rcases wi h with h | ⟨hb, h⟩
      · exact .inr (.inl h)
      · exact .inr (.inr (.inr (.inr ⟨hb, .inr (.inr (.inr (.inr ⟨_, i, by simp, hoff, h⟩)))⟩)))

end Sys2Proof.Machine
end

