-- ==== Sys2Proof/Laws/PerInstr.lean ====
section
/-! SUPPORT. What holds of every row of the opcode table, one lemma per constructor: an instruction encodes to exactly the
bytes its row gives it (30_encoding.md R70: 32 bits, R82: 8 bits). -/

namespace Sys2Proof.Laws.RowWidth

/-- The width in bits that spec/opcode_table.json gives an instruction's row. -/
def bits : Instr → Nat
  | .crcInit _ | .crcByte _ | .crcSpan _ | .encode _ | .transmit _ | .receive _ | .decode _ | .run _ | .invalid _ => 32
  | .wireTagInventory | .wireSetRfPower | .wireSetInventoryTime | .wireSetBuzzerEnabled => 8

def Statement (i : Instr) : Prop := 8 * (encode i).length = bits i

theorem crcInit (b : Byte) : Statement (.crcInit b) := rfl
theorem crcByte (b : Byte) : Statement (.crcByte b) := rfl
theorem crcSpan (b : Byte) : Statement (.crcSpan b) := rfl
theorem encode (b : Byte) : Statement (.encode b) := rfl
theorem transmit (b : Byte) : Statement (.transmit b) := rfl
theorem receive (b : Byte) : Statement (.receive b) := rfl
theorem decode (b : Byte) : Statement (.decode b) := rfl
theorem run (b : Byte) : Statement (.run b) := rfl
theorem invalid (w : Word) : Statement (.invalid w) := rfl
theorem wireTagInventory : Statement .wireTagInventory := rfl
theorem wireSetRfPower : Statement .wireSetRfPower := rfl
theorem wireSetInventoryTime : Statement .wireSetInventoryTime := rfl
theorem wireSetBuzzerEnabled : Statement .wireSetBuzzerEnabled := rfl

end Sys2Proof.Laws.RowWidth
end

