-- ==== Sys2Proof/Tests/Slice0.lean ====
section
/-! SUPPORT. The model's own tests: ill-formed terms, words written out bit by bit from 30_encoding.md, single steps with
the results that 95_test_vectors.md states (V<n>, S<n>), and for each statement a witness that meets its hypotheses. -/

set_option Elab.async false

namespace Sys2Proof.Tests

open Sys2Proof Sys2Proof.Machine

/-! ### Small states -/

/-- After reset, with both budgets 3. -/
def fresh : State := { State.reset with cfg := ⟨3, 3, 0⟩ }

/-- `s` with operation `op` in state `f`, BUSY set. -/
def busyIn (op : Op) (f : FsmState) (s : State) : State :=
  { s with
    regs := { s.regs with status := { s.regs.status with busy := true } }
    fsm := { s.fsm with op := op, state := f } }

/-- `s` with bytes from window offset `off` on. -/
def withBytes (off : Nat) (bs : List Byte) (s : State) : State := setMem (memWriteSpan s.mem off bs) s

/-- `s` with scripted channel answers. -/
def withScript (w : List WriteAnswer) (r : List ReadAnswer) (s : State) : State := { s with chan := ⟨w, r, []⟩ }

/-- `s` with a payload, address 0x00 and opcode 0x2F (section 3 of the vectors). -/
def withPayload (p : List Byte) (s : State) : State :=
  withBytes 0x100 p { s with regs := { s.regs with cmdOpcode := 0x2F#8, cmdSize := BitVec.ofNat 8 p.length } }

/-- `s` with the 5-byte frame of V3.7 in TXBUF. -/
def withFrame (s : State) : State :=
  withBytes 0x200 [0x04#8, 0x00#8, 0x2F#8, 0xA7#8, 0x83#8] { s with regs := { s.regs with txLen := 5#9 } }

/-- `s` with a receive buffer and its RX_LEN. -/
def withBuffer (buf : List Byte) (s : State) : State :=
  withBytes 0x300 buf { s with regs := { s.regs with rxLen := BitVec.ofNat 9 buf.length } }

/-- `s` with an agenda. -/
def withTodo (es : List Event) (s : State) : State := { s with todo := es }

/-- `s` with a receive in BODY: declared length `len`, nothing received yet. -/
def inBody (op : Op) (len : Byte) (s : State) : State :=
  let t := busyIn op .body s
  { t with fsm := { t.fsm with declLen := len, pollCnt := 1 }, regs := { t.regs with pollAttempts := 1#32 } }

/-- The S3 response of 6 bytes. -/
def s3 : List Byte := [0x05#8, 0x00#8, 0x2F#8, 0x00#8, 0x8D#8, 0xCD#8]

/-- What `f` says of the next state. -/
def after {α : Type} (f : State → α) (r : Result) : Option α :=
  match r with
  | .next s => some (f s)
  | .fault _ => none
  | .refused _ => none

/-- The fault, if there is one. -/
def faulted (r : Result) : Option Fault :=
  match r with
  | .next _ => none
  | .fault f => some f
  | .refused _ => none

/-- STATUS as the host reads it. -/
def status (s : State) : Word := statusWord s.regs.status

/-! ### Well-formedness: the one check -/

/-- R73: 0x31 has OP = 1 but a reserved bit set; 0x01 is CRC_INIT, not INVALID. -/
theorem test_wellFormed_refuses_legal_word :
    (Instr.invalid 0x00000001#32).wellFormed = false ∧ (Instr.invalid 0x00003108#32).wellFormed = false ∧
      (Instr.invalid 0x00000031#32).wellFormed = true := by decide

/-! ### Words written out bit by bit (R70, R71, R82, R88) -/

theorem test_word_crcInit : decodeCmd 0b00000000000000000000000000000001#32 = .crcInit 0x00#8 := by decide
theorem test_word_crcByte : decodeCmd 0b00000000000000000011000100000010#32 = .crcByte 0x31#8 := by decide
theorem test_word_crcSpan : decodeCmd 0b00000000000000000000000000000011#32 = .crcSpan 0x00#8 := by decide
theorem test_word_encode : decodeCmd 0b00000000000000001010101100000100#32 = .encode 0xAB#8 := by decide
theorem test_word_transmit : decodeCmd 0b00000000000000000000000000000101#32 = .transmit 0x00#8 := by decide
theorem test_word_receive : decodeCmd 0b00000000000000000000000000000110#32 = .receive 0x00#8 := by decide
theorem test_word_decode : decodeCmd 0b00000000000000000000000000000111#32 = .decode 0x00#8 := by decide
theorem test_word_run : decodeCmd 0b00000000000000000000000000001000#32 = .run 0x00#8 := by decide
theorem test_word_invalid :
    decodeCmd 0b00000000000000010000000000000001#32 = .invalid 0x00010001#32 ∧
      decodeCmd 0b00000000000000000000000000010100#32 = .invalid 0x00000014#32 ∧
      decodeCmd 0b00000000000000000000000000000000#32 = .invalid 0#32 := by decide
theorem test_word_wire :
    decodeTableWord 8 0b00000001 = some .wireTagInventory ∧ decodeTableWord 8 0b00101111 = some .wireSetRfPower ∧
      decodeTableWord 8 0b00100101 = some .wireSetInventoryTime ∧
      decodeTableWord 8 0b01000000 = some .wireSetBuzzerEnabled ∧ decodeTableWord 8 0b00000010 = none := by decide

/-- R58: the low byte of CMD comes first. -/
theorem test_encode_bus_order : encode (.crcByte 0x31#8) = [0x02#8, 0x31#8, 0x00#8, 0x00#8] := by decide

/-! ### Single steps, with the results of 95_test_vectors.md -/

/-- V2.1, V2.9. -/
theorem test_crcInit :
    let s := busyIn .crcInit .exec (setRespValid true (setCrc 0x1234#16 fresh))
    after (fun t => (t.regs.crc, status t)) (exec (.crcInit 0#8) s) = some (0xFFFF#16, 0x0A#32) := by decide

/-- V2.5: the byte comes from fsm.byte, latched at the accepted write. -/
theorem test_crcByte :
    let s := busyIn .crcByte .exec fresh
    after (fun t => (t.regs.crc, status t)) (exec (.crcByte 0#8) { s with fsm := { s.fsm with byte := 0x31#8 } }) =
      some (0x2F8D#16, 0x02#32) := by decide

/-- V1.4, V1.6. -/
theorem test_crcStep_values : crcStep 0xFFFF#16 0x01#8 = 0x1E0E#16 ∧ crcStep 0xFFFF#16 0x80#8 = 0x8B8F#16 := by decide

/-- V2.7. -/
theorem test_crcSpan :
    after (fun t => (t.regs.crc, status t))
      (exec (.crcSpan 0#8) (busyIn .crcSpan .exec
        (withPayload [0x31#8, 0x32#8, 0x33#8, 0x34#8, 0x35#8, 0x36#8, 0x37#8, 0x38#8, 0x39#8] fresh))) =
      some (0x6F91#16, 0x02#32) := by decide +kernel

/-- V2.8: CMD_SIZE = 3, PBUF[2] unwritten. -/
theorem test_crcSpan_unwritten :
    let s := busyIn .crcSpan .exec (withPayload [0x31#8, 0x32#8] fresh)
    faulted (exec (.crcSpan 0#8) { s with regs := { s.regs with cmdSize := 3#8 } }) = some (.uninitRead 0x102) := by decide

/-- V3.1. -/
theorem test_encode :
    after (fun t => (memSpan t.mem 0x200 6 |>.toOption, t.regs.txLen, t.regs.crc, status t))
      (exec (.encode 0#8) (busyIn .encode .exec (withPayload [0x1E#8] fresh))) =
      some (some [0x05#8, 0x00#8, 0x2F#8, 0x1E#8, 0x72#8, 0x34#8], 6#9, 0x3472#16, 0x02#32) := by decide +kernel

/-- V3.10: InvalidParameter before any PBUF byte is read. -/
theorem test_encode_too_long :
    let s := busyIn .encode .exec (withFrame fresh)
    after (fun t => (t.regs.txLen, t.regs.crc, status t, t.chan.calls))
      (exec (.encode 0#8) { s with regs := { s.regs with cmdSize := 252#8 } }) =
      some (0#9, 0xFFFF#16, 0x52#32, []) := by decide

/-- V3.20, V3.21 and V3.23, on the frame of V3.7. -/
theorem test_transmit :
    (∀ p ∈ [(WriteAnswer.ok 5, 0x02#32), (.ok 3, 0x12#32), (.ok 6, 0x12#32), (.err, 0x12#32)],
      after (fun t => (status t, t.chan.calls, t.regs.txLen))
        (exec (.transmit 0#8) (busyIn .transmit .tx (withScript [p.1] [] (withFrame fresh)))) =
        some (p.2, [.write [0x04#8, 0x00#8, 0x2F#8, 0xA7#8, 0x83#8] p.1], 5#9)) := by decide

/-- V3.24: after reset nothing is sent. -/
theorem test_transmit_nothing :
    after (fun t => (status t, t.chan.calls)) (exec (.transmit 0#8) (busyIn .transmit .tx fresh)) =
      some (0x52#32, []) := by decide

/-- V4.2, its last attempt; V4.5: an error on the last attempt is IO_ERROR. -/
theorem test_receive_poll :
    (∀ p ∈ [(ReadAnswer.ok [], 0x22#32), (.err, 0x12#32)],
      let s := withScript [] [p.1] (busyIn .receive .poll fresh)
      after (fun t => (status t, t.regs.pollAttempts, t.regs.rxLen))
        (exec (.receive 0#8) { s with fsm := { s.fsm with pollCnt := 2 }, regs := { s.regs with rxLen := 6#9 } }) =
        some (p.2, 3#32, 0#9)) := by decide

/-- V4.12, its last read: the count byte and RX_LEN. -/
theorem test_receive_body :
    after (fun t => (status t, (memSpan t.mem 0x300 3).toOption, t.regs.rxLen, t.chan.calls))
      (exec (.receive 0#8) (withScript [] [.ok [0xAA#8, 0xBB#8, 0xCC#8]] (inBody .receive 2#8 fresh))) =
      some (0x02#32, some [0x02#8, 0xAA#8, 0xBB#8], 3#9, [.read 2 (.ok [0xAA#8, 0xBB#8])]) := by decide

/-- V5.1. -/
theorem test_decode :
    after (fun t => (status t, t.regs.respSize, t.regs.respCode, t.regs.respStatus, t.regs.crc))
      (exec (.decode 0#8) (busyIn .decode .exec (withBuffer s3 fresh))) =
      some (0x0A#32, 0x00#8, 0x2F#8, 0x00#8, 0xCD8D#16) := by decide +kernel

/-- V5.11, S8: the code byte flipped. V5.6: five bytes. -/
theorem test_decode_rejects :
    after (fun t => (status t, t.regs.crc))
        (exec (.decode 0#8) (busyIn .decode .exec
          (withBuffer [0x05#8, 0x00#8, 0x2E#8, 0x00#8, 0x8D#8, 0xCD#8] fresh))) = some (0x42#32, 0xD455#16) ∧
      after (fun t => (status t, t.regs.crc))
        (exec (.decode 0#8) (busyIn .decode .exec
          (withBuffer [0x04#8, 0x00#8, 0x2F#8, 0xA7#8, 0x83#8] fresh))) = some (0x32#32, 0xFFFF#16) := by decide +kernel

/-- V6.10, its last step: RUN's decode, the reply not matched to the request. -/
theorem test_run_dec :
    after (fun t => (status t, t.regs.respAddr, t.regs.respStatus))
      (exec (.run 0#8) (busyIn .run .dec
        (withBuffer [0x05#8, 0x12#8, 0x2F#8, 0x01#8, 0x29#8, 0xEC#8] fresh))) =
      some (0x0A#32, 0x12#8, 0x01#8) := by decide +kernel

/-- V6.3: a short write ends RUN with no read; with the whole count it goes on to POLL. -/
theorem test_run_tx :
    after (fun t => (status t, t.fsm.state, t.regs.txLen))
        (exec (.run 0#8) (busyIn .run .tx (withScript [.ok 4] [] (withFrame fresh)))) = some (0x12#32, .idle, 5#9) ∧
      after (fun t => (status t, t.fsm.state))
        (exec (.run 0#8) (busyIn .run .tx (withScript [.ok 5] [] (withFrame fresh)))) = some (0x01#32, .poll) := by decide

/-- V7.1, its EXEC step; V7.4 keeps CRC. -/
theorem test_invalid :
    after (fun t => (status t, t.regs.crc)) (exec (.invalid 0x00010001#32) (busyIn .invalid .exec (setCrc 7#16 fresh))) =
      some (0x62#32, 7#16) := by decide

/-- R82, R61: stored while idle, rejected while busy. -/
theorem test_wire :
    after (fun t => t.regs.cmdOpcode) (exec .wireSetRfPower fresh) = some 0x2F#8 ∧
      after (fun t => (t.regs.cmdOpcode, status t)) (exec .wireTagInventory (busyIn .run .poll fresh)) =
        some (0x00#8, 0x05#32) := by decide

/-! ### The bus, reset and a step -/

/-- V7.11, V7.12. -/
theorem test_write_drops_reserved_bits :
    after (fun t => t.regs.cmdSize) (hostWrite 0x014 4 0x1FF#32 fresh) = some 0xFF#8 ∧
      after (fun t => t.regs.rxLen) (hostWrite 0x01C 4 0xFFFF#32 fresh) = some 0x1FF#9 := by decide

/-- V7.7, V7.8, V7.9. -/
theorem test_writes_while_busy :
    let s := busyIn .run .poll fresh
    after (fun t => (status t, t.fsm)) (hostWrite 0x000 4 1#32 s) = some (0x05#32, s.fsm) ∧
      after (fun t => (status t, t.regs.cmdSize)) (hostWrite 0x014 4 9#32 s) = some (0x05#32, 0#8) ∧
      after status (hostWrite 0x008 4 0#32 s) = some 0x01#32 := by decide

/-- V7.13–V7.16, V7.18. -/
theorem test_bus_faults :
    faulted (hostWrite 0x000 1 0#32 fresh) = some (.busError 0x000 1) ∧
      faulted (hostRead 0x102 4 fresh) = some (.busError 0x102 4) ∧
      faulted (hostRead 0x034 4 fresh) = some (.busError 0x034 4) ∧
      faulted (hostRead 0x00A 4 fresh) = some (.busError 0x00A 4) ∧
      faulted (hostRead 0x100 1 fresh) = some (.uninitRead 0x100) := by decide

/-- V7.17, V7.20. -/
theorem test_reads_after_reset :
    after (fun t => t.seen) (hostRead 0x004 4 fresh) = some [0#32] ∧
      after (fun t => t.seen) (hostRead 0x008 4 fresh) = some [0x0000FFFF#32] ∧
      after (fun t => t.seen) (hostRead 0x000 4 fresh) = some [0#32] := by decide

/-- V7.19: a reset aborts a RUN in BODY without a completion. -/
theorem test_reset_aborts :
    after (fun t => (status t, t.fsm.state, t.mem, t.chan.readAns))
      (step (withTodo [.reset] (withScript [] [.ok [7#8]] (inBody .run 5#8 (withFrame fresh))))) =
      some (0#32, .idle, [], [.ok [7#8]]) := by decide

/-- The word of V2.5 placed for fetching starts CRC_BYTE 0x31. -/
theorem test_step_runs_fetch_word :
    after (fun t => (t.fsm.op, t.fsm.byte, t.fsm.state, status t)) (step (State.reset.withFetchWord 32 0x3102)) =
      some (.crcByte, 0x31#8, .exec, 0x01#32) := by decide

/-- V7.10: an accepted write clears REJ, DONE and ERR. -/
theorem test_accept_clears :
    let s := { fresh with regs := { fresh.regs with status := ⟨false, true, true, true, .timeout⟩ } }
    after status (hostWrite 0x000 4 1#32 s) = some 0x09#32 := by decide

/-- R53: the window's first and last offset at a base of 0x40000000, and the address after it. -/
theorem test_windowOffset :
    (∀ p ∈ [(0x40000000, some 0x000), (0x400003FF, some 0x3FF), (0x40000400, none), (0x3FFFFFFF, none)],
      windowOffset ⟨1, 1, 0x40000000⟩ p.1 = p.2) := by decide

theorem test_reset_memory_wf : Memory.wf State.reset.mem := by decide

/-! ### Good states, one for each kind of state -/

/-- A check of `Inv` that runs. -/
def invCheck (s : State) : Bool :=
  decide (Memory.wf s.mem) && s.mem.all (fun c => (bufAt c.1).isSome) &&
  decide (s.regs.status.busy = true ↔ s.fsm.state ≠ .idle) &&
  decide (s.regs.status.busy = true → s.regs.status.done = false ∧ s.regs.status.err = .none) &&
  opFits s.fsm.state s.fsm.op &&
  decide (s.regs.status.busy = true → s.fsm.op ∈ [Op.receive, .decode, .run] → s.regs.status.respValid = false) &&
  (decide (s.regs.txLen = 0#9) ||
    match memSpan s.mem (bufBase .txbuf) s.regs.txLen.toNat with
    | .ok f =>
      match encodeFrame (f.getD 1 0) (f.getD 2 0) ((f.drop 3).take (f.length - 5)) with
      | .ok g => decide (g = f)
      | .error _ => false
    | .error _ => false) &&
  decide (s.fsm.state = .tx → s.fsm.op = .run → s.regs.txLen ≠ 0#9) &&
  decide (s.fsm.state = .poll → s.fsm.pollCnt < s.cfg.pollBudget ∧ s.fsm.got = 0 ∧ s.fsm.bodyCnt = 0 ∧
    s.regs.pollAttempts = BitVec.ofNat 32 s.fsm.pollCnt) &&
  decide (s.fsm.state = .body → s.fsm.pollCnt ≤ s.cfg.pollBudget ∧ s.fsm.got < s.fsm.declLen.toNat ∧
    s.fsm.bodyCnt < s.cfg.bodyPollBudget ∧ s.regs.pollAttempts = BitVec.ofNat 32 s.fsm.pollCnt ∧
    ∀ j, j < s.fsm.got + 1 → 1 ≤ j → (memRead s.mem (bufBase .rxbuf + j)).isSome = true) &&
  decide (s.fsm.state = .dec → s.regs.rxLen.toNat = 1 + s.fsm.declLen.toNat ∧
    ∀ j, j < s.regs.rxLen.toNat → (memRead s.mem (bufBase .rxbuf + j)).isSome = true)

theorem inv_of_check {s : State} (h : invCheck s = true) : Inv s := by
  simp only [invCheck, Bool.and_eq_true, Bool.or_eq_true, decide_eq_true_eq, List.all_eq_true] at h
  obtain ⟨⟨⟨⟨⟨⟨⟨⟨⟨⟨h1, h2⟩, h3⟩, h4⟩, h5⟩, h6⟩, h7⟩, h8⟩, h9⟩, h10⟩, h11⟩ := h
  refine ⟨h1, h2, h3, h4, h5, h6, fun hn => ?_, h8, h9, fun hb => ?_, h11⟩
  · have h7 := h7.resolve_left hn
    split at h7
    · next f hf =>
      split at h7
      · next g hg =>
        have hgf : g = f := of_decide_eq_true h7
        subst hgf
        exact ⟨_, _, _, _, hg, hf⟩
      · cases h7
    · cases h7
  · obtain ⟨a, b, c, d, e⟩ := h10 hb
    exact ⟨a, b, c, d, fun j hj hg => e j (by omega) hj⟩

/-- One good state of each kind: IDLE; EXEC of each local operation; TX; POLL; BODY; DEC. -/
def goodExec (op : Op) : State := busyIn op .exec (withFrame (withPayload [0x1E#8] fresh))
def goodTx (op : Op) : State := busyIn op .tx (withScript [.ok 5] [] (withFrame fresh))
def goodPoll (op : Op) : State := busyIn op .poll (withScript [] [.ok [], .ok [], .ok []] fresh)
def goodBody (op : Op) : State := withScript [] [.ok [1#8]] (inBody op 255#8 fresh)
def goodDec : State :=
  let s := busyIn .run .dec (withBuffer s3 fresh)
  { s with fsm := { s.fsm with declLen := 5#8, got := 5 } }

theorem good_idle : Inv fresh := inv_of_check (by decide)
theorem good_exec : ∀ op ∈ [Op.crcInit, .crcByte, .crcSpan, .encode, .decode, .run, .invalid], Inv (goodExec op) :=
  fun op h => inv_of_check (by revert h; cases op <;> decide +kernel)
theorem good_tx : ∀ op ∈ [Op.transmit, .run], Inv (goodTx op) :=
  fun op h => inv_of_check (by revert h; cases op <;> decide +kernel)
theorem good_poll : ∀ op ∈ [Op.receive, .run], Inv (goodPoll op) :=
  fun op h => inv_of_check (by revert h; cases op <;> decide +kernel)
theorem good_body : ∀ op ∈ [Op.receive, .run], Inv (goodBody op) :=
  fun op h => inv_of_check (by revert h; cases op <;> decide +kernel)
theorem good_dec : Inv goodDec := inv_of_check (by decide +kernel)

/-! ### Witnesses: what meets the hypotheses of each statement, clause by clause

Each theorem is named after the statement it stands for. States are the ones above; values stand at the ends of their ranges. -/

theorem next_of_after {α : Type} {f : State → α} {r : Result} {x : α} (h : after f r = some x) :
    ∃ t, r = .next t ∧ f t = x := by
  cases r <;> simp only [after, Option.some.injEq, reduceCtorEq] at h
  exact ⟨_, rfl, h⟩

theorem witness_CommandWordSelectsOperation :
    (∀ w ∈ [0x00000000#32, 0x00000009#32, 0x0000000F#32, 0x00000014#32, 0x00000081#32, 0x00010001#32, 0x80000008#32],
      w.extractLsb' 0 4 = 0#4 ∨ 9 ≤ (w.extractLsb' 0 4).toNat ∨ w.extractLsb' 4 4 ≠ 0#4 ∨ w.extractLsb' 16 16 ≠ 0#16) ∧
    ∀ p ∈ [(0x0000FF01#32, 1#4), (0x00000002#32, 2#4), (0x0000FF03#32, 3#4), (0x0000AB04#32, 4#4), (0x00000005#32, 5#4),
        (0x00000006#32, 6#4), (0x00000007#32, 7#4), (0x0000FF08#32, 8#4)],
      p.1.extractLsb' 4 4 = 0#4 ∧ p.1.extractLsb' 16 16 = 0#16 ∧ p.1.extractLsb' 0 4 = p.2 := by simp

theorem witness_DecodeOfEncodeIsIdentity :
    ∀ i ∈ [Instr.run 0xFF#8, .invalid 0x00000009#32, .invalid 0xFFFFFFFF#32, .wireSetBuzzerEnabled],
      i.wellFormed = true := by decide

theorem witness_EncodeOfDecodeIsIdentity :
    decode [0x08#8, 0xFF#8, 0x00#8, 0x00#8] = .ok (.run 0xFF#8) ∧ decode [0x40#8] = .ok .wireSetBuzzerEnabled ∧
      decode [0x08#8, 0x00#8, 0x00#8, 0x80#8] = .ok (.invalid 0x80000008#32) := ⟨rfl, rfl, rfl⟩

theorem witness_StepRunsDecodedInstruction :
    configOk fresh.cfg = true ∧ fresh.regs.status.busy = false ∧
      decode (wordBytes 0x0000FF02#32) = .ok (.crcByte 0xFF#8) ∧
      decode [(0x0000002F#32 : Word).extractLsb' 0 8] = .ok .wireSetRfPower ∧
      (blockTurn (goodExec .encode) ∧ (goodExec .encode).fsm.state ≠ .idle ∧
        instrOf (goodExec .encode).fsm.op (goodExec .encode).fsm.byte = .encode 0#8) ∧
      decodeTableWord 8 0x40 = some .wireSetBuzzerEnabled ∧ decodeTableWord 32 8 = some (.run 0#8) :=
  ⟨by decide, by decide, rfl, rfl, ⟨.inl rfl, by decide, rfl⟩, rfl, rfl⟩

/-- IDLE and EXEC are there for every operation that starts in IDLE and works in EXEC (CRC_INIT, CRC_BYTE, INVALID). -/
theorem witness_CrcInitSetsInitialValue : fresh.fsm.state = .idle ∧ (goodExec .crcInit).fsm.state = .exec := by decide
theorem witness_CrcByteFoldsOneByte : fresh.fsm.state = .idle ∧ (goodExec .crcByte).fsm.state = .exec := by decide
theorem witness_RunningCrcIsCrc16 : fresh.fsm.state = .idle := by decide
theorem witness_InvalidReportsInvalidOperation :
    fresh.fsm.state = .idle ∧ (goodExec .invalid).fsm.state = .exec := by decide

/-- What the host wrote as payload is CMD_SIZE bytes, and PBUF holds it. -/
theorem payload_held (op : Op) (d : List Byte) (h : d.length < 256) :
    let s := busyIn op .exec (withPayload d fresh)
    s.fsm.state = .exec ∧ d.length = s.regs.cmdSize.toNat ∧ holdsAt 0x100 d s.mem :=
  ⟨rfl, (Nat.mod_eq_of_lt h).symm, fun _ h => memRead_memWriteSpan_inside _ h⟩

/-- What the host wrote as a receive buffer is RX_LEN bytes, and RXBUF holds it. -/
theorem buffer_held (op : Op) (d : List Byte) (h : d.length < 512) :
    let s := busyIn op .exec (withBuffer d fresh)
    s.fsm.state = .exec ∧ d.length = s.regs.rxLen.toNat ∧ holdsAt 0x300 d s.mem :=
  ⟨rfl, (Nat.mod_eq_of_lt h).symm, fun _ h => memRead_memWriteSpan_inside _ h⟩

theorem length_replicate_lt {n k : Nat} {b : Byte} (h : n < k) : (List.replicate n b).length < k := by
  rwa [List.length_replicate]

/-- A span of 0 and of 255 bytes, and one with an unwritten byte. -/
theorem witness_CrcSpanChecksumsPayload :
    (∀ d ∈ [[], List.replicate 255 0x5A#8],
      let s := busyIn .crcSpan .exec (withPayload d fresh)
      s.fsm.state = .exec ∧ d.length = s.regs.cmdSize.toNat ∧ holdsAt 0x100 d s.mem) ∧
    unwrittenIn 0x100 1 fresh.mem :=
  ⟨List.forall_mem_cons.2 ⟨payload_held _ _ (by decide),
    List.forall_mem_singleton.2 (payload_held _ _ (length_replicate_lt (by decide)))⟩, 0, by decide⟩

theorem witness_ChecksumLinearAndBitSensitive :
    [0x01#8].length = [0x80#8].length ∧ 5 < s3.length ∧ 0 < s3.length ∧ 7 < 8 := by decide

theorem witness_RequestFrameLayout :
    251 < (List.replicate 252 0#8).length ∧ (List.replicate 251 0#8).length ≤ 251 ∧ ([] : List Byte).length ≤ 251 := by
  simp only [List.length_replicate]; decide

/-- Payloads of 0 and 251 bytes; a declared size of 252; an unwritten payload byte. -/
theorem witness_EncodeBuildsRequestFrame :
    fresh.fsm.state = .idle ∧
    (∀ p ∈ [[], List.replicate 251 0x5A#8],
      let s := busyIn .encode .exec (withPayload p fresh)
      s.fsm.state = .exec ∧ p.length = s.regs.cmdSize.toNat ∧ holdsAt 0x100 p s.mem) ∧
    (251#8).toNat ≤ 251 ∧ 251 < (252#8).toNat ∧ unwrittenIn 0x100 251 fresh.mem :=
  ⟨rfl, List.forall_mem_cons.2 ⟨payload_held _ _ (by decide),
    List.forall_mem_singleton.2 (payload_held _ _ (length_replicate_lt (by decide)))⟩, by decide, by decide, 250, by decide⟩

theorem witness_TransmitWritesFrameOnce :
    fresh.fsm.state = .idle ∧ (busyIn .transmit .tx fresh).regs.txLen = 0#9 ∧
    (let s := goodTx .transmit
     let f := [0x04#8, 0x00#8, 0x2F#8, 0xA7#8, 0x83#8]
     s.fsm.state = .tx ∧ s.regs.txLen ≠ 0#9 ∧ f.length = s.regs.txLen.toNat ∧
       (∀ i, i < f.length → memRead s.mem (0x200 + i) = f[i]?) ∧ nextWrite s = .ok f.length ∧
       nextWrite (withScript [.ok 6] [] s) ≠ .ok f.length ∧ nextWrite (withScript [.err] [] s) ≠ .ok f.length) := by decide

theorem witness_ReceiveStartsPolling : fresh.fsm.state = .idle := by decide

/-- Each answer, on the first attempt and on the last (budget 3). -/
theorem witness_PollStepByAnswer :
    (∀ op ∈ [Op.receive, .run], (goodPoll op).fsm.state = .poll ∧ (goodPoll op).fsm.op = op ∧
      nextRead 1 (goodPoll op) = .ok [] ∧ (goodPoll op).fsm.pollCnt + 1 ≠ (goodPoll op).cfg.pollBudget) ∧
    ({ (goodPoll .run).fsm with pollCnt := 2 } : Fsm).pollCnt + 1 = fresh.cfg.pollBudget ∧
    (∀ a ∈ [ReadAnswer.err, .ok [0x00#8], .ok [0x01#8], .ok [0xFF#8]],
      nextRead 1 (withScript [] [a] (goodPoll .run)) = a) := by decide

/-- 255 bytes missing and 1 byte missing; each answer. -/
theorem witness_BodyStepByAnswer :
    (∀ op ∈ [Op.receive, .run], (goodBody op).fsm.state = .body ∧ (goodBody op).fsm.op = op ∧
      (goodBody op).fsm.declLen.toNat = (goodBody op).fsm.got + 255 ∧ nextRead 255 (goodBody op) = .ok [1#8]) ∧
    (inBody .run 1#8 fresh).fsm.declLen.toNat = (inBody .run 1#8 fresh).fsm.got + 1 ∧
    nextRead 255 (withScript [] [.err] (goodBody .run)) = .err ∧
    nextRead 255 (withScript [] [.ok []] (goodBody .run)) = .ok [] ∧
    nextRead 1 (withScript [] [.ok [7#8]] (inBody .run 1#8 fresh)) = .ok [7#8] ∧
    (goodBody .run).fsm.bodyCnt + 1 ≠ (goodBody .run).cfg.bodyPollBudget ∧
    ({ (goodBody .run).fsm with bodyCnt := 2 } : Fsm).bodyCnt + 1 = fresh.cfg.bodyPollBudget := by decide

theorem witness_EmptyChannelTimesOutExactly :
    ∀ op ∈ [Op.receive, .run], configOk (goodPoll op).cfg = true ∧ (goodPoll op).fsm.state = .poll ∧
      (goodPoll op).fsm.op = op ∧ (goodPoll op).fsm.pollCnt = 0 ∧
      (goodPoll op).chan.readAns.take (goodPoll op).cfg.pollBudget =
        List.replicate (goodPoll op).cfg.pollBudget (.ok []) := by decide

theorem witness_ReceiveEndsWithinBound :
    ∀ op ∈ [Op.receive, .run], Inv (goodPoll op) ∧ configOk (goodPoll op).cfg = true ∧ (goodPoll op).todo = [] ∧
      (goodPoll op).fsm.state = .poll ∧ (goodPoll op).fsm.pollCnt = 0 := by
  intro op h
  exact ⟨good_poll op h, rfl, rfl, rfl, rfl⟩

theorem witness_DecodeBufMakesTwoChecks :
    ([] : List Byte).length < 6 ∧ (s3.take 5).length < 6 ∧ 6 ≤ s3.length ∧ s3[s3.length - 2]? = some 0x8D#8 ∧
      s3[s3.length - 1]? = some 0xCD#8 ∧
      crc16 (s3.take (s3.length - 2)) = ((0x8D#8).setWidth 16 ||| ((0xCD#8).setWidth 16 <<< 8)) ∧
      crc16 (s3.take (s3.length - 2)) ≠ ((0x8D#8).setWidth 16 ||| ((0x4D#8).setWidth 16 <<< 8)) ∧ s3.length ≤ 261 ∧
      (List.replicate 261 0#8).length ≤ 261 := by
  decide +kernel

/-- RX_LEN 257, 5, 6 and 256; a valid buffer, a mismatching one, an unwritten byte. -/
theorem witness_DecodeStageValidatesBuffer :
    fresh.fsm.state = .idle ∧ (goodExec .decode).fsm.state = .exec ∧ goodDec.fsm.state = .dec ∧
    (∀ buf ∈ [s3, List.replicate 256 0x5A#8],
      let s := busyIn .decode .exec (withBuffer buf fresh)
      s.fsm.state = .exec ∧ buf.length = s.regs.rxLen.toNat ∧ holdsAt 0x300 buf s.mem) ∧
    6 ≤ s3.length ∧ (List.replicate 256 0x5A#8).length ≤ 256 ∧
    (s3[1]? = some 0x00#8 ∧ s3[2]? = some 0x2F#8 ∧ s3[3]? = some 0x00#8 ∧ s3[s3.length - 2]? = some 0x8D#8 ∧
      s3[s3.length - 1]? = some 0xCD#8 ∧
      crc16 (s3.take (s3.length - 2)) = ((0x8D#8).setWidth 16 ||| ((0xCD#8).setWidth 16 <<< 8))) ∧
    crc16 [0x05#8, 0x00#8, 0x2E#8, 0x00#8] ≠ ((0x8D#8).setWidth 16 ||| ((0xCD#8).setWidth 16 <<< 8)) ∧
    256 < (257#9).toNat ∧ (5#9).toNat < 6 ∧ unwrittenIn 0x300 6 fresh.mem :=
  ⟨rfl, rfl, rfl, List.forall_mem_cons.2 ⟨buffer_held _ _ (by decide),
    List.forall_mem_singleton.2 (buffer_held _ _ (length_replicate_lt (by decide)))⟩, by decide,
    Nat.le_of_lt_succ (length_replicate_lt (by decide)), by decide +kernel, by decide +kernel, by decide, by decide,
    5, by decide⟩

theorem witness_DecodeBoundaryAtSixBytes : (s3.take 4).length = 4 ∧ (s3.take 5).length = 5 := by decide

theorem witness_ResponseFrameRoundTrip :
    (List.replicate 250 0#8).length ≤ 250 ∧ ([] : List Byte).length ≤ 250 ∧ (List.replicate 250 0#8).length + 1 ≤ 251 := by
  simp only [List.length_replicate]; decide

theorem witness_SingleBitTamperIsDetected :
    decodeBuf s3 = .ok ⟨0#8, 0x00#8, 0x2F#8, 0x00#8, []⟩ ∧ 0 < s3.length ∧ 5 < s3.length ∧ 0 < 8 ∧ 7 < 8 := by
  decide +kernel

theorem witness_RunChainsEncodeAndWrite :
    fresh.fsm.state = .idle ∧
    (let s := goodExec .run
     s.fsm.state = .exec ∧ s.regs.cmdSize.toNat ≤ 251 ∧ [0x1E#8].length = s.regs.cmdSize.toNat ∧
       memRead s.mem 0x100 = some 0x1E#8) ∧
    251 < (255#8).toNat ∧ (busyIn .run .tx fresh).regs.txLen = 0#9 ∧
    (let s := goodTx .run
     s.fsm.state = .tx ∧ s.regs.txLen.toNat = 5 ∧ nextWrite s = .ok 5 ∧ nextWrite (withScript [.err] [] s) ≠ .ok 5) := by
  decide

/-- RUN with a whole exchange, with a failing encode, with a write cut short, with no reply and with an unwritten payload
byte. -/
def wholeExchange : State :=
  withScript [.ok 6] [.ok [], .ok [0x05#8], .ok [0x00#8, 0x2F#8, 0x00#8], .ok [0x8D#8, 0xCD#8]] (withPayload [0x1E#8] fresh)
def tooLong : State := { fresh with regs := { fresh.regs with cmdSize := 252#8 } }
def shortWrite : State := withScript [.ok 3] [] (withPayload [0x1E#8] fresh)
def silentReader : State := withScript [.ok 6] [.ok [], .ok [], .ok []] (withPayload [0x1E#8] fresh)
def unwrittenPayload : State := { fresh with regs := { fresh.regs with cmdSize := 1#8 } }

theorem witness_RunEqualsItsStages :
    (∀ s ∈ [wholeExchange, tooLong, shortWrite, silentReader, unwrittenPayload], configOk s.cfg = true ∧ s.fsm.state = .idle) ∧
    (∃ f, runOp (.encode 0#8) unwrittenPayload = .fault f) ∧
    (∃ t, runOp (.encode 0#8) tooLong = .next t ∧ t.regs.status.err = .invalidParameter) ∧
    (∃ t, runOps [.encode 0#8, .transmit 0#8] shortWrite = .next t ∧ t.regs.status.err = .ioError) ∧
    (∃ t, runOps [.encode 0#8, .transmit 0#8, .receive 0#8] silentReader = .next t ∧ t.regs.status.err = .timeout) ∧
    ∃ t, runOps [.encode 0#8, .transmit 0#8, .receive 0#8, .decode 0#8] wholeExchange = .next t ∧
      (t.regs.status.err, t.regs.status.respValid, t.regs.pollAttempts, t.regs.crc) = (.none, true, 2#32, 0xCD8D#16) := by
  refine ⟨by decide, ?_, ?_, ?_, ?_, ?_⟩
  · exact ⟨.uninitRead 0x100, by rfl⟩
  · exact next_of_after (f := fun t => t.regs.status.err) (by decide +kernel)
  · exact next_of_after (f := fun t => t.regs.status.err) (by decide +kernel)
  · exact next_of_after (f := fun t => t.regs.status.err) (by decide +kernel)
  · exact next_of_after (by decide +kernel)

theorem witness_RunOutcomeMapping :
    configOk wholeExchange.cfg = true ∧ wholeExchange.fsm.state = .idle ∧
    (∃ t, runOp (.run 0#8) wholeExchange = .next t ∧ (t.regs.status.err, t.regs.status.respValid) = (.none, true)) ∧
    ∃ t, runOp (.run 0#8) tooLong = .next t ∧ (t.regs.status.err, t.regs.status.respValid) = (.invalidParameter, false) :=
  ⟨by decide, by decide, next_of_after (by decide +kernel), next_of_after (by decide +kernel)⟩

/-- A RUN that writes and reads, and one whose write is cut short, and one that sends nothing. -/
theorem witness_RunWritesOnceThenOnlyReads :
    (∃ t, runOp (.run 0#8) wholeExchange = .next t ∧ t.chan.calls.length = 5) ∧
    (∃ t, runOp (.run 0#8) shortWrite = .next t ∧
      t.chan.calls = [.write [0x05#8, 0x00#8, 0x2F#8, 0x1E#8, 0x72#8, 0x34#8] (.ok 3)]) ∧
    ∃ t, runOp (.run 0#8) tooLong = .next t ∧ t.chan.calls = [] :=
  ⟨next_of_after (by decide +kernel), next_of_after (by decide +kernel), next_of_after (by decide +kernel)⟩

theorem witness_WireOpcodesSetCommandOpcode :
    fresh.regs.status.busy = false ∧ (goodPoll .run).regs.status.busy = true := by decide

theorem witness_AcceptedWriteStartsOperation :
    fresh.regs.status.busy = false ∧ fresh.fsm.state = .idle ∧ (goodPoll .run).regs.status.busy = true := by decide

theorem witness_BusyWritesAreRejected :
    (goodPoll .run).regs.status.busy = true ∧
      ∀ off ∈ [0x100, 0x1FE, 0x300, 0x3FF], (0x100 ≤ off ∧ off ≤ 0x1FE) ∨ (0x300 ≤ off ∧ off ≤ 0x3FF) := by decide

theorem witness_IdleWritesStore :
    fresh.regs.status.busy = false ∧ regAt 0x000 = some .cmd ∧ regAt 0x030 = some .pollAttempts ∧
      ∀ off ∈ [0x100, 0x1FE, 0x300, 0x3FF], (0x100 ≤ off ∧ off ≤ 0x1FE) ∨ (0x300 ≤ off ∧ off ≤ 0x3FF) := by decide

/-- The ends of every legal range, and their illegal neighbours. -/
theorem witness_BusErrorsExactly :
    let legal := fun off n : Nat => (n = 4 ∧ off % 4 = 0 ∧ off ≤ 0x030) ∨
      (n = 1 ∧ ((0x100 ≤ off ∧ off ≤ 0x1FE) ∨ (0x200 ≤ off ∧ off ≤ 0x3FF)))
    (∀ p ∈ [(0x000, 4), (0x030, 4), (0x100, 1), (0x1FE, 1), (0x200, 1), (0x2FF, 1), (0x300, 1), (0x3FF, 1)],
      legal p.1 p.2) ∧
    ∀ p ∈ [(0x034, 4), (0x002, 4), (0x000, 1), (0x000, 2), (0x0FF, 1), (0x1FF, 1), (0x400, 1), (0x200, 4), (0x300, 0)],
      ¬ legal p.1 p.2 := by decide

theorem witness_HostReadsHaveNoSideEffect :
    ∃ t, step (withTodo [.read 0x3FF 1] (withBytes 0x3FF [0x5A#8] fresh)) = .next t ∧ t.seen = [0x0000005A#32] :=
  next_of_after (by decide)

/-- Written bytes at the ends of the three buffers, while IDLE. -/
theorem witness_IdleReadsReturnValues :
    fresh.regs.status.busy = false ∧
      ∀ off ∈ [0x100, 0x1FE, 0x200, 0x2FF, 0x300, 0x3FF],
        ((0x100 ≤ off ∧ off ≤ 0x1FE) ∨ (0x200 ≤ off ∧ off ≤ 0x3FF)) ∧
          memRead (withBytes off [0x5A#8] fresh).mem off = some 0x5A#8 := by decide

/-- The ends of what a busy operation does and does not write: a 5-byte and a 256-byte frame, a declared length of 5. -/
theorem witness_BusyReadsDrawOrStayExact :
    (∀ s ∈ [goodPoll .run, goodExec .encode, goodBody .receive, goodDec], s.regs.status.busy = true) ∧
    (Op.run ∈ [Op.encode, .run] ∧ Op.receive ∉ [Op.encode, .run] ∧ Op.crcByte ∉ [Op.receive, .run]) ∧
    (∀ p ∈ [(0x200, 0), (0x204, 0), (0x2FF, 251)], 0x200 ≤ p.1 ∧ p.1 < 0x200 + p.2 + 5 ∧ p.2 ≤ 251) ∧
    (∀ p ∈ [(0x205, 0), (0x2FF, 250)], 0x200 + p.2 + 5 ≤ p.1 ∧ p.1 ≤ 0x2FF) ∧
    (goodDec.fsm.state = .dec ∧ goodDec.fsm.op = .run ∧ 0x300 ≤ 0x305 ∧ 0x305 ≤ 0x300 + goodDec.fsm.declLen.toNat ∧
      0x300 + goodDec.fsm.declLen.toNat < 0x306 ∧ memRead goodDec.mem 0x305 = some 0xCD#8) := by decide

/-- Written TXBUF bytes while ENCODE or RUN has a payload of 252 or 255 bytes, and written RXBUF bytes while RECEIVE is in
POLL and RUN in EXEC, TX and POLL: the two ends of the buffers. -/
theorem witness_BusyReadsDrawOrStayExact_early :
    (∀ op ∈ [Op.encode, .run], ∀ n ∈ [252#8, 255#8], ∀ off ∈ [0x200, 0x2FF],
      let s := { withBytes off [0x5A#8] (goodExec op) with regs := { (goodExec op).regs with cmdSize := n } }
      s.regs.status.busy = true ∧ memRead s.mem off = some 0x5A#8 ∧ 251 < s.regs.cmdSize.toNat ∧
        s.fsm.op ∈ [Op.encode, .run]) ∧
    ∀ t ∈ [goodPoll .receive, goodPoll .run, goodExec .run, goodTx .run], ∀ off ∈ [0x300, 0x3FF],
      let s := withBytes off [0x5A#8] t
      s.regs.status.busy = true ∧ memRead s.mem off = some 0x5A#8 ∧ s.fsm.state ∉ [FsmState.body, .dec] ∧
        s.fsm.op ∈ [Op.receive, .run] := by decide

theorem witness_UnwrittenBytesStopTheModel :
    memRead fresh.mem 0x1FE = none ∧ memRead fresh.mem 0x3FF = none ∧
    (let s := busyIn .encode .exec unwrittenPayload
     s.fsm.state = .exec ∧ unwrittenIn 0x100 s.regs.cmdSize.toNat s.mem ∧ s.regs.cmdSize.toNat ≤ 251) ∧
    (let s := busyIn .transmit .tx { fresh with regs := { fresh.regs with txLen := 256#9 } }
     s.fsm.state = .tx ∧ unwrittenIn 0x200 s.regs.txLen.toNat s.mem) ∧
    (let s := busyIn .decode .exec { fresh with regs := { fresh.regs with rxLen := 6#9 } }
     s.fsm.state = .exec ∧ 6 ≤ s.regs.rxLen.toNat ∧ s.regs.rxLen.toNat ≤ 256 ∧
       unwrittenIn 0x300 s.regs.rxLen.toNat s.mem) :=
  ⟨rfl, rfl, ⟨rfl, ⟨0, by decide⟩, by decide⟩, ⟨rfl, 255, by decide⟩, ⟨rfl, by decide, by decide, 5, by decide⟩⟩

/-- Both sides of R17's bounds. -/
theorem witness_BadConfigurationIsRefused :
    faulted (step { State.reset with cfg := ⟨0, 1, 0⟩ }) = some .badParameterConfig ∧
      faulted (step { State.reset with cfg := ⟨1, 4294967296, 0⟩ }) = some .badParameterConfig ∧
      faulted (step { State.reset with cfg := ⟨4294967295, 1, 0⟩ }) = none := by decide

theorem witness_ResetSetsSpecifiedValues :
    let s := withTodo [.reset, .block] (goodBody .run)
    configOk s.cfg = true ∧ s.todo = .reset :: [.block] := by decide

/-- A step of each kind from a good state: block steps, an accepted write, a rejected write, a stored byte, a reset. -/
theorem witness_EveryStepKeepsInv :
    Inv (goodBody .run) ∧ Inv (goodTx .run) ∧ Inv (goodExec .run) ∧ Inv goodDec ∧
      (∃ t, step (goodBody .run) = .next t ∧ t.fsm.got = 1) ∧ (∃ t, step (goodTx .run) = .next t ∧ t.fsm.state = .poll) ∧
      (∃ t, step (goodExec .run) = .next t ∧ t.fsm.state = .tx) ∧
      ∃ t, step goodDec = .next t ∧ t.regs.status.respValid = true :=
  ⟨good_body _ (by decide), good_tx _ (by decide), good_exec _ (by decide), good_dec, next_of_after (by decide +kernel),
    next_of_after (by decide +kernel), next_of_after (by decide +kernel), next_of_after (by decide +kernel)⟩

theorem inv_withTodo {s : State} (es : List Event) (h : Inv s) : Inv (withTodo es s) :=
  ⟨h.memWf, h.memInBuffers, h.busyIff, h.busyClears, h.opFits, h.noResponse, h.txFrame, h.runTx, h.poll, h.body, h.dec⟩

/-- BUSY rises by an accepted write, and falls by a completion and by a reset. -/
theorem witness_BusySetOnlyByAcceptedWrite :
    (Inv (withTodo [.write 0x000 4 8#32] fresh) ∧
      ∃ t, step (withTodo [.write 0x000 4 8#32] fresh) = .next t ∧ t.regs.status.busy = true) ∧
    (Inv (goodExec .encode) ∧ ∃ t, step (goodExec .encode) = .next t ∧ t.regs.status.busy = false) ∧
    (Inv (withTodo [.reset] (goodBody .run)) ∧
      ∃ t, step (withTodo [.reset] (goodBody .run)) = .next t ∧ t.regs.status.busy = false) :=
  ⟨⟨inv_withTodo _ good_idle, next_of_after (by decide)⟩, ⟨good_exec _ (by decide), next_of_after (by decide +kernel)⟩,
    ⟨inv_withTodo _ (good_body _ (by decide)), next_of_after (by decide)⟩⟩

/-- REJ rises at a rejected write, at both ends of a buffer's range, and falls at an accepted write and at a reset. -/
theorem witness_RejRecordsRejectedWritesOnly :
    (∀ e ∈ [Event.write 0x014 4 9#32, .write 0x100 1 9#32, .write 0x3FF 1 9#32], Inv (withTodo [e] (goodPoll .run)) ∧
      ∃ t, step (withTodo [e] (goodPoll .run)) = .next t ∧ t.regs.status.rej = true) ∧
    let s := { fresh with regs := { fresh.regs with status := ⟨false, true, true, false, .none⟩ } }
    ∀ e ∈ [Event.write 0x000 4 1#32, .reset], Inv (withTodo [e] s) ∧
      ∃ t, step (withTodo [e] s) = .next t ∧ t.regs.status.rej = false := by
  refine ⟨fun e h => ⟨inv_withTodo _ (good_poll _ (by decide)), ?_⟩, fun e h => ⟨inv_of_check ?_, ?_⟩⟩ <;>
    simp only [List.mem_cons, List.not_mem_nil, or_false] at h
  · rcases h with rfl | rfl | rfl <;> exact next_of_after (by decide)
  · rcases h with rfl | rfl <;> decide
  · rcases h with rfl | rfl <;> exact next_of_after (by decide)

/-- RESP_VALID falls at the start of DECODE and rises at its successful completion. -/
theorem witness_RespValidLifetime :
    (let s := withTodo [.write 0x000 4 7#32] (setRespValid true fresh)
     Inv s ∧ s.regs.status.busy = false ∧ decodeCmd 7#32 = .decode 0#8 ∧ s.regs.status.respValid = true ∧
       ∃ t, step s = .next t ∧ t.regs.status.respValid = false) ∧
    (stepOf .run .dec goodDec ∧ Inv goodDec ∧ ∃ t, step goodDec = .next t ∧ t.regs.status.respValid = true) :=
  ⟨⟨inv_of_check (by decide), rfl, rfl, rfl, next_of_after (by decide)⟩, ⟨.inl rfl, rfl, rfl⟩, good_dec,
    next_of_after (by decide +kernel)⟩

/-- A step that changes each of the result registers. -/
theorem witness_ResultRegistersHaveOnlyTheirWriters :
    (Inv (goodExec .encode) ∧ stepOf .encode .exec (goodExec .encode) ∧ ¬ resetTurn (goodExec .encode) ∧
      ∃ t, step (goodExec .encode) = .next t ∧ (t.regs.crc, t.regs.txLen) = (0x3472#16, 6#9)) ∧
    (Inv goodDec ∧ ∃ t, step goodDec = .next t ∧ t.regs.respCode = 0x2F#8) ∧
    (Inv (goodPoll .receive) ∧ ∃ t, step (goodPoll .receive) = .next t ∧ t.regs.pollAttempts = 1#32) :=
  ⟨⟨good_exec _ (by decide), ⟨.inl rfl, rfl, rfl⟩, nofun, next_of_after (by decide +kernel)⟩,
    ⟨good_dec, next_of_after (by decide +kernel)⟩, ⟨good_poll _ (by decide), next_of_after (by decide)⟩⟩

theorem witness_OperandsFrozenWhileBusy :
    (goodExec .encode).regs.status.busy = true ∧ ¬ resetTurn (goodExec .encode) ∧ Inv (goodExec .encode) ∧
      (goodExec .encode).fsm.op ∉ [Op.receive, .run] ∧ ∃ t, step (goodExec .encode) = .next t ∧ t.regs.cmdSize = 1#8 :=
  ⟨rfl, nofun, good_exec _ (by decide), by decide, next_of_after (by decide +kernel)⟩

/-- A step that writes to the channel and two that read from it. -/
theorem witness_ChannelTouchedOnlyByItsStates :
    Inv (goodTx .run) ∧ Inv (goodPoll .run) ∧ Inv (goodBody .run) ∧
      ∃ t, step (goodBody .run) = .next t ∧ t.chan.calls = [.read 255 (.ok [1#8])] :=
  ⟨good_tx _ (by decide), good_poll _ (by decide), good_body _ (by decide), next_of_after (by decide +kernel)⟩

theorem witness_EveryChannelWriteIsAFrame :
    Inv (goodTx .run) ∧ ∃ t, step (goodTx .run) = .next t ∧
      t.chan.calls = .write [0x04#8, 0x00#8, 0x2F#8, 0xA7#8, 0x83#8] (.ok 5) :: (goodTx .run).chan.calls :=
  ⟨good_tx _ (by decide), next_of_after (by decide +kernel)⟩

/-- A completing step with each outcome that a good state can raise. -/
theorem witness_ErrorsHaveTheirConditions :
    (∀ op ∈ [Op.receive, .run],
      Inv (withScript [] [.err] (goodPoll op)) ∧ blockTurn (withScript [] [.err] (goodPoll op)) ∧
        (goodPoll op).regs.status.busy = true ∧
        ∃ t, step (withScript [] [.err] (goodPoll op)) = .next t ∧ t.regs.status.err = .ioError) ∧
    (∃ t, step (goodExec .invalid) = .next t ∧ t.regs.status.err = .invalidOperation) ∧
    (∃ t, step (goodExec .decode) = .next t ∧ t.regs.status.err = .malformed) ∧
    ∃ t, step (goodTx .run) = .next t ∧ t.regs.status.done = false := by
  refine ⟨fun op h => ⟨inv_of_check (by revert h; cases op <;> decide), .inl rfl, rfl, ?_⟩, next_of_after (by decide),
    next_of_after (by decide), next_of_after (by decide)⟩
  revert h
  cases op <;> intro h
  case receive => exact next_of_after (by decide)
  case run => exact next_of_after (by decide)
  all_goals exact absurd h (by decide)

/-- The other outcomes: CMD_SIZE = 252, TX_LEN = 0 and RX_LEN = 257; the last poll attempt; the code byte of S3 changed. -/
theorem witness_ErrorsHaveTheirConditions_rest :
    (∀ s ∈ [{ goodExec .encode with regs := { (goodExec .encode).regs with cmdSize := 252#8 } },
        { goodExec .run with regs := { (goodExec .run).regs with cmdSize := 252#8 } },
        busyIn .transmit .tx fresh,
        { goodExec .decode with regs := { (goodExec .decode).regs with rxLen := 257#9 } }],
      invCheck s = true ∧ s.todo = [] ∧ s.regs.status.busy = true ∧
        after (fun t => (t.regs.status.done, t.regs.status.err)) (step s) = some (true, .invalidParameter)) ∧
    (∀ op ∈ [Op.receive, .run],
      let s := { goodPoll op with
        fsm := { (goodPoll op).fsm with pollCnt := 2 }, regs := { (goodPoll op).regs with pollAttempts := 2#32 } }
      invCheck s = true ∧ s.todo = [] ∧ s.regs.status.busy = true ∧
        after (fun t => (t.regs.status.done, t.regs.status.err)) (step s) = some (true, .timeout)) ∧
    ∀ s ∈ [busyIn .decode .exec (withBuffer [0x05#8, 0x00#8, 0x2E#8, 0x00#8, 0x8D#8, 0xCD#8] fresh),
        withBytes 0x302 [0x2E#8] goodDec],
      invCheck s = true ∧ s.todo = [] ∧ s.regs.status.busy = true ∧
        after (fun t => (t.regs.status.done, t.regs.status.err)) (step s) = some (true, .checksumMismatch) := by
  decide +kernel

theorem witness_NoFaultAfterTheFirstStep :
    ∀ s ∈ [goodTx .run, goodTx .transmit, goodPoll .receive, goodBody .run, goodDec],
      s.fsm.state ∈ [FsmState.tx, .poll, .body, .dec] ∧ invCheck s = true := by decide +kernel

theorem witness_LocalOperationsTakeOneStep :
    (∀ op ∈ [Op.crcInit, .crcByte, .crcSpan, .encode, .decode, .invalid],
      (goodExec op).fsm.state ≠ .idle ∧ (goodExec op).fsm.op = op) ∧
    (goodTx .transmit).fsm.state ≠ .idle ∧ (goodTx .transmit).fsm.op = .transmit := by decide

theorem witness_EveryOperationTerminates :
    configOk wholeExchange.cfg = true ∧ wholeExchange.fsm.state = .idle ∧
      (∃ t, runOp (decodeCmd 8#32) wholeExchange = .next t ∧ t.regs.status.done = true) ∧
      ∃ off, runOp (decodeCmd 4#32) unwrittenPayload = .fault (.uninitRead off) :=
  ⟨rfl, rfl, next_of_after (by decide +kernel), 0x100, by rfl⟩

/-- A word of each kind: a local operation that completes and one that stops, RECEIVE, RUN. -/
theorem witness_EveryOperationTerminates_kinds :
    decodeCmd 4#32 = .encode 0#8 ∧ decodeCmd 5#32 = .transmit 0#8 ∧ decodeCmd 0#32 = .invalid 0#32 ∧
      decodeCmd 6#32 = .receive 0#8 ∧ decodeCmd 8#32 = .run 0#8 ∧
      (∃ t, runOp (decodeCmd 6#32) silentReader = .next t ∧ (t.regs.status.done, t.regs.pollAttempts) = (true, 3#32)) :=
  ⟨rfl, rfl, rfl, rfl, rfl, next_of_after (by decide +kernel)⟩

/-- The ends of the reserved offsets; a step that goes on and one that stops, with the window elsewhere. -/
theorem witness_WindowMapAndBase :
    (∀ off ∈ [0x034, 0x0FF, 0x1FF], (0x034 ≤ off ∧ off ≤ 0x0FF) ∨ off = 0x1FF) ∧
      (∃ t, step (goodExec .encode) = .next t ∧ t.regs.txLen = 6#9) ∧
      faulted (step (withTodo [.read 0x034 4] fresh)) = some (.busError 0x034 4) :=
  ⟨by decide, next_of_after (by decide +kernel), by decide⟩

theorem witness_IdleBlockWaits : configOk fresh.cfg = true ∧ fresh.fsm.state = .idle ∧ blockTurn fresh :=
  ⟨by decide, by decide, .inl rfl⟩

end Sys2Proof.Tests
end

section
/-! What a step can stop with: a transition of an instruction stops only with UNINIT_READ (R51), a turn only with that or
with BUS_ERROR (R57), and so BAD_PARAMETER_CONFIG comes from the configuration alone (R17). -/

namespace Sys2Proof.Machine

/-- `f` is UNINIT_READ of a byte that is unwritten in `m` (R51). -/
def IsUninitRead (m : Memory) (f : Fault) : Prop := ∃ off, f = .uninitRead off ∧ memRead m off = none

/-! ### The stages of an operation -/

theorem memSpan_isUninitRead {m : Memory} {a n : Nat} {f : Fault} (h : memSpan m a n = .error f) :
    IsUninitRead m f := by
  obtain ⟨i, -, hf, hm⟩ := memSpan_error h
  exact ⟨a + i, hf, hm⟩

theorem encodeStage_isUninitRead {s : State} {f : Fault} (h : encodeStage s = .stop f) : IsUninitRead s.mem f :=
  memSpan_isUninitRead (encodeStage_stop h).2

theorem txStep_isUninitRead {s : State} {f : Fault} (h : txStep s = .stop f) : IsUninitRead s.mem f :=
  memSpan_isUninitRead (txStep_stop h).2

theorem decodeStage_isUninitRead {s : State} {f : Fault} (h : decodeStage s = .stop f) : IsUninitRead s.mem f :=
  memSpan_isUninitRead (decodeStage_stop h).2.2

theorem finishWith_fault {r : Stage} {f : Fault} (h : finishWith r = .fault f) : r = .stop f := by
  cases r <;> cases h
  rfl

theorem continueWith_fault {k : State → State} {r : Stage} {f : Fault} (h : continueWith k r = .fault f) :
    r = .stop f := by
  cases r <;> cases h
  rfl

/-- An operation done by one EXEC step faults only in that step. -/
theorem localOp_fault {op : Op} {b : Byte} {entry : State → State} {work : State → Result} {s : State} {f : Fault}
    (h : localOp op b entry work s = .fault f) : work s = .fault f := by
  rcases localOp_cases h with ⟨-, hr⟩ | ⟨-, hr⟩ | ⟨-, -, hr⟩
  · cases hr
  · exact hr.symm
  · cases hr

/-! ### One transition and one turn -/

/-- The faults of `exec`: only an operation that consumes a buffer byte faults, and only at an unwritten one (R51). -/
theorem exec_fault {i : Instr} {s : State} {f : Fault} (h : exec i s = .fault f) : IsUninitRead s.mem f := by
  cases i with
  | crcInit b =>
    simp only [exec, execCrcInit] at h
    cases localOp_fault h
  | crcByte b =>
    simp only [exec, execCrcByte] at h
    cases localOp_fault h
  | crcSpan b =>
    simp only [exec, execCrcSpan] at h
    have hw := localOp_fault h
    split at hw <;> cases hw
    next hp => exact memSpan_isUninitRead hp
  | encode b =>
    simp only [exec, execEncode] at h
    exact encodeStage_isUninitRead (finishWith_fault (localOp_fault h))
  | transmit b =>
    simp only [exec, execTransmit] at h
    cases hs : s.fsm.state <;> simp only [hs] at h
    case tx => exact txStep_isUninitRead (finishWith_fault h)
    all_goals cases h
  | receive b =>
    simp only [exec, execReceive] at h
    split at h <;> cases h
  | decode b =>
    simp only [exec, execDecode] at h
    exact decodeStage_isUninitRead (finishWith_fault (localOp_fault h))
  | run b =>
    simp only [exec, execRun] at h
    cases hs : s.fsm.state <;> simp only [hs] at h
    case exec => exact encodeStage_isUninitRead (continueWith_fault h)
    case tx => exact txStep_isUninitRead (continueWith_fault h)
    case dec => exact decodeStage_isUninitRead (finishWith_fault h)
    all_goals cases h
  | invalid w =>
    simp only [exec, execInvalid] at h
    cases localOp_fault h
  | wireTagInventory => cases h
  | wireSetRfPower => cases h
  | wireSetInventoryTime => cases h
  | wireSetBuzzerEnabled => cases h

theorem blockStep_fault {s : State} {f : Fault} (h : blockStep s = .fault f) : IsUninitRead s.mem f := by
  unfold blockStep at h
  split at h
  · cases h
  · exact exec_fault h

/-- A host read stops at an access the block does not define (R57) and at an unwritten byte (R51). -/
theorem hostRead_fault {off n : Nat} {s : State} {f : Fault} (h : hostRead off n s = .fault f) :
    f = .busError off n ∨ IsUninitRead s.mem f := by
  unfold hostRead at h
  split at h
  · cases h; exact .inl rfl
  · split at h <;> cases h
  · split at h
    · next hm => cases h; exact .inr ⟨off, rfl, hm⟩
    · split at h <;> cases h

theorem writeIfIdle_ne_fault (g : State → State) (s : State) (f : Fault) : writeIfIdle g s ≠ .fault f := by
  unfold writeIfIdle
  split <;> nofun

/-- A write of a register stops only where it runs an instruction that does. -/
theorem writeReg_fault {r : Reg} {v : Word} {s : State} {f : Fault} (h : writeReg r v s = .fault f) :
    IsUninitRead s.mem f := by
  cases r with
  | cmd =>
    simp only [writeReg, writeCmd] at h
    split at h
    · cases h
    · exact exec_fault h
  | cmdOpcode =>
    simp only [writeReg, writeCmdOpcode] at h
    split at h
    · exact exec_fault h
    · cases h
  | cmdAddr | cmdSize | rxLen =>
    simp only [writeReg] at h
    exact (writeIfIdle_ne_fault _ _ _ h).elim
  | status | crc | txLen | respSize | respAddr | respCode | respStatus | pollAttempts => cases h

/-- A host write stops at an access the block does not define (R57), else only as a register write does. -/
theorem hostWrite_fault {off n : Nat} {v : Word} {s : State} {f : Fault} (h : hostWrite off n v s = .fault f) :
    f = .busError off n ∨ IsUninitRead s.mem f := by
  unfold hostWrite at h
  split at h
  · cases h; exact .inl rfl
  · exact .inr (writeReg_fault h)
  · next b _ _ =>
    cases b with
    | pbuf | rxbuf => exact (writeIfIdle_ne_fault _ _ _ h).elim
    | txbuf => cases h

/-- The faults of a turn: BUS_ERROR (R57) and UNINIT_READ (R51). -/
theorem turn_fault {e : Event} {s : State} {f : Fault} (h : turn e s = .fault f) :
    (∃ off n, f = .busError off n) ∨ IsUninitRead s.mem f := by
  cases e with
  | read off n => exact (hostRead_fault h).imp_left fun hf => ⟨off, n, hf⟩
  | write off n v => exact (hostWrite_fault h).imp_left fun hf => ⟨off, n, hf⟩
  | reset => cases h
  | block => exact .inr (blockStep_fault h)

/-! ### One step -/

/-- A machine whose budgets are out of range takes no step (R17). -/
theorem step_of_not_configOk {s : State} (hc : ¬ configOk s.cfg = true) : step s = .fault .badParameterConfig :=
  if_neg hc

/-- The faults of a step of a machine whose budgets are in range are those of a turn. -/
theorem step_fault {s : State} {f : Fault} (hc : configOk s.cfg = true) (h : step s = .fault f) :
    (∃ off n, f = .busError off n) ∨ IsUninitRead s.mem f := by
  unfold step advance at h
  rw [if_pos hc] at h
  split at h
  · exact .inr (blockStep_fault h)
  · next rest _ => exact turn_fault (s := { s with todo := rest }) h

theorem step_badParameterConfig_iff (s : State) : step s = .fault .badParameterConfig ↔ ¬ configOk s.cfg = true := by
  refine ⟨fun h hc => ?_, step_of_not_configOk⟩
  rcases step_fault hc h with ⟨_, _, hf⟩ | ⟨_, hf, -⟩ <;> cases hf

theorem configOk_iff (c : Config) :
    configOk c = true ↔
      1 ≤ c.pollBudget ∧ c.pollBudget ≤ 4294967295 ∧ 1 ≤ c.bodyPollBudget ∧ c.bodyPollBudget ≤ 4294967295 := by
  simp [configOk, and_assoc]

/-- Settles O41: no turn of a machine whose budgets are in range stops with BAD_PARAMETER_CONFIG. -/
theorem badConfigurationIsRefused : Obligations.BadConfigurationIsRefused := by
  intro s
  rw [step_badParameterConfig_iff, configOk_iff]

end Sys2Proof.Machine
end

section
/-! The accepted CMD write (10_state.md R24): which operation a command word names, and the one state that its acceptance
and entry action lead to. -/

namespace Sys2Proof.Machine

/-! ### The next turn -/

@[simp] theorem nextTurn_regs (s : State) : (nextTurn s).regs = s.regs := rfl
@[simp] theorem nextTurn_fsm (s : State) : (nextTurn s).fsm = s.fsm := rfl

/-! ### The operation of a command word -/

/-- The command word `w` names operation `op` (R71, R73). -/
def NamesOp (w : Word) (op : Op) : Prop :=
  (op ≠ .invalid ∧ decodeCmd w = instrOf op (byteField w)) ∨ (op = .invalid ∧ decodeCmd w = .invalid w)

/-- Every command word names an operation (R71: `decode_op` is total). -/
theorem exists_namesOp (w : Word) : ∃ op, NamesOp w op := by
  unfold NamesOp decodeCmd
  split
  · split
    · exact ⟨.crcInit, .inl ⟨nofun, rfl⟩⟩
    · exact ⟨.crcByte, .inl ⟨nofun, rfl⟩⟩
    · exact ⟨.crcSpan, .inl ⟨nofun, rfl⟩⟩
    · exact ⟨.encode, .inl ⟨nofun, rfl⟩⟩
    · exact ⟨.transmit, .inl ⟨nofun, rfl⟩⟩
    · exact ⟨.receive, .inl ⟨nofun, rfl⟩⟩
    · exact ⟨.decode, .inl ⟨nofun, rfl⟩⟩
    · exact ⟨.run, .inl ⟨nofun, rfl⟩⟩
    · exact ⟨.invalid, .inr ⟨rfl, rfl⟩⟩
  · exact ⟨.invalid, .inr ⟨rfl, rfl⟩⟩

/-- The operations whose entry action clears RESP_VALID (R29). -/
def clearsResponse : List Op := [.receive, .decode, .run]

/-- The word of an operation that clears RESP_VALID is the word of RECEIVE, DECODE or RUN. -/
theorem NamesOp.mem_clearsResponse_iff {w : Word} {op : Op} (h : NamesOp w op) :
    op ∈ clearsResponse ↔ ∃ b, decodeCmd w ∈ [Instr.receive b, .decode b, .run b] := by
  rcases h with ⟨-, hw⟩ | ⟨rfl, hw⟩
  · rw [hw]; cases op <;> simp [instrOf, clearsResponse]
  · simp [hw, clearsResponse]

/-! ### Acceptance and entry action -/

/-- `s` after an accepted CMD write of `op` with BYTE `b` and the entry action of `op`. -/
def enterOp (op : Op) (b : Byte) (s : State) : State :=
  match op with
  | .crcInit | .crcByte | .crcSpan | .encode | .invalid => enterExec (accept op b s)
  | .transmit => setFsmState .tx (accept op b s)
  | .receive => pollEntry (setRespValid false (accept op b s))
  | .decode => enterExec (setRespValid false (accept op b s))
  | .run => runEntry (accept op b s)

/-- From IDLE, the instruction of a command word is accepted and takes its entry action. -/
theorem exec_of_namesOp {w : Word} {op : Op} {s : State} (h : NamesOp w op) (hs : s.fsm.state = .idle) :
    exec (decodeCmd w) s = .next (enterOp op (byteField w) s) := by
  rcases h with ⟨hne, hw⟩ | ⟨rfl, hw⟩ <;> rw [hw]
  · cases op
    case invalid => exact absurd rfl hne
    case crcInit => simp only [instrOf, exec, execCrcInit, localOp, hs, enterOp]
    case crcByte => simp only [instrOf, exec, execCrcByte, localOp, hs, enterOp]
    case crcSpan => simp only [instrOf, exec, execCrcSpan, localOp, hs, enterOp]
    case encode => simp only [instrOf, exec, execEncode, localOp, hs, enterOp]
    case transmit => simp only [instrOf, exec, execTransmit, hs, enterOp]
    case receive => simp only [instrOf, exec, execReceive, hs, enterOp]
    case decode => simp only [instrOf, exec, execDecode, localOp, hs, enterOp]
    case run => simp only [instrOf, exec, execRun, hs, enterOp]
  · simp only [exec, execInvalid, localOp, hs, enterOp]

/-- STATUS after the acceptance (R24, R29): RESP_VALID is kept but by the operations that clear it. -/
theorem enterOp_status (op : Op) (b : Byte) (s : State) :
    (enterOp op b s).regs.status =
      { busy := true, done := false, rej := false, err := .none
        respValid := s.regs.status.respValid && decide (op ∉ clearsResponse) } := by
  cases op <;> simp [enterOp, statusAccepted, clearsResponse]

/-- The acceptance and the entry action write no register but STATUS and POLL_ATTEMPTS (R24, R41). -/
theorem enterOp_regs (op : Op) (b : Byte) (s : State) :
    (enterOp op b s).regs =
      { s.regs with
        status := (enterOp op b s).regs.status
        pollAttempts := if op ∈ [Op.receive, .run] then 0#32 else s.regs.pollAttempts } := by
  cases op <;> simp [enterOp]

@[simp] theorem enterOp_op (op : Op) (b : Byte) (s : State) : (enterOp op b s).fsm.op = op := by
  cases op <;> rfl

@[simp] theorem enterOp_byte (op : Op) (b : Byte) (s : State) : (enterOp op b s).fsm.byte = b := by
  cases op <;> rfl

theorem enterOp_ne_idle (op : Op) (b : Byte) (s : State) : (enterOp op b s).fsm.state ≠ .idle := by
  cases op <;> nofun

@[simp] theorem enterOp_mem (op : Op) (b : Byte) (s : State) : (enterOp op b s).mem = s.mem := by
  cases op <;> rfl

theorem enterOp_sameOutside (op : Op) (b : Byte) (s : State) : sameOutside s (enterOp op b s) := by
  cases op <;> exact ⟨rfl, rfl, rfl, rfl, rfl⟩

/-! ### The host's accesses of CMD -/

theorem hostWrite_cmd (w : Word) (s : State) : hostWrite 0x000 4 w s = writeCmd w s := rfl

theorem hostWrite_cmd_busy (w : Word) {s : State} (h : s.regs.status.busy = true) :
    hostWrite 0x000 4 w s = .next (reject s) :=
  if_pos h

theorem hostWrite_cmd_idle {w : Word} {op : Op} {s : State} (h : NamesOp w op) (hb : s.regs.status.busy = false)
    (hs : s.fsm.state = .idle) : hostWrite 0x000 4 w s = .next (enterOp op (byteField w) s) := by
  rw [hostWrite_cmd, writeCmd, hb, ← exec_of_namesOp h hs]; rfl

theorem hostRead_cmd (s : State) : hostRead 0x000 4 s = .next (answerRead 0#32 s) := by
  simp [hostRead, target, regAt, opWritesReg, regValue]

/-- Settles O32: a command word names an operation, and the acceptance and entry action of that operation lead to
`enterOp`. -/
theorem acceptedWriteStartsOperation : Obligations.AcceptedWriteStartsOperation := by
  refine ⟨fun w s h => hostWrite_cmd_busy w h, hostRead_cmd, fun w s hb hs => ?_⟩
  obtain ⟨op, hop⟩ := exists_namesOp w
  have hregs := enterOp_regs op (byteField w) s
  have hstatus := enterOp_status op (byteField w) s
  refine ⟨enterOp op (byteField w) s, hostWrite_cmd_idle hop hb hs, exec_of_namesOp hop hs, ?_⟩
  rw [hregs, hstatus, enterOp_op, enterOp_byte]
  exact ⟨rfl, rfl, rfl, rfl, enterOp_ne_idle _ _ _, rfl, hop.imp And.right And.symm, rfl, enterOp_mem ..,
    enterOp_sameOutside .., rfl, rfl, rfl, rfl, rfl, rfl, rfl, rfl, rfl, rfl, rfl⟩

end Sys2Proof.Machine
end

section
/-! What one step from a good state does to STATUS and to the response registers (10_state.md R24–R30): first a block step,
then any turn. -/

namespace Sys2Proof.Machine

/-! ### A receive step -/

/-- What a receive step from registers `r` does to them (R103–R105): it writes RX_LEN and POLL_ATTEMPTS, and STATUS only
if it completes. -/
inductive ReceiveEffect (r : Regs) (t : State) : Prop where
  | goesOn (n : BitVec 9) (k : BitVec 32) : t.fsm.state ≠ .idle → t.regs = { r with rxLen := n, pollAttempts := k } →
      ReceiveEffect r t
  | completes (n : BitVec 9) (k : BitVec 32) (e : ErrKind) : t.fsm.state = .idle →
      t.regs = { r with rxLen := n, pollAttempts := k, status := statusCompleted e r.status } → ReceiveEffect r t

theorem ReceiveEffect.of_counted {r : Regs} {k : BitVec 32} {t : State}
    (h : ReceiveEffect { r with pollAttempts := k } t) : ReceiveEffect r t := by
  cases h with
  | goesOn n k' hs hr => exact .goesOn n k' hs hr
  | completes n k' e hs hr => exact .completes n k' e hs hr

theorem finishReceive_effect {r : Regs} (s : State) (hr : s.regs = r) : ReceiveEffect r (finishReceive s) := by
  subst hr
  rcases finishReceive_cases s with ⟨-, h⟩ | ⟨-, h⟩ <;> rw [h]
  · exact .completes _ s.regs.pollAttempts .none rfl rfl
  · exact .goesOn _ s.regs.pollAttempts nofun rfl

theorem startBody_effect {r : Regs} (len : Byte) (s : State) (hr : s.regs = r) : ReceiveEffect r (startBody len s) := by
  subst hr
  simp only [startBody]
  split
  · exact finishReceive_effect _ rfl
  · exact .goesOn s.regs.rxLen s.regs.pollAttempts nofun rfl

theorem storeBody_effect {r : Regs} (bytes : List Byte) (s : State) (hr : s.regs = r) (hs : s.fsm.state = .body) :
    ReceiveEffect r (storeBody bytes s) := by
  subst hr
  simp only [storeBody]
  split
  · exact finishReceive_effect _ rfl
  · exact .goesOn s.regs.rxLen s.regs.pollAttempts (by simp [hs]) rfl

theorem pollStep_effect {s : State} (hs : s.fsm.state = .poll) : ReceiveEffect s.regs (pollStep s) := by
  rcases pollStep_cases s with ⟨-, h⟩ | ⟨-, -, h⟩ | ⟨-, -, h⟩ | ⟨len, -, h⟩ <;> rw [h]
  · exact .completes 0#9 (BitVec.ofNat 32 (s.fsm.pollCnt + 1)) .ioError rfl (by simp)
  · exact .completes 0#9 (BitVec.ofNat 32 (s.fsm.pollCnt + 1)) .timeout rfl (by simp)
  · exact .goesOn s.regs.rxLen (BitVec.ofNat 32 (s.fsm.pollCnt + 1)) (by simp [hs]) (by simp)
  · exact (startBody_effect len (countPoll (afterRead 1 s)) (by rw [countPoll_regs, afterRead_regs])).of_counted

theorem bodyStep_effect {s : State} (hs : s.fsm.state = .body) : ReceiveEffect s.regs (bodyStep s) := by
  rcases bodyStep_cases s with ⟨-, h⟩ | ⟨-, -, h⟩ | ⟨-, -, h⟩ | ⟨bs, -, -, -, h⟩ <;> rw [h]
  · exact .completes 0#9 s.regs.pollAttempts .ioError rfl (by simp)
  · exact .completes 0#9 s.regs.pollAttempts .ioError rfl (by simp)
  · exact .goesOn s.regs.rxLen s.regs.pollAttempts (by simp [hs]) (by simp)
  · exact storeBody_effect bs _ (afterRead_regs _ s) (by simpa using hs)

/-! ### A block step -/

/-- RESP_SIZE, RESP_ADDR, RESP_CODE and RESP_STATUS (R37–R40). -/
def respRegs (s : State) : Byte × Byte × Byte × Byte :=
  (s.regs.respSize, s.regs.respAddr, s.regs.respCode, s.regs.respStatus)

/-- The block stands before the decode stage of DECODE or of RUN (R112, R119). -/
def decoding (s : State) : Prop :=
  (s.fsm.op = .decode ∧ s.fsm.state = .exec) ∨ (s.fsm.op = .run ∧ s.fsm.state = .dec)

/-- What a block step does to STATUS and RESP_*: the operation goes on, it completes without a new response, or its decode
stage validates one. -/
inductive BlockEffect (s t : State) : Prop where
  | goesOn : t.fsm.state ≠ .idle → t.regs.status = s.regs.status → respRegs t = respRegs s → ¬ decoding s →
      BlockEffect s t
  | completes (e : ErrKind) : t.fsm.state = .idle → t.regs.status = statusCompleted e s.regs.status →
      respRegs t = respRegs s → (decoding s → e ≠ .none) → BlockEffect s t
  | responds : t.fsm.state = .idle →
      t.regs.status = { statusCompleted .none s.regs.status with respValid := true } → decoding s → BlockEffect s t

theorem ReceiveEffect.blockEffect {s t : State} (h : ReceiveEffect s.regs t) (hd : ¬ decoding s) : BlockEffect s t := by
  cases h with
  | goesOn n k hs hr => exact .goesOn hs (by rw [hr]) (by simp only [respRegs, hr]) hd
  | completes n k e hs hr => exact .completes e hs (by rw [hr]) (by simp only [respRegs, hr]) (absurd · hd)

theorem decoding_iff_instrOf (s : State) :
    decoding s ↔ ∃ b, (instrOf s.fsm.op s.fsm.byte = .decode b ∧ s.fsm.state = .exec) ∨
      (instrOf s.fsm.op s.fsm.byte = .run b ∧ s.fsm.state = .dec) := by
  cases hop : s.fsm.op <;> simp [decoding, hop, instrOf]

/-- A transition out of a state other than IDLE that belongs to the operation in progress. -/
theorem moves_blockEffect {s t : State} (hs : s.fsm.state ≠ .idle) (hf : opFits s.fsm.state s.fsm.op = true)
    (h : Moves (instrOf s.fsm.op s.fsm.byte) s t) : BlockEffect s t := by
  have hd := decoding_iff_instrOf s
  cases h with
  | stay hu => rw [unreached_of_opFits s.fsm.byte hf] at hu; cases hu
  | acceptLocal h | acceptDecode h | acceptTransmit h | acceptReceive h | acceptRun h => exact absurd h hs
  | opcode hi => cases hop : s.fsm.op <;> simp [hop, instrOf] at hi
  | crcDone hi he =>
    refine .completes .none rfl rfl rfl fun hdec => ?_
    obtain ⟨b', ⟨hop, -⟩ | ⟨-, hdec⟩⟩ := hd.1 hdec
    · simp [hop] at hi
    · simp [he] at hdec
  | invalidDone hi he => exact .completes .invalidOperation rfl rfl rfl nofun
  | encodeDone hi he => exact .completes .none rfl rfl rfl (by simp_all)
  | encodeRun hi he => exact .goesOn nofun rfl rfl (by simp_all)
  | encodeFailed hi he => exact .completes .invalidParameter rfl rfl rfl nofun
  | txDone hi he => exact .completes .none rfl (by simp) (by simp [respRegs]) (by simp_all)
  | txRun hi he => exact .goesOn nofun (by simp) (by simp [respRegs]) (by simp_all)
  | txEmpty => exact .completes .invalidParameter rfl rfl rfl nofun
  | txFailed => exact .completes .ioError rfl (by simp) (by simp [respRegs]) nofun
  | poll hi hp => exact (pollStep_effect hp).blockEffect (by simp [decoding, hp])
  | body hi hp => exact (bodyStep_effect hp).blockEffect (by simp [decoding, hp])
  | decodeDone hi => exact .responds rfl rfl (hd.2 ⟨_, hi⟩)
  | decodeTooLong => exact .completes .invalidParameter rfl rfl rfl nofun
  | decodeTooShort => exact .completes .malformed rfl rfl rfl nofun
  | decodeMismatch => exact .completes .checksumMismatch rfl rfl rfl nofun

/-- A block step of a good state: none while BUSY = 0, else one of the three effects. -/
theorem blockStep_effect {s t : State} (hi : Inv s) (h : blockStep s = .next t) :
    (s.regs.status.busy = false ∧ t = s) ∨ (s.regs.status.busy = true ∧ BlockEffect s t) := by
  rcases blockStep_next h with ⟨hs, rfl⟩ | ⟨hs, hm⟩
  · refine .inl ⟨?_, rfl⟩
    by_contra hb
    exact hi.busyIff.1 (Bool.eq_true_of_not_eq_false hb) hs
  · exact .inr ⟨hi.busyIff.2 hs, moves_blockEffect hs hi.opFits hm⟩

end Sys2Proof.Machine
end

section
/-! The life of BUSY, DONE, ERR, REJ and RESP_VALID over every step of a good state (10_state.md R26–R30). -/

namespace Sys2Proof.Machine

/-! ### A host write -/

/-- The instruction of a wire opcode is the host's write of that byte to CMD_OPCODE (R33, R82). -/
theorem exec_of_decodeWire {b : Byte} {i : Instr} (h : decodeWire b = some i) (s : State) :
    exec i s = .next (writeOpcode b s) := by
  have hrow : ∀ {k : Byte}, b.toNat = k.toNat → b = k := BitVec.eq_of_toNat_eq
  unfold decodeWire at h
  split at h <;> cases h
  · next hb => rw [hrow (k := 0x01#8) hb]; rfl
  · next hb => rw [hrow (k := 0x2F#8) hb]; rfl
  · next hb => rw [hrow (k := 0x25#8) hb]; rfl
  · next hb => rw [hrow (k := 0x40#8) hb]; rfl

/-- A write of CMD_OPCODE stores or rejects its byte, whether or not that is a wire opcode (R33, R83). -/
theorem writeCmdOpcode_eq (v : Word) (s : State) : writeCmdOpcode v s = .next (writeOpcode (lowByte v) s) := by
  unfold writeCmdOpcode
  split
  · next hi => exact exec_of_decodeWire hi s
  · rfl

/-- A host write that R61 rejects: of CMD, of an operand register, or of a byte of PBUF or RXBUF, while BUSY = 1. -/
theorem hostWrite_of_busy {off n : Nat} {s : State} (v : Word) (hb : s.regs.status.busy = true)
    (hw : (n = 4 ∧ off ∈ [0x000, 0x00C, 0x010, 0x014, 0x01C]) ∨
      (n = 1 ∧ ((0x100 ≤ off ∧ off ≤ 0x1FE) ∨ (0x300 ≤ off ∧ off ≤ 0x3FF)))) :
    hostWrite off n v s = .next (reject s) := by
  rcases hw with ⟨rfl, hoff⟩ | ⟨rfl, hoff | hoff⟩
  · simp only [List.mem_cons, List.not_mem_nil, or_false] at hoff
    rcases hoff with rfl | rfl | rfl | rfl | rfl
    case inr.inr.inl =>
      exact (writeCmdOpcode_eq v s).trans (congrArg _ (if_pos hb))
    all_goals exact if_pos hb
  · have ht : target off 1 = some (.byte .pbuf (off - 0x100)) := by
      simp [target, bufAt, hoff.1, show off < 0x1FF by omega]
    simp [hostWrite, ht, writeByte, writeIfIdle, hb]
  · have ht : target off 1 = some (.byte .rxbuf (off - 0x300)) := by
      simp [target, bufAt, show ¬ off < 0x1FF by omega, show ¬ off < 0x300 by omega, hoff.1, show off < 0x400 by omega]
    simp [hostWrite, ht, writeByte, writeIfIdle, hb]

/-- A host write of anything but CMD is rejected, or leaves STATUS and RESP_* alone (R60, R61). -/
theorem hostWrite_status {off n : Nat} {v : Word} {s t : State} (hcmd : ¬ (off = 0x000 ∧ n = 4))
    (h : hostWrite off n v s = .next t) :
    (s.regs.status.busy = true ∧ t = reject s) ∨ (t.regs.status = s.regs.status ∧ respRegs t = respRegs s) := by
  rcases hostWrite_next h with rfl | hr | ⟨h0, h4, -⟩ | ⟨i, -, -, hi, he⟩ | ⟨-, rfl | rfl | rfl | rfl | ⟨b, i, -, -, rfl⟩⟩
  · exact .inr ⟨rfl, rfl⟩
  · exact .inl hr
  · exact absurd ⟨h0, h4⟩ hcmd
  · rw [exec_of_decodeWire hi] at he
    unfold writeOpcode at he
    split at he <;> cases he
    · next hb => exact .inl ⟨hb, rfl⟩
    · exact .inr ⟨rfl, rfl⟩
  all_goals exact .inr ⟨rfl, rfl⟩

/-! ### Any step -/

theorem Inv.nextTurn {s : State} (h : Inv s) : Inv (nextTurn s) :=
  ⟨h.memWf, h.memInBuffers, h.busyIff, h.busyClears, h.opFits, h.noResponse, h.txFrame, h.runTx, h.poll, h.body, h.dec⟩

/-- A step is a block step, or the turn of the host or the platform that is next on the agenda. -/
theorem step_turn {s t : State} (h : step s = .next t) :
    (blockTurn s ∧ blockStep (nextTurn s) = .next t) ∨
      ∃ e, s.todo.head? = some e ∧ e ≠ .block ∧ turn e (nextTurn s) = .next t := by
  obtain ⟨-, ⟨hd, hb⟩ | ⟨e, rest, hd, ht⟩⟩ := step_next h
  · have hs : nextTurn s = s := by cases s; cases hd; rfl
    exact .inl ⟨.inl (by rw [hd]; rfl), by rwa [hs]⟩
  · have hs : nextTurn s = { s with todo := rest } := by simp only [nextTurn, hd, List.tail_cons]
    rw [← hs] at ht
    by_cases he : e = .block
    · subst he
      exact .inl ⟨.inr (by rw [hd]; rfl), ht⟩
    · exact .inr ⟨e, by rw [hd]; rfl, he, ht⟩

/-- What a step from a good state does to STATUS and RESP_*, by whose turn it is. -/
inductive StepEffect (s t : State) : Prop where
  | reset : resetTurn s → t.regs = State.reset.regs → StepEffect s t
  | accepted (w : Word) (op : Op) : cmdWriteTurn w s → s.regs.status.busy = false → NamesOp w op →
      t = enterOp op (byteField w) (nextTurn s) → StepEffect s t
  | rejected (off n : Nat) (v : Word) : s.todo.head? = some (.write off n v) → s.regs.status.busy = true →
      t = reject (nextTurn s) → StepEffect s t
  /-- a host access that neither starts an operation nor is rejected -/
  | access : ¬ blockTurn s → ¬ resetTurn s → (∀ w, ¬ cmdWriteTurn w s) → t.regs.status = s.regs.status →
      respRegs t = respRegs s → StepEffect s t
  | waits : blockTurn s → s.regs.status.busy = false → t = nextTurn s → StepEffect s t
  | moves : blockTurn s → s.regs.status.busy = true → BlockEffect (nextTurn s) t → StepEffect s t

theorem step_effect {s t : State} (hi : Inv s) (h : step s = .next t) : StepEffect s t := by
  rcases step_turn h with ⟨hturn, hb⟩ | ⟨e, hd, hne, ht⟩
  · rcases blockStep_effect hi.nextTurn hb with ⟨hidle, rfl⟩ | ⟨hbusy, he⟩
    · exact .waits hturn hidle rfl
    · exact .moves hturn hbusy he
  · cases e with
    | block => exact absurd rfl hne
    | reset => cases ht; exact .reset hd rfl
    | read off n =>
      have hsame : t.regs = s.regs := by
        rcases hostRead_next ht with ⟨v, rfl⟩ | ⟨mask, rfl⟩ <;> rfl
      exact .access (by simp [blockTurn, hd]) (by simp [resetTurn, hd]) (by simp [cmdWriteTurn, hd])
        (by rw [hsame]) (by simp only [respRegs, hsame])
    | write off n v =>
      change hostWrite off n v (nextTurn s) = .next t at ht
      by_cases hcmd : off = 0x000 ∧ n = 4
      · obtain ⟨rfl, rfl⟩ := hcmd
        cases hb : s.regs.status.busy with
        | true =>
          rw [hostWrite_cmd_busy v (by simpa using hb)] at ht
          cases ht
          exact .rejected _ _ _ hd hb rfl
        | false =>
          have hidle : s.fsm.state = .idle := by
            by_contra hs
            rw [hi.busyIff.2 hs] at hb
            cases hb
          obtain ⟨op, hop⟩ := exists_namesOp v
          rw [hostWrite_cmd_idle hop (by simpa using hb) (by simpa using hidle)] at ht
          cases ht
          exact .accepted v op hd hb hop rfl
      · rcases hostWrite_status hcmd ht with ⟨hb, rfl⟩ | ⟨hst, hresp⟩
        · exact .rejected _ _ _ hd hb rfl
        · refine .access (by simp [blockTurn, hd]) (by simp [resetTurn, hd]) (fun w hw => hcmd ?_) hst hresp
          have heq := hd.symm.trans hw
          simp only [Option.some.injEq, Event.write.injEq] at heq
          exact ⟨heq.1, heq.2.1⟩

/-! ### The turns exclude each other -/

theorem resetTurn_excludes {s : State} (h : resetTurn s) : ¬ blockTurn s ∧ ∀ w, ¬ cmdWriteTurn w s := by
  simp only [resetTurn] at h
  simp [blockTurn, cmdWriteTurn, h]

theorem blockTurn_excludes {s : State} (h : blockTurn s) : ¬ resetTurn s ∧ ∀ w, ¬ cmdWriteTurn w s := by
  rcases h with h | h <;> simp [resetTurn, cmdWriteTurn, h]

theorem cmdWriteTurn_excludes {w : Word} {s : State} (h : cmdWriteTurn w s) :
    ¬ blockTurn s ∧ ¬ resetTurn s ∧ ∀ v, cmdWriteTurn v s ↔ v = w := by
  simp only [cmdWriteTurn] at h
  simp [blockTurn, resetTurn, cmdWriteTurn, h, eq_comm]

theorem writeTurn_excludes {off n : Nat} {v : Word} {s : State} (h : s.todo.head? = some (.write off n v)) :
    ¬ blockTurn s ∧ ¬ resetTurn s := by
  simp [blockTurn, resetTurn, h]

/-! ### The statements -/

/-- Settles O45, by whose turn the step is. -/
theorem busySetOnlyByAcceptedWrite : Obligations.BusySetOnlyByAcceptedWrite := by
  intro s t hi h
  have hclears := hi.busyClears
  cases step_effect hi h with
  | reset hturn hr =>
    obtain ⟨hnb, hnw⟩ := resetTurn_excludes hturn
    simp [hr, State.reset, hturn, hnb, hnw]
  | accepted w op hturn hidle hop ht =>
    obtain ⟨hnb, -, hw⟩ := cmdWriteTurn_excludes hturn
    simp [ht, enterOp_status, hidle, hnb, hw]
  | rejected off n v hturn hbusy ht =>
    obtain ⟨hnb, -⟩ := writeTurn_excludes hturn
    simp [ht, statusRejected, hbusy, hclears hbusy, hnb]
  | access hnb hnr hnw hst =>
    -- STATUS is as before, so each clause about a change is void
    grind
  | waits hturn hidle ht =>
    obtain ⟨-, hnw⟩ := blockTurn_excludes hturn
    subst ht
    grind [nextTurn_regs]
  | moves hturn hbusy he =>
    obtain ⟨hdone, herr⟩ := hclears hbusy
    obtain ⟨-, hnw⟩ := blockTurn_excludes hturn
    cases he with
    | goesOn hs hst => simp [hst, hs, hbusy, hdone, hnw]
    | completes e hs hst => simp [hst, statusCompleted, hs, hturn, hbusy, hdone, hnw]
    | responds hs hst => simp [hst, statusCompleted, hs, hturn, hbusy, hdone, hnw]

/-- REJ over one step: a reset and an accepted CMD write clear it, a rejection sets it, any other step keeps it. -/
theorem step_rej {s t : State} (hi : Inv s) (h : step s = .next t) :
    (resetTurn s ∧ t.regs.status.rej = false) ∨
    (∃ w, cmdWriteTurn w s ∧ s.regs.status.busy = false ∧ t.regs.status.busy = true ∧ t.regs.status.rej = false) ∨
    (∃ off n v, s.todo.head? = some (.write off n v) ∧ s.regs.status.busy = true ∧ t = reject (nextTurn s)) ∨
    (¬ resetTurn s ∧ (∀ w, ¬ cmdWriteTurn w s) ∧ t.regs.status.rej = s.regs.status.rej) := by
  cases step_effect hi h with
  | reset hturn hr => exact .inl ⟨hturn, by rw [hr]; rfl⟩
  | accepted w op hturn hidle hop ht => exact .inr (.inl ⟨w, hturn, hidle, by rw [ht, enterOp_status]; simp⟩)
  | rejected off n v hturn hbusy ht => exact .inr (.inr (.inl ⟨off, n, v, hturn, hbusy, ht⟩))
  | access hnb hnr hnw hst => exact .inr (.inr (.inr ⟨hnr, hnw, by rw [hst]⟩))
  | waits hturn hidle ht =>
    obtain ⟨hnr, hnw⟩ := blockTurn_excludes hturn
    exact .inr (.inr (.inr ⟨hnr, hnw, by rw [ht]; rfl⟩))
  | moves hturn hbusy he =>
    obtain ⟨hnr, hnw⟩ := blockTurn_excludes hturn
    cases he with
    | goesOn hs hst | completes e hs hst | responds hs hst =>
      exact .inr (.inr (.inr ⟨hnr, hnw, by rw [hst]; rfl⟩))

/-- A rejected write sets REJ (R28, R61). -/
theorem step_rej_of_busy_write {s t : State} {off n : Nat} {v : Word} (h : step s = .next t)
    (hturn : s.todo.head? = some (.write off n v)) (hbusy : s.regs.status.busy = true)
    (hw : (n = 4 ∧ off ∈ [0x000, 0x00C, 0x010, 0x014, 0x01C]) ∨
      (n = 1 ∧ ((0x100 ≤ off ∧ off ≤ 0x1FE) ∨ (0x300 ≤ off ∧ off ≤ 0x3FF)))) : t.regs.status.rej = true := by
  obtain ⟨hnb, -⟩ := writeTurn_excludes hturn
  rcases step_turn h with ⟨hb, -⟩ | ⟨e, hd, -, ht⟩
  · exact absurd hb hnb
  · obtain rfl : Event.write off n v = e := Option.some.inj (hturn.symm.trans hd)
    have hrej : hostWrite off n v (nextTurn s) = .next (reject (nextTurn s)) := hostWrite_of_busy v hbusy hw
    cases hrej.symm.trans ht
    rfl

/-- Settles O46, by what the step does to REJ. -/
theorem rejRecordsRejectedWritesOnly : Obligations.RejRecordsRejectedWritesOnly := by
  intro s t hi h
  refine ⟨fun off n v hturn hbusy hw => step_rej_of_busy_write h hturn hbusy hw, ?_⟩
  rcases step_rej hi h with ⟨hturn, hrej⟩ | ⟨w, hturn, hidle, hbusy, hrej⟩ | ⟨off, n, v, hturn, hbusy, rfl⟩ |
    ⟨hnr, hnw, hrej⟩
  · simp [hrej, hturn]
  · exact ⟨fun _ => hrej, fun _ h1 => absurd (hrej.symm.trans h1) nofun, fun _ _ => .inr ⟨w, hturn, hidle, hbusy⟩⟩
  · obtain ⟨-, hnr⟩ := writeTurn_excludes hturn
    refine ⟨?_, fun _ _ => ⟨hbusy, ⟨off, n, v, hturn⟩, rfl⟩, nofun⟩
    simp [hnr, hbusy]
  · rw [hrej]
    refine ⟨?_, fun h0 h1 => absurd (h0.symm.trans h1) nofun, fun h1 h0 => absurd (h0.symm.trans h1) nofun⟩
    simp [hnr, hnw]

/-- The turn of a decode stage is a block turn of a block that stands before one. -/
theorem decodeTurn_iff (s : State) : stepOf .decode .exec s ∨ stepOf .run .dec s ↔ blockTurn s ∧ decoding s :=
  and_or_left.symm

/-- A good state that stands before a decode stage is busy. -/
theorem Inv.busy_of_decoding {s : State} (hi : Inv s) (h : decoding s) : s.regs.status.busy = true := by
  refine hi.busyIff.2 ?_
  rcases h with ⟨-, hs⟩ | ⟨-, hs⟩ <;> rw [hs] <;> nofun

/-- Settles O47, by whose turn the step is. -/
theorem respValidLifetime : Obligations.RespValidLifetime := by
  intro s t hi h
  simp only [decodeTurn_iff]
  cases step_effect hi h with
  | reset hturn hr =>
    obtain ⟨hnb, -⟩ := resetTurn_excludes hturn
    simp [hr, State.reset, hturn, hnb]
  | accepted w op hturn hidle hop ht =>
    obtain ⟨hnb, hnr, hw⟩ := cmdWriteTurn_excludes hturn
    have hclear := hop.mem_clearsResponse_iff
    rw [ht, enterOp_regs, enterOp_status]
    simp only [List.mem_cons, List.not_mem_nil, or_false] at hclear
    by_cases hc : op ∈ clearsResponse
    · simp [hc, hnb, hnr, hw, hclear.1 hc]
    · have hword : ∀ v b, v = w → ¬ (decodeCmd v = .receive b ∨ decodeCmd v = .decode b ∨ decodeCmd v = .run b) :=
        fun v b hv hb => hc (hclear.2 ⟨b, hv ▸ hb⟩)
      simpa [hc, hnb, hnr, hw] using fun v b hv _ hb => absurd hb (hword v b hv)
  | rejected off n v hturn hbusy ht =>
    obtain ⟨hnb, hnr⟩ := writeTurn_excludes hturn
    simp [ht, statusRejected, hbusy, hnb, hnr]
  | access hnb hnr hnw hst hresp =>
    simp only [respRegs, Prod.mk.injEq] at hresp
    simp [hst, hnb, hnr, hnw, hresp]
  | waits hturn hidle ht =>
    obtain ⟨hnr, hnw⟩ := blockTurn_excludes hturn
    have hnd : ¬ decoding s := fun hd => by simp [hi.busy_of_decoding hd] at hidle
    simp [ht, hnr, hnw, hnd]
  | moves hturn hbusy he =>
    obtain ⟨hnr, hnw⟩ := blockTurn_excludes hturn
    cases he with
    | goesOn hs hst hresp hnd =>
      simp only [respRegs, Prod.mk.injEq] at hresp
      change ¬ decoding s at hnd
      simp [hst, hnr, hnw, hnd, hresp]
    | completes e hs hst hresp hd =>
      simp only [respRegs, Prod.mk.injEq] at hresp
      change decoding s → e ≠ .none at hd
      simpa [hst, statusCompleted, hturn, hnr, hnw, hresp] using fun hdec he => absurd he (hd hdec)
    | responds hs hst hd =>
      change decoding s at hd
      simp [hst, statusCompleted, hnr, hturn, hnw, hd]

end Sys2Proof.Machine
end

section
/-! The window (20_memory.md R53–R57): which register or buffer byte each access names, which accesses are bus errors, and
what a host access of a register or a buffer byte is while BUSY = 0 and while BUSY = 1 (R60, R61). -/

namespace Sys2Proof.Machine

/-! ### What an offset names -/

/-- The window offset of a register (R23). -/
def regOffset : Reg → Nat
  | .cmd => 0x000
  | .status => 0x004
  | .crc => 0x008
  | .cmdAddr => 0x00C
  | .cmdOpcode => 0x010
  | .cmdSize => 0x014
  | .txLen => 0x018
  | .rxLen => 0x01C
  | .respSize => 0x020
  | .respAddr => 0x024
  | .respCode => 0x028
  | .respStatus => 0x02C
  | .pollAttempts => 0x030

theorem regAt_eq_some_iff {off : Nat} {r : Reg} : regAt off = some r ↔ off = regOffset r := by
  constructor
  · intro h
    unfold regAt at h
    split at h <;> cases h <;> rfl
  · rintro rfl
    cases r <;> rfl

theorem bufAt_eq_some_iff {off : Nat} {b : Buf} {i : Nat} :
    bufAt off = some (b, i) ↔ off = bufBase b + i ∧ i < bufSize b := by
  cases b <;> grind [bufAt, bufBase, bufSize]

theorem regAt_isSome_iff (off : Nat) : (regAt off).isSome = true ↔ off % 4 = 0 ∧ off ≤ 0x030 := by
  constructor
  · intro h
    obtain ⟨r, hr⟩ := Option.isSome_iff_exists.1 h
    rw [regAt_eq_some_iff.1 hr]
    cases r <;> decide
  · have hall : ∀ off ≤ 0x030, off % 4 = 0 → (regAt off).isSome = true := by decide
    exact fun h => hall off h.2 h.1

theorem bufAt_isSome_iff (off : Nat) :
    (bufAt off).isSome = true ↔ (0x100 ≤ off ∧ off ≤ 0x1FE) ∨ (0x200 ≤ off ∧ off ≤ 0x3FF) := by
  unfold bufAt
  split_ifs <;> simp <;> omega

/-! ### What an access names -/

theorem target_reg_iff {off n : Nat} {r : Reg} : target off n = some (.reg r) ↔ n = 4 ∧ regAt off = some r := by
  unfold target
  split_ifs <;> simp [*]

theorem target_byte_iff {off n : Nat} {b : Buf} {i : Nat} :
    target off n = some (.byte b i) ↔ n = 1 ∧ bufAt off = some (b, i) := by
  unfold target
  split_ifs <;> simp [*]

/-- The accesses that name something (R55–R57). -/
theorem target_isSome_iff (off n : Nat) :
    (target off n).isSome = true ↔ (n = 4 ∧ off % 4 = 0 ∧ off ≤ 0x030) ∨
      (n = 1 ∧ ((0x100 ≤ off ∧ off ≤ 0x1FE) ∨ (0x200 ≤ off ∧ off ≤ 0x3FF))) := by
  unfold target
  split_ifs <;> simp [*, regAt_isSome_iff, bufAt_isSome_iff]

/-! ### Bus errors -/

theorem hostRead_of_target_none {off n : Nat} (s : State) (h : target off n = none) :
    hostRead off n s = .fault (.busError off n) := by
  simp [hostRead, h]

theorem hostWrite_of_target_none {off n : Nat} (v : Word) (s : State) (h : target off n = none) :
    hostWrite off n v s = .fault (.busError off n) := by
  simp [hostWrite, h]

/-- A read of something that the window holds is no bus error. -/
theorem hostRead_ne_busError {off n : Nat} (s : State) (h : target off n ≠ none) (off' n' : Nat) :
    hostRead off n s ≠ .fault (.busError off' n') := by
  unfold hostRead
  split
  · next ht => exact absurd ht h
  · split <;> nofun
  · split
    · nofun
    · split <;> nofun

/-- A write of something that the window holds is no bus error. -/
theorem hostWrite_ne_busError {off n : Nat} (v : Word) (s : State) (h : target off n ≠ none) (off' n' : Nat) :
    hostWrite off n v s ≠ .fault (.busError off' n') := by
  unfold hostWrite
  split
  · next ht => exact absurd ht h
  · intro hf
    obtain ⟨_, hu, -⟩ := writeReg_fault hf
    cases hu
  · next b _ _ =>
    cases b with
    | pbuf | rxbuf => exact writeIfIdle_ne_fault _ _ _
    | txbuf => nofun

/-- Settles O35: the legal accesses are those that name something. -/
theorem busErrorsExactly : Obligations.BusErrorsExactly := by
  intro off n v s
  simp only [← target_isSome_iff]
  refine ⟨fun h => ?_, fun h off' n' => ?_⟩
  · have ht : target off n = none := by simpa using h
    exact ⟨hostRead_of_target_none s ht, hostWrite_of_target_none v s ht⟩
  · have ht : target off n ≠ none := Option.isSome_iff_ne_none.1 h
    exact ⟨hostRead_ne_busError s ht off' n', hostWrite_ne_busError v s ht off' n'⟩

/-! ### Host accesses of one register or one buffer byte -/

theorem hostRead_reg_idle {off : Nat} {r : Reg} {s : State} (hr : regAt off = some r)
    (hb : s.regs.status.busy = false) : hostRead off 4 s = .next (answerRead (regValue r s.regs) s) := by
  simp [hostRead, target_reg_iff.2 ⟨rfl, hr⟩, hb]

theorem hostWrite_reg {off : Nat} {r : Reg} (v : Word) (s : State) (h : regAt off = some r) :
    hostWrite off 4 v s = writeReg r v s := by
  simp [hostWrite, target_reg_iff.2 ⟨rfl, h⟩]

theorem hostWrite_byte {off : Nat} {b : Buf} {i : Nat} (v : Word) (s : State) (h : bufAt off = some (b, i)) :
    hostWrite off 1 v s = writeByte b off (lowByte v) s := by
  simp [hostWrite, target_byte_iff.2 ⟨rfl, h⟩]

/-- The used bits of a register of one byte, as the statements write them. -/
theorem lowByte_eq (v : Word) : lowByte v = v.extractLsb' 0 8 := BitVec.setWidth_eq_extractLsb' (by decide)

theorem writeIfIdle_idle {s : State} (f : State → State) (hb : s.regs.status.busy = false) :
    writeIfIdle f s = .next (f s) := by
  simp [writeIfIdle, hb]

/-- A write of a read-only register is ignored, busy or not (R60, R61). -/
theorem hostWrite_readOnly {off : Nat} (v : Word) (s : State)
    (h : off ∈ [0x004, 0x008, 0x018, 0x020, 0x024, 0x028, 0x02C, 0x030]) : hostWrite off 4 v s = .next s := by
  simp only [List.mem_cons, List.not_mem_nil, or_false] at h
  rcases h with rfl | rfl | rfl | rfl | rfl | rfl | rfl | rfl <;> rfl

/-- A write of a TXBUF byte is ignored, busy or not (R60, R61). -/
theorem hostWrite_txbuf {off : Nat} (v : Word) (s : State) (h : 0x200 ≤ off ∧ off ≤ 0x2FF) :
    hostWrite off 1 v s = .next s := by
  have hb : bufAt off = some (.txbuf, off - 0x200) := by
    rw [bufAt_eq_some_iff]; simp only [bufBase, bufSize]; omega
  rw [hostWrite_byte v s hb, writeByte]

/-- A write of a byte of PBUF or RXBUF while BUSY = 0 stores it (R60). -/
theorem hostWrite_buf_idle {off : Nat} (v : Word) {s : State} (hb : s.regs.status.busy = false)
    (h : (0x100 ≤ off ∧ off ≤ 0x1FE) ∨ (0x300 ≤ off ∧ off ≤ 0x3FF)) :
    hostWrite off 1 v s = .next (setMem (memWrite s.mem off (lowByte v)) s) := by
  rcases h with h | h
  · have hbuf : bufAt off = some (.pbuf, off - 0x100) := by
      rw [bufAt_eq_some_iff]; simp only [bufBase, bufSize]; omega
    rw [hostWrite_byte v s hbuf, writeByte, writeIfIdle_idle _ hb]
  · have hbuf : bufAt off = some (.rxbuf, off - 0x300) := by
      rw [bufAt_eq_some_iff]; simp only [bufBase, bufSize]; omega
    rw [hostWrite_byte v s hbuf, writeByte, writeIfIdle_idle _ hb]

/-- Settles O33: a write that R61 rejects leads to `reject`, any other write is ignored as it is while idle. -/
theorem busyWritesAreRejected : Obligations.BusyWritesAreRejected := fun v s hb =>
  ⟨fun _ h => hostWrite_of_busy v hb (.inl ⟨rfl, h⟩), fun _ h => hostWrite_of_busy v hb (.inr ⟨rfl, h⟩),
    fun _ h => hostWrite_readOnly v s h, fun _ h => hostWrite_txbuf v s h⟩

/-- Settles O34: one lemma per kind of access. -/
theorem idleWritesStore : Obligations.IdleWritesStore := by
  intro v s hb
  simp only [← lowByte_eq]
  refine ⟨?cmdAddr, ?cmdOpcode, ?cmdSize, ?rxLen, ?cmd, fun _ _ hr => hostRead_reg_idle hr hb, rfl,
    fun _ h => hostWrite_readOnly v s h, fun _ h => hostWrite_txbuf v s h, fun off h => ?buffer⟩
  case cmdAddr => rw [hostWrite_reg (r := .cmdAddr) v s rfl, writeReg, writeIfIdle_idle _ hb]
  case cmdOpcode => exact (writeCmdOpcode_eq v s).trans (congrArg _ (if_neg (by simp [hb])))
  case cmdSize => rw [hostWrite_reg (r := .cmdSize) v s rfl, writeReg, writeIfIdle_idle _ hb]
  case rxLen =>
    rw [hostWrite_reg (r := .rxLen) v s rfl, writeReg, writeIfIdle_idle _ hb, BitVec.setWidth_eq_extractLsb' (by decide)]
  case cmd => rw [hostWrite_cmd, writeCmd, hb]; rfl
  case buffer =>
    exact ⟨_, hostWrite_buf_idle v hb h, memWriteSpan_storedAt s.mem off [lowByte v], rfl, rfl, rfl, rfl, rfl, rfl, rfl⟩

end Sys2Proof.Machine
end

section
/-! BLOCK_BASE (20_memory.md R53): no transition asks where the window lies. Moving the window moves it in the next state and
changes nothing else. -/

namespace Sys2Proof.Machine

/-- A result with `g` applied to its next state. -/
def mapNext (g : State → State) : Result → Result
  | .next t => .next (g t)
  | .fault f => .fault f
  | .refused r => .refused r

/-- A stage with `g` applied to the state it leaves. -/
def Stage.map (g : State → State) : Stage → Stage
  | .goOn t => .goOn (g t)
  | .raised t => .raised (g t)
  | .stop f => .stop f

/-- A branch taken by an equal condition commutes with `g` if both arms do. -/
theorem ite_eq_map {α β : Type} (g : α → β) {c : Prop} {dec : Decidable c} {x y : α} {x' y' : β} (hx : x' = g x)
    (hy : y' = g y) : @ite β c dec x' y' = g (@ite α c dec x y) := by
  rw [hx, hy, apply_ite g]

variable (b : Nat) (s : State)

/-! ### The stages of an operation -/

theorem payloadSpan_withBase : payloadSpan (withBase b s) = payloadSpan s := rfl

theorem encodeStage_withBase : encodeStage (withBase b s) = (encodeStage s).map (withBase b) := by
  unfold encodeStage
  refine ite_eq_map (Stage.map (withBase b)) rfl ?_
  rw [payloadSpan_withBase]
  cases payloadSpan s with
  | error f => rfl
  | ok p =>
    simp only [withBase_regs]
    cases encodeFrame s.regs.cmdAddr s.regs.cmdOpcode p <;> rfl

theorem nextRead_withBase (m : Nat) : nextRead m (withBase b s) = nextRead m s := rfl

theorem afterRead_withBase (m : Nat) : afterRead m (withBase b s) = withBase b (afterRead m s) := by
  unfold afterRead
  simp only [withBase_chan]
  split <;> rfl

theorem nextWrite_withBase : nextWrite (withBase b s) = nextWrite s := rfl

theorem afterWrite_withBase (bs : List Byte) : afterWrite bs (withBase b s) = withBase b (afterWrite bs s) := by
  unfold afterWrite
  simp only [withBase_chan]
  split <;> rfl

theorem txStep_withBase : txStep (withBase b s) = (txStep s).map (withBase b) := by
  unfold txStep
  refine ite_eq_map (Stage.map (withBase b)) rfl ?_
  simp only [chanWrite_eq, afterWrite_withBase, nextWrite_withBase, withBase_regs, withBase_mem]
  cases memSpan s.mem (bufBase .txbuf) s.regs.txLen.toNat with
  | error f => rfl
  | ok bs =>
    cases nextWrite s with
    | err => rfl
    | ok k => exact ite_eq_map (Stage.map (withBase b)) rfl rfl

theorem finishReceive_withBase : finishReceive (withBase b s) = withBase b (finishReceive s) := by
  unfold finishReceive
  exact ite_eq_map (withBase b) rfl rfl

theorem startBody_withBase (len : Byte) : startBody len (withBase b s) = withBase b (startBody len s) := by
  unfold startBody
  refine ite_eq_map (withBase b) ?_ rfl
  rw [← finishReceive_withBase]
  rfl

theorem storeBody_withBase (bs : List Byte) : storeBody bs (withBase b s) = withBase b (storeBody bs s) := by
  unfold storeBody
  refine ite_eq_map (withBase b) ?_ rfl
  rw [← finishReceive_withBase]
  rfl

theorem pollStep_withBase : pollStep (withBase b s) = withBase b (pollStep s) := by
  unfold pollStep
  simp only [chanRead_eq, nextRead_withBase, afterRead_withBase]
  split
  · rfl
  · exact ite_eq_map (withBase b) rfl rfl
  · exact startBody_withBase b (countPoll (afterRead 1 s)) _

theorem bodyStep_withBase : bodyStep (withBase b s) = withBase b (bodyStep s) := by
  unfold bodyStep
  simp only [chanRead_eq, nextRead_withBase, afterRead_withBase, withBase_fsm]
  split
  · rfl
  · exact ite_eq_map (withBase b) rfl rfl
  · exact storeBody_withBase b _ _

theorem decodeStage_withBase : decodeStage (withBase b s) = (decodeStage s).map (withBase b) := by
  unfold decodeStage
  refine ite_eq_map (Stage.map (withBase b)) rfl (ite_eq_map (Stage.map (withBase b)) rfl ?_)
  simp only [withBase_regs, withBase_mem]
  cases memSpan s.mem (bufBase .rxbuf) s.regs.rxLen.toNat with
  | error f => rfl
  | ok buf =>
    simp only
    cases decodeBuf buf <;> rfl

theorem finishWith_map (r : Stage) : finishWith (r.map (withBase b)) = mapNext (withBase b) (finishWith r) := by
  cases r <;> rfl

theorem continueWith_map {k : State → State} (hk : ∀ s, k (withBase b s) = withBase b (k s)) (r : Stage) :
    continueWith k (r.map (withBase b)) = mapNext (withBase b) (continueWith k r) := by
  cases r with
  | goOn t => exact congrArg Host.Outcome.next (hk t)
  | raised t => rfl
  | stop f => rfl

/-! ### One transition -/

theorem localOp_withBase {op : Op} {x : Byte} {entry : State → State} {work : State → Result}
    (he : ∀ s, entry (withBase b s) = withBase b (entry s))
    (hw : ∀ s, work (withBase b s) = mapNext (withBase b) (work s)) :
    localOp op x entry work (withBase b s) = mapNext (withBase b) (localOp op x entry work s) := by
  unfold localOp
  simp only [withBase_fsm]
  cases s.fsm.state with
  | idle => exact congrArg Host.Outcome.next (he (accept op x s))
  | exec => exact hw s
  | tx | poll | body | dec => rfl

theorem writeOpcode_withBase (o : Byte) : writeOpcode o (withBase b s) = withBase b (writeOpcode o s) := by
  unfold writeOpcode
  exact ite_eq_map (withBase b) rfl rfl

theorem exec_withBase (i : Instr) : exec i (withBase b s) = mapNext (withBase b) (exec i s) := by
  cases i with
  | crcInit x =>
    simp only [exec, execCrcInit]
    exact localOp_withBase b s (fun _ => rfl) fun _ => rfl
  | crcByte x =>
    simp only [exec, execCrcByte]
    exact localOp_withBase b s (fun _ => rfl) fun _ => rfl
  | crcSpan x =>
    simp only [exec, execCrcSpan]
    refine localOp_withBase b s (fun _ => rfl) fun s => ?_
    rw [payloadSpan_withBase]
    cases payloadSpan s <;> rfl
  | encode x =>
    simp only [exec, execEncode]
    refine localOp_withBase b s (fun _ => rfl) fun s => ?_
    rw [encodeStage_withBase, finishWith_map]
  | decode x =>
    simp only [exec, execDecode]
    refine localOp_withBase b s (fun _ => rfl) fun s => ?_
    rw [decodeStage_withBase, finishWith_map]
  | invalid w =>
    simp only [exec, execInvalid]
    exact localOp_withBase b s (fun _ => rfl) fun _ => rfl
  | transmit x =>
    simp only [exec, execTransmit, withBase_fsm]
    cases s.fsm.state with
    | tx => simp only [txStep_withBase, finishWith_map]
    | idle | exec | poll | body | dec => rfl
  | receive x =>
    simp only [exec, execReceive, withBase_fsm]
    cases s.fsm.state with
    | poll => exact congrArg Host.Outcome.next (pollStep_withBase b s)
    | body => exact congrArg Host.Outcome.next (bodyStep_withBase b s)
    | idle | exec | tx | dec => rfl
  | run x =>
    simp only [exec, execRun, withBase_fsm]
    cases s.fsm.state with
    | idle => rfl
    | exec => simp only [encodeStage_withBase, continueWith_map b (k := setFsmState .tx) fun _ => rfl]
    | tx => simp only [txStep_withBase, continueWith_map b (k := pollEntry) fun _ => rfl]
    | poll => exact congrArg Host.Outcome.next (pollStep_withBase b s)
    | body => exact congrArg Host.Outcome.next (bodyStep_withBase b s)
    | dec => simp only [decodeStage_withBase, finishWith_map]
  | wireTagInventory | wireSetRfPower | wireSetInventoryTime | wireSetBuzzerEnabled =>
    exact congrArg Host.Outcome.next (writeOpcode_withBase b s _)

/-! ### One turn -/

theorem blockStep_withBase : blockStep (withBase b s) = mapNext (withBase b) (blockStep s) := by
  unfold blockStep
  exact ite_eq_map (mapNext (withBase b)) rfl (exec_withBase b s _)

theorem hostRead_withBase (off n : Nat) : hostRead off n (withBase b s) = mapNext (withBase b) (hostRead off n s) := by
  unfold hostRead
  split
  · rfl
  · exact ite_eq_map (mapNext (withBase b)) rfl rfl
  · rw [withBase_mem]
    cases memRead s.mem off with
    | none => rfl
    | some v => exact ite_eq_map (mapNext (withBase b)) rfl rfl

theorem writeIfIdle_withBase {g : State → State} (hg : g (withBase b s) = withBase b (g s)) :
    writeIfIdle g (withBase b s) = mapNext (withBase b) (writeIfIdle g s) := by
  unfold writeIfIdle
  exact ite_eq_map (mapNext (withBase b)) rfl (congrArg Host.Outcome.next hg)

theorem writeReg_withBase (r : Reg) (v : Word) :
    writeReg r v (withBase b s) = mapNext (withBase b) (writeReg r v s) := by
  cases r with
  | cmd =>
    simp only [writeReg, writeCmd]
    exact ite_eq_map (mapNext (withBase b)) rfl (exec_withBase b s _)
  | cmdAddr | cmdSize | rxLen =>
    simp only [writeReg]
    exact writeIfIdle_withBase b s rfl
  | cmdOpcode =>
    simp only [writeReg, writeCmdOpcode_eq, writeOpcode_withBase]
    rfl
  | status | crc | txLen | respSize | respAddr | respCode | respStatus | pollAttempts => rfl

theorem hostWrite_withBase (off n : Nat) (v : Word) :
    hostWrite off n v (withBase b s) = mapNext (withBase b) (hostWrite off n v s) := by
  unfold hostWrite
  split
  · rfl
  · exact writeReg_withBase b s _ v
  · next buf _ _ =>
    cases buf with
    | pbuf | rxbuf => exact writeIfIdle_withBase b s rfl
    | txbuf => rfl

theorem turn_withBase (e : Event) : turn e (withBase b s) = mapNext (withBase b) (turn e s) := by
  cases e with
  | read off n => exact hostRead_withBase b s off n
  | write off n v => exact hostWrite_withBase b s off n v
  | reset => rfl
  | block => exact blockStep_withBase b s

/-- A step is the same step wherever the window lies (R53). -/
theorem step_withBase : step (withBase b s) = mapNext (withBase b) (step s) := by
  have hcfg : configOk (withBase b s).cfg = configOk s.cfg := rfl
  unfold step advance
  simp only [hcfg, withBase_todo]
  split
  · split
    · exact blockStep_withBase b s
    · next rest _ => exact turn_withBase b { s with todo := rest } _
  · rfl

end Sys2Proof.Machine
end

section
/-! The window's place among the platform's addresses, and its map (20_memory.md R53). -/

namespace Sys2Proof.Machine

theorem windowOffset_eq_some_iff {c : Config} {addr off : Nat} :
    windowOffset c addr = some off ↔ off ≤ 0x3FF ∧ addr = c.blockBase + off := by
  unfold windowOffset windowSize
  split <;> simp <;> omega

theorem target_byte_iff_offset {off n i : Nat} {b : Buf} :
    target off n = some (.byte b i) ↔ n = 1 ∧ off = bufBase b + i ∧ i < bufSize b := by
  rw [target_byte_iff, bufAt_eq_some_iff]

/-- R53's list of registers and offsets. -/
theorem mem_registerMap_iff (off : Nat) (r : Reg) :
    (off, r) ∈ [(0x000, Reg.cmd), (0x004, .status), (0x008, .crc), (0x00C, .cmdAddr), (0x010, .cmdOpcode), (0x014, .cmdSize),
      (0x018, .txLen), (0x01C, .rxLen), (0x020, .respSize), (0x024, .respAddr), (0x028, .respCode), (0x02C, .respStatus),
      (0x030, .pollAttempts)] ↔ off = regOffset r := by
  cases r <;> simp [regOffset]

theorem target_reserved {off : Nat} (n : Nat) (h : (0x034 ≤ off ∧ off ≤ 0x0FF) ∨ off = 0x1FF) : target off n = none := by
  rw [← Option.not_isSome_iff_eq_none, target_isSome_iff]
  omega

/-- Settles O57: the map by offset, and a step that commutes with moving the window. -/
theorem windowMapAndBase : Obligations.WindowMapAndBase := by
  refine ⟨fun _ _ _ => windowOffset_eq_some_iff, fun off n r => ?_, fun _ _ _ => ?_, fun off n v s h => ?_, fun b s => ?_⟩
  · rw [target_reg_iff, regAt_eq_some_iff, mem_registerMap_iff]
  · exact ⟨target_byte_iff_offset, target_byte_iff_offset, target_byte_iff_offset⟩
  · exact ⟨hostRead_of_target_none s (target_reserved n h), hostWrite_of_target_none v s (target_reserved n h)⟩
  · rw [step_withBase]
    exact ⟨fun t h => by rw [h]; rfl, fun f h => by rw [h]; rfl⟩

end Sys2Proof.Machine
end

section
/-! The decoder of command words, clause by clause (30_encoding.md R71–R73): an illegal word is INVALID, and a legal one is
the operation that its OP field names. -/

namespace Sys2Proof.Machine

/-- The operation code of `op` (R71). INVALID has none: it stands at the reserved code 0. -/
def opCode : Op → BitVec 4
  | .crcInit => 1
  | .crcByte => 2
  | .crcSpan => 3
  | .encode => 4
  | .transmit => 5
  | .receive => 6
  | .decode => 7
  | .run => 8
  | .invalid => 0

theorem illegalWord_iff (w : Word) :
    illegalWord w = true ↔
      w.extractLsb' 0 4 = 0#4 ∨ 9 ≤ (w.extractLsb' 0 4).toNat ∨ w.extractLsb' 4 4 ≠ 0#4 ∨ w.extractLsb' 16 16 ≠ 0#16 := by
  simp [illegalWord, BitVec.le_def, or_assoc]

theorem reservedClear_iff (w : Word) :
    reservedClear w = true ↔ w.extractLsb' 4 4 = 0#4 ∧ w.extractLsb' 16 16 = 0#16 := by
  simp [reservedClear]

/-- With its reserved bits clear, a word is illegal only by a reserved operation code. -/
theorem illegalWord_iff_of_reservedClear {w : Word} (hr : reservedClear w = true) :
    illegalWord w = true ↔ opField w = 0#4 ∨ 9 ≤ (opField w).toNat := by
  obtain ⟨h4, h16⟩ := (reservedClear_iff w).1 hr
  simp [illegalWord_iff, opField, h4, h16]

/-- An illegal word is INVALID (R73). -/
theorem decodeCmd_of_illegalWord {w : Word} (h : illegalWord w = true) : decodeCmd w = .invalid w := by
  by_cases hr : reservedClear w = true
  · have hop := (illegalWord_iff_of_reservedClear hr).1 h
    rw [← BitVec.toNat_inj, BitVec.toNat_ofNat] at hop
    unfold decodeCmd
    rw [if_pos hr]
    split
    case h_9 => rfl
    all_goals omega
  · exact if_neg hr

/-- A word whose reserved bits are clear is the operation whose code its OP field holds, with its BYTE field (R71, R72). -/
theorem decodeCmd_of_opField {w : Word} {op : Op} (hr : reservedClear w = true) (hne : op ≠ .invalid)
    (hop : opField w = opCode op) : decodeCmd w = instrOf op (byteField w) := by
  unfold decodeCmd
  rw [if_pos hr, hop]
  cases op with
  | invalid => exact absurd rfl hne
  | crcInit | crcByte | crcSpan | encode | transmit | receive | decode | run => rfl

/-- Settles O1: an illegal word is INVALID, and each of the eight codes names its operation. -/
theorem commandWordSelectsOperation : Obligations.CommandWordSelectsOperation := by
  intro w
  refine ⟨fun h => decodeCmd_of_illegalWord ((illegalWord_iff w).2 h), fun h4 h16 => ?_⟩
  have hr : reservedClear w = true := (reservedClear_iff w).2 ⟨h4, h16⟩
  exact ⟨decodeCmd_of_opField (op := .crcInit) hr nofun, decodeCmd_of_opField (op := .crcByte) hr nofun,
    decodeCmd_of_opField (op := .crcSpan) hr nofun, decodeCmd_of_opField (op := .encode) hr nofun,
    decodeCmd_of_opField (op := .transmit) hr nofun, decodeCmd_of_opField (op := .receive) hr nofun,
    decodeCmd_of_opField (op := .decode) hr nofun, decodeCmd_of_opField (op := .run) hr nofun⟩

end Sys2Proof.Machine
end

section
/-! The command words that the host composes from an operation code and a BYTE (30_encoding.md R70, R88): what their fields
hold, the operation they name, and the start of that operation from IDLE (R24). -/

namespace Sys2Proof.Machine

/-! ### The fields of a composed word -/

theorem cmdWord_toNat (c : BitVec 4) (b : Byte) : cmdWord c.toNat b = b.setWidth 32 <<< 8 ||| c.setWidth 32 := by
  rw [cmdWord, BitVec.ofNat_toNat]

theorem opField_cmdWord (c : BitVec 4) (b : Byte) : opField (cmdWord c.toNat b) = c := by
  refine BitVec.eq_of_getLsbD_eq fun i hi => ?_
  simp [opField, cmdWord_toNat, hi, show i < 8 by omega, show i < 32 by omega]

theorem byteField_cmdWord (c : BitVec 4) (b : Byte) : byteField (cmdWord c.toNat b) = b := by
  refine BitVec.eq_of_getLsbD_eq fun i hi => ?_
  have hc : c.getLsbD (8 + i) = false := BitVec.getLsbD_of_ge c (8 + i) (by omega)
  simp [byteField, cmdWord_toNat, hc, hi, show 8 + i < 32 by omega]

theorem reservedClear_cmdWord (c : BitVec 4) (b : Byte) : reservedClear (cmdWord c.toNat b) = true := by
  rw [reservedClear_iff]
  constructor <;> refine BitVec.eq_of_getLsbD_eq fun i hi => ?_
  · simp [cmdWord_toNat, show 4 + i < 8 by omega]
  · have hb : b.getLsbD (16 + i - 8) = false := BitVec.getLsbD_of_ge b (16 + i - 8) (by omega)
    have hc : c.getLsbD (16 + i) = false := BitVec.getLsbD_of_ge c (16 + i) (by omega)
    simp [cmdWord_toNat, hb, hc]

/-! ### The operation it names, and its start -/

/-- The code of an operation and a BYTE decode to that operation on that BYTE (R71, R72). -/
theorem decodeCmd_cmdWord {op : Op} (hne : op ≠ .invalid) (b : Byte) :
    decodeCmd (cmdWord (opCode op).toNat b) = instrOf op b := by
  rw [decodeCmd_of_opField (reservedClear_cmdWord ..) hne (opField_cmdWord ..), byteField_cmdWord]

/-- From IDLE, every operation but INVALID is accepted and takes its entry action. -/
theorem exec_instrOf_idle {op : Op} (hne : op ≠ .invalid) (b : Byte) {s : State} (hs : s.fsm.state = .idle) :
    exec (instrOf op b) s = .next (enterOp op b s) := by
  have hw : NamesOp (cmdWord (opCode op).toNat b) op :=
    .inl ⟨hne, by rw [decodeCmd_cmdWord hne, byteField_cmdWord]⟩
  have he := exec_of_namesOp hw hs
  rwa [decodeCmd_cmdWord hne, byteField_cmdWord] at he

/-- The acceptance and entry action of an operation that only enters EXEC, as a whole state (R24). -/
theorem enterOp_plainLocal {op : Op} (h : op ∈ plainLocal) (b : Byte) (s : State) :
    enterOp op b s = started op b .exec s := by
  cases op with
  | crcInit | crcByte | crcSpan | encode | invalid => rfl
  | transmit | receive | decode | run => simp [plainLocal] at h

/-- What the statements about CRC_INIT, CRC_BYTE, CRC_SPAN and ENCODE say of a command: its word, and its start from IDLE. -/
theorem decodeCmd_and_start {op : Op} (h : op ∈ plainLocal) (hne : op ≠ .invalid) (b : Byte) (s : State) :
    decodeCmd (cmdWord (opCode op).toNat b) = instrOf op b ∧
      (s.fsm.state = .idle → exec (instrOf op b) s = .next (started op b .exec s)) :=
  ⟨decodeCmd_cmdWord hne b, fun hs => by rw [exec_instrOf_idle hne b hs, enterOp_plainLocal h]⟩

end Sys2Proof.Machine
end

section
/-! The checksum generator (40_checksum.md): the functions of R89 and R90, and the EXEC steps of CRC_INIT, CRC_BYTE and
CRC_SPAN as whole states. -/

namespace Sys2Proof.Machine

/-! ### The functions -/

theorem crcShifts_eq_iterate (n : Nat) (c : Crc) : crcShifts n c = crcShift^[n] c := by
  induction n generalizing c with
  | zero => rfl
  | succ n ih => exact ih (crcShift c)

theorem crc16_append (d e : List Byte) : crc16 (d ++ e) = e.foldl crcStep (crc16 d) := List.foldl_append

/-- Settles O6: eight iterations of `crcShift`, and a fold that takes one more byte at its end. -/
theorem checksumFoldsBytesInOrder : Obligations.ChecksumFoldsBytesInOrder :=
  ⟨fun c b => crcShifts_eq_iterate 8 (c ^^^ b.setWidth 16), rfl, fun d b => crc16_append d [b]⟩

/-! ### The step in EXEC -/

theorem localOp_exec {op : Op} {b : Byte} {entry : State → State} {work : State → Result} {s : State}
    (h : s.fsm.state = .exec) : localOp op b entry work s = work s := by
  rw [localOp, h]

/-- The end that CRC_INIT, CRC_BYTE and CRC_SPAN share: the new accumulator, then the completion (R127). -/
theorem complete_setCrc (c : Crc) (s : State) : complete (setCrc c s) = ended .none (withCrc c s) := rfl

theorem exec_crcInit_exec (b : Byte) {s : State} (h : s.fsm.state = .exec) :
    exec (.crcInit b) s = .next (ended .none (withCrc 0xFFFF#16 s)) := by
  rw [exec, execCrcInit, localOp_exec h, complete_setCrc]

theorem exec_crcByte_exec (b : Byte) {s : State} (h : s.fsm.state = .exec) :
    exec (.crcByte b) s = .next (ended .none (withCrc (crcStep s.regs.crc s.fsm.byte) s)) := by
  rw [exec, execCrcByte, localOp_exec h, complete_setCrc]

theorem exec_crcSpan_ok (b : Byte) {s : State} {d : List Byte} (h : s.fsm.state = .exec) (hd : payloadSpan s = .ok d) :
    exec (.crcSpan b) s = .next (ended .none (withCrc (crc16 d) s)) := by
  rw [exec, execCrcSpan, localOp_exec h, hd, ← complete_setCrc]

theorem exec_crcSpan_error (b : Byte) {s : State} {f : Fault} (h : s.fsm.state = .exec) (hf : payloadSpan s = .error f) :
    exec (.crcSpan b) s = .fault f := by
  rw [exec, execCrcSpan, localOp_exec h, hf]

/-- Settles O7: the word and start of a local operation, and its EXEC step. -/
theorem crcInitSetsInitialValue : Obligations.CrcInitSetsInitialValue := fun b s =>
  have ⟨hword, hstart⟩ := decodeCmd_and_start (op := .crcInit) (by decide) nofun b s
  ⟨hword, hstart, exec_crcInit_exec b⟩

/-- Settles O8: the word and start of a local operation, its EXEC step, and R92's corner values. -/
theorem crcByteFoldsOneByte : Obligations.CrcByteFoldsOneByte := by
  refine ⟨fun b s => ?_, by decide⟩
  obtain ⟨hword, hstart⟩ := decodeCmd_and_start (op := .crcByte) (by decide) nofun b s
  exact ⟨hword, hstart, exec_crcByte_exec b⟩

/-! ### The payload span -/

theorem memSpan_of_holdsAt {a : Nat} {d : List Byte} {m : Memory} (h : holdsAt a d m) : memSpan m a d.length = .ok d :=
  memSpan_ok_iff.2 ⟨rfl, h⟩

/-- A span with an unwritten byte stops at an unwritten byte of it (R51). -/
theorem memSpan_of_unwrittenIn {a n : Nat} {m : Memory} (h : unwrittenIn a n m) :
    ∃ i, i < n ∧ memRead m (a + i) = none ∧ memSpan m a n = .error (.uninitRead (a + i)) := by
  cases hm : memSpan m a n with
  | error f =>
    obtain ⟨i, hi, rfl, hnone⟩ := memSpan_error hm
    exact ⟨i, hi, hnone, rfl⟩
  | ok d =>
    obtain ⟨i, hi, hnone⟩ := h
    obtain ⟨hlen, hd⟩ := memSpan_ok_iff.1 hm
    rw [hd i hi, List.getElem?_eq_none_iff] at hnone
    omega

/-- `PBUF[0 .. CMD_SIZE]` is the payload that PBUF holds (R93). -/
theorem payloadSpan_of_holdsAt {s : State} {d : List Byte} (hlen : d.length = s.regs.cmdSize.toNat)
    (h : holdsAt 0x100 d s.mem) : payloadSpan s = .ok d := by
  rw [payloadSpan, ← hlen]
  exact memSpan_of_holdsAt h

/-- CRC_SPAN on a payload with an unwritten byte is UNINIT_READ of such a byte (R51, R93). -/
theorem exec_crcSpan_unwritten (b : Byte) {s : State} (hs : s.fsm.state = .exec)
    (h : unwrittenIn 0x100 s.regs.cmdSize.toNat s.mem) :
    stopsUninit 0x100 s.regs.cmdSize.toNat s.mem (exec (.crcSpan b) s) := by
  obtain ⟨i, hi, hnone, hspan⟩ := memSpan_of_unwrittenIn h
  exact ⟨i, hi, hnone, exec_crcSpan_error b hs hspan⟩

theorem payloadSpan_of_cmdSize_zero {s : State} (h : s.regs.cmdSize = 0#8) : payloadSpan s = .ok [] :=
  payloadSpan_of_holdsAt (by rw [h]; rfl) nofun

/-- Settles O10: CRC_SPAN's EXEC step by what its span reads as; the empty span has checksum 0xFFFF (R90). -/
theorem crcSpanChecksumsPayload : Obligations.CrcSpanChecksumsPayload := by
  refine ⟨fun b s => ?_, by decide +kernel⟩
  obtain ⟨hword, hstart⟩ := decodeCmd_and_start (op := .crcSpan) (by decide) nofun b s
  exact ⟨hword, hstart, fun d hs hlen hd => exec_crcSpan_ok b hs (payloadSpan_of_holdsAt hlen hd),
    exec_crcSpan_unwritten b, fun hs hsize => exec_crcSpan_ok b hs (payloadSpan_of_cmdSize_zero hsize)⟩

end Sys2Proof.Machine
end

section
/-! The request frame (30_encoding.md R74, R76; 41_frame_encode.md R97): what each of its bytes is. -/

namespace Sys2Proof.Machine

/-! ### The checksum behind a byte sequence -/

theorem withChecksum_getElem?_lt {h : List Byte} {i : Nat} (hi : i < h.length) : (withChecksum h)[i]? = h[i]? :=
  List.getElem?_append_left hi

/-- Behind `h` stand the two bytes of the checksum of what precedes them, low byte first (R80). -/
theorem withChecksum_trailer (h : List Byte) :
    (withChecksum h)[h.length]? = some (crcLsb (crc16 ((withChecksum h).take h.length))) ∧
      (withChecksum h)[h.length + 1]? = some (crcMsb (crc16 ((withChecksum h).take h.length))) := by
  have htake : (withChecksum h).take h.length = h := List.take_left
  rw [htake]
  simp [withChecksum]

/-! ### The frame -/

theorem requestFrame_trailer (a o : Byte) (p : List Byte) :
    (requestFrame a o p)[3 + p.length]? = some (crcLsb (crc16 ((requestFrame a o p).take (p.length + 3)))) ∧
      (requestFrame a o p)[4 + p.length]? = some (crcMsb (crc16 ((requestFrame a o p).take (p.length + 3)))) := by
  rw [Nat.add_comm 3, Nat.add_comm 4]
  exact withChecksum_trailer (BitVec.ofNat 8 (p.length + 4) :: a :: o :: p)

theorem requestFrame_payload (a o : Byte) {p : List Byte} {i : Nat} (hi : i < p.length) :
    (requestFrame a o p)[3 + i]? = p[i]? := by
  rw [Nat.add_comm]
  exact withChecksum_getElem?_lt (h := BitVec.ofNat 8 (p.length + 4) :: a :: o :: p) (Nat.add_lt_add_right hi 3)

/-- Settles O13: up to 251 bytes the frame is `requestFrame`, and `p.length + 4` is then a byte value. -/
theorem requestFrameLayout : Obligations.RequestFrameLayout := by
  refine fun a o p => ⟨fun h => if_pos h, fun h => ⟨requestFrame a o p, encodeFrame_ok h, requestFrame_length a o p,
    ?_, rfl, rfl, fun i => requestFrame_payload a o, requestFrame_trailer a o p⟩⟩
  have hlen : (BitVec.ofNat 8 (p.length + 4)).toNat = p.length + 4 := Nat.mod_eq_of_lt (by omega)
  exact congrArg some hlen

end Sys2Proof.Machine
end

section
/-! The encode stage and ENCODE (41_frame_encode.md R98, R100): the stage by CMD_SIZE and what the payload span reads
as, then ENCODE's EXEC step. -/

namespace Sys2Proof.Machine

/-! ### The encode stage -/

theorem encodeStage_of_payload {s : State} {p : List Byte} (hsize : s.regs.cmdSize.toNat ≤ 251)
    (hp : payloadSpan s = .ok p) :
    encodeStage s = .goOn (storeFrame (requestFrame s.regs.cmdAddr s.regs.cmdOpcode p) s) := by
  have hlen : p.length = s.regs.cmdSize.toNat := memSpan_length hp
  simp only [encodeStage, maxPayload, Nat.not_lt.2 hsize, if_false, hp, encodeFrame_ok (hlen.trans_le hsize)]

theorem encodeStage_of_too_long {s : State} (hsize : 251 < s.regs.cmdSize.toNat) :
    encodeStage s = .raised (raise .invalidParameter (setTxLen 0 s)) := if_pos hsize

theorem encodeStage_of_unwritten {s : State} {f : Fault} (hsize : s.regs.cmdSize.toNat ≤ 251)
    (hf : payloadSpan s = .error f) : encodeStage s = .stop f := by
  simp only [encodeStage, maxPayload, Nat.not_lt.2 hsize, if_false, hf]

/-- The registers that a stored request frame leaves: TX_LEN and CRC are its length and its checksum (R98). -/
theorem storeFrame_requestFrame_regs (a o : Byte) (p : List Byte) (s : State) :
    (storeFrame (requestFrame a o p) s).regs =
      { s.regs with
        txLen := BitVec.ofNat 9 (p.length + 5)
        crc := crc16 (BitVec.ofNat 8 (p.length + 4) :: a :: o :: p) } := by
  rw [← storeFrame_requestFrame_crc a o p s, ← requestFrame_length a o p]
  rfl

/-! ### ENCODE -/

theorem exec_encode_exec (b : Byte) {s : State} (hs : s.fsm.state = .exec) :
    exec (.encode b) s = finishWith (encodeStage s) := by
  rw [exec, execEncode, localOp_exec hs]

/-- ENCODE on a payload that PBUF holds stores the request frame and completes (R100). -/
theorem exec_encode_ok (b : Byte) {s : State} {p : List Byte} (hs : s.fsm.state = .exec)
    (hsize : s.regs.cmdSize.toNat ≤ 251) (hp : payloadSpan s = .ok p) :
    exec (.encode b) s = .next (complete (storeFrame (requestFrame s.regs.cmdAddr s.regs.cmdOpcode p) s)) := by
  rw [exec_encode_exec b hs, encodeStage_of_payload hsize hp, finishWith]

theorem exec_encode_too_long (b : Byte) {s : State} (hs : s.fsm.state = .exec) (hsize : 251 < s.regs.cmdSize.toNat) :
    exec (.encode b) s = .next (raise .invalidParameter (setTxLen 0 s)) := by
  rw [exec_encode_exec b hs, encodeStage_of_too_long hsize, finishWith]

/-- ENCODE on a payload with an unwritten byte is UNINIT_READ of such a byte (R51, R98). -/
theorem exec_encode_unwritten (b : Byte) {s : State} (hs : s.fsm.state = .exec) (hsize : s.regs.cmdSize.toNat ≤ 251)
    (h : unwrittenIn 0x100 s.regs.cmdSize.toNat s.mem) :
    stopsUninit 0x100 s.regs.cmdSize.toNat s.mem (exec (.encode b) s) := by
  obtain ⟨i, hi, hnone, hspan⟩ := memSpan_of_unwrittenIn h
  refine ⟨i, hi, hnone, ?_⟩
  rw [exec_encode_exec b hs, encodeStage_of_unwritten hsize hspan, finishWith]

/-- Settles O14: the word and start of a local operation, its EXEC step in the three cases of the encode stage, and
R100's example. -/
theorem encodeBuildsRequestFrame : Obligations.EncodeBuildsRequestFrame := by
  refine ⟨fun b s => ?_, by decide +kernel⟩
  obtain ⟨hword, hstart⟩ := decodeCmd_and_start (op := .encode) (by decide) nofun b s
  refine ⟨hword, hstart, fun p hs hsize hlen hp => ?_, exec_encode_too_long b, exec_encode_unwritten b⟩
  refine ⟨_, exec_encode_ok b hs hsize (payloadSpan_of_holdsAt hlen hp), ?_, rfl, memWriteSpan_storedAt s.mem 0x200 _,
    rfl, rfl, rfl, rfl, rfl⟩
  rw [complete_regs, storeFrame_requestFrame_regs, statusCompleted]

end Sys2Proof.Machine
end

section
/-! The write stage and TRANSMIT (41_frame_encode.md R99, R101): the stage by TX_LEN and the channel's answer, then
TRANSMIT's step in TX. -/

namespace Sys2Proof.Machine

/-! ### The write stage -/

theorem txStep_of_txLen_zero {s : State} (h : s.regs.txLen.toNat = 0) :
    txStep s = .raised (raise .invalidParameter s) := if_pos h

/-- With a frame in TXBUF, the write stage is one ChanWrite of it, and goes on exactly for the answer `Ok(TX_LEN)`. -/
theorem txStep_of_frame {s : State} {f : List Byte} (hne : s.regs.txLen.toNat ≠ 0)
    (hf : memSpan s.mem (bufBase .txbuf) s.regs.txLen.toNat = .ok f) :
    txStep s =
      if nextWrite s = .ok f.length then .goOn (afterWrite f s) else .raised (raise .ioError (afterWrite f s)) := by
  simp only [txStep, hne, if_false, hf, chanWrite_eq, memSpan_length hf]
  cases nextWrite s with
  | err => rfl
  | ok k => simp only [WriteAnswer.ok.injEq]

/-! ### TRANSMIT -/

theorem exec_transmit_tx (b : Byte) {s : State} (hs : s.fsm.state = .tx) :
    exec (.transmit b) s = finishWith (txStep s) := by
  simp only [exec, execTransmit, hs]

/-- Settles O15: the word and start of TRANSMIT, and its TX step by TX_LEN and the channel's answer. -/
theorem transmitWritesFrameOnce : Obligations.TransmitWritesFrameOnce := by
  refine fun b s => ⟨decodeCmd_cmdWord (op := .transmit) nofun b, exec_instrOf_idle (op := .transmit) nofun b,
    fun hs hzero => ?_, fun f hs hne hlen hf => ?_⟩
  · rw [exec_transmit_tx b hs, txStep_of_txLen_zero (by rw [hzero]; rfl)]
    rfl
  · have hne' : s.regs.txLen.toNat ≠ 0 := fun h => hne (BitVec.eq_of_toNat_eq h)
    have hspan : memSpan s.mem (bufBase .txbuf) s.regs.txLen.toNat = .ok f := hlen ▸ memSpan_of_holdsAt hf
    rw [exec_transmit_tx b hs, txStep_of_frame hne' hspan]
    exact ⟨fun hok => by rw [if_pos hok]; rfl, fun hok => by rw [if_neg hok]; rfl⟩

end Sys2Proof.Machine
end

section
/-! The receive (42_receive.md R102–R105): how it ends, the poll step and the body step by the channel's answer, and
these steps as transitions of RECEIVE and RUN. -/

namespace Sys2Proof.Machine

/-! ### The end of a receive -/

theorem failReceive_eq_ended (e : ErrKind) (s : State) : failReceive e s = ended e (withRxLen 0#9 s) := rfl

/-- `finish_receive` writes the count byte `RXBUF[0]` and no other byte (R105). -/
theorem finishReceive_mem (s : State) :
    (finishReceive s).mem = memWrite s.mem 0x300 (BitVec.ofNat 8 s.fsm.got) := by
  rcases finishReceive_cases s with ⟨-, h⟩ | ⟨-, h⟩ <;> rw [h] <;> rfl

theorem finishReceive_sameOutside (s : State) : sameOutside s (finishReceive s) := by
  rcases finishReceive_cases s with ⟨-, h⟩ | ⟨-, h⟩ <;> rw [h] <;> exact ⟨rfl, rfl, rfl, rfl, rfl⟩

/-- RECEIVE ends with its completion (R105). -/
theorem finishReceive_of_receive {s : State} (h : s.fsm.op = .receive) :
    (finishReceive s).regs = (ended .none (withRxLen (BitVec.ofNat 9 (1 + s.fsm.got)) s)).regs ∧
      (finishReceive s).fsm = { s.fsm with state := .idle } := by
  rcases finishReceive_cases s with ⟨-, he⟩ | ⟨hne, -⟩
  · rw [he]; exact ⟨rfl, rfl⟩
  · exact absurd h hne

/-- RUN goes on to decode what was received (R105). -/
theorem finishReceive_of_run {s : State} (h : s.fsm.op = .run) :
    (finishReceive s).regs = (withRxLen (BitVec.ofNat 9 (1 + s.fsm.got)) s).regs ∧
      (finishReceive s).fsm = { s.fsm with state := .dec } := by
  rcases finishReceive_cases s with ⟨hop, -⟩ | ⟨-, he⟩
  · rw [h] at hop; nomatch hop
  · rw [he]; exact ⟨rfl, rfl⟩

/-! ### The poll step -/

/-- A read of one byte has three answers: a failure, no data, one byte (R14). -/
theorem nextRead_one_cases (s : State) :
    nextRead 1 s = .err ∨ nextRead 1 s = .ok [] ∨ ∃ len, nextRead 1 s = .ok [len] := by
  rcases pollStep_cases s with ⟨h, -⟩ | ⟨h, -⟩ | ⟨h, -⟩ | ⟨len, h, -⟩
  · exact .inl h
  · exact .inr (.inl h)
  · exact .inr (.inl h)
  · exact .inr (.inr ⟨len, h⟩)

theorem pollStep_of_err {s : State} (h : nextRead 1 s = .err) :
    pollStep s = failReceive .ioError (countPoll (afterRead 1 s)) := by
  simp only [pollStep, chanRead_eq, h]

theorem pollStep_of_noData {s : State} (h : nextRead 1 s = .ok []) :
    pollStep s =
      if s.fsm.pollCnt + 1 = s.cfg.pollBudget then failReceive .timeout (countPoll (afterRead 1 s))
      else countPoll (afterRead 1 s) := by
  simp only [pollStep, chanRead_eq, h, countPoll_fsm, afterRead_fsm]

theorem pollStep_of_byte {s : State} {len : Byte} (h : nextRead 1 s = .ok [len]) :
    pollStep s = startBody len (countPoll (afterRead 1 s)) := by
  simp only [pollStep, chanRead_eq, h]

theorem startBody_zero (s : State) :
    startBody 0#8 s = finishReceive (setFsm { s.fsm with declLen := 0#8, got := 0, bodyCnt := 0 } s) := rfl

theorem startBody_of_ne_zero {len : Byte} (h : len ≠ 0#8) (s : State) :
    startBody len s = { s with fsm := { s.fsm with declLen := len, got := 0, bodyCnt := 0, state := .body } } :=
  if_neg h

/-- The state in which the call has been made and counted, written out. -/
theorem countPoll_afterRead (m : Nat) (s : State) :
    countPoll (afterRead m s) =
      { afterRead m s with
        regs := { s.regs with pollAttempts := BitVec.ofNat 32 (s.fsm.pollCnt + 1) }
        fsm := { s.fsm with pollCnt := s.fsm.pollCnt + 1 } } := by
  simp only [countPoll, setPollAttempts, setFsm, afterRead_regs, afterRead_fsm]

theorem exec_poll {b : Byte} {i : Instr} {s : State} (hi : i = .receive b ∨ i = .run b) (hs : s.fsm.state = .poll) :
    exec i s = .next (pollStep s) := by
  rcases hi with rfl | rfl
  · simp only [exec, execReceive, hs]
  · simp only [exec, execRun, hs]

/-- Settles O17: the poll step by the channel's answer; a length byte 0 is the end of the receive, with nothing got. -/
theorem pollStepByAnswer : Obligations.PollStepByAnswer := by
  intro b i s t hi hs ht
  obtain rfl : t = countPoll (afterRead 1 s) := ht.trans (countPoll_afterRead 1 s).symm
  rw [exec_poll hi hs]
  refine ⟨nextRead_one_cases s, fun h => ?err, fun h hlast => ?last, fun h hmore => ?more, fun len h hlen => ?byte,
    fun h => ?zero⟩
  case err => rw [pollStep_of_err h, failReceive_eq_ended]
  case last => rw [pollStep_of_noData h, if_pos hlast, failReceive_eq_ended]
  case more => rw [pollStep_of_noData h, if_neg hmore]
  case byte => rw [pollStep_of_byte h, startBody_of_ne_zero hlen]
  case zero =>
    rw [pollStep_of_byte h, startBody_zero]
    refine ⟨_, rfl, ?_, finishReceive_sameOutside _, fun hop => finishReceive_of_receive (by simpa using hop),
      fun hop => finishReceive_of_run (by simpa using hop)⟩
    rw [finishReceive_mem, setFsm_mem, countPoll_mem, afterRead_mem]
    exact memWriteSpan_storedAt s.mem 0x300 [0x00#8]

/-! ### The body step -/

/-- `s` once the bytes `bs` have arrived in BODY: they are stored in RXBUF behind those got before, and
counted (R104). -/
def bodyStored (bs : List Byte) (s : State) : State :=
  setFsm { s.fsm with got := s.fsm.got + bs.length } (setMem (memWriteSpan s.mem (0x301 + s.fsm.got) bs) s)

@[simp] theorem bodyStored_regs (bs : List Byte) (s : State) : (bodyStored bs s).regs = s.regs := rfl
@[simp] theorem bodyStored_fsm (bs : List Byte) (s : State) :
    (bodyStored bs s).fsm = { s.fsm with got := s.fsm.got + bs.length } := rfl
@[simp] theorem bodyStored_mem (bs : List Byte) (s : State) :
    (bodyStored bs s).mem = memWriteSpan s.mem (0x301 + s.fsm.got) bs := rfl

/-- Bytes that arrive in BODY are stored, and the last of them end the receive (R104). -/
theorem storeBody_eq (bs : List Byte) (s : State) :
    storeBody bs s =
      if s.fsm.got + bs.length = s.fsm.declLen.toNat then finishReceive (bodyStored bs s) else bodyStored bs s := rfl

theorem bodyStored_sameOutside (bs : List Byte) (s : State) : sameOutside s (bodyStored bs s) :=
  ⟨rfl, rfl, rfl, rfl, rfl⟩

section
variable {s : State} {n : Nat} (hn : s.fsm.declLen.toNat = s.fsm.got + n)
include hn

theorem bodyStep_of_err (h : nextRead n s = .err) : bodyStep s = failReceive .ioError (afterRead n s) := by
  simp only [bodyStep, Nat.sub_eq_of_eq_add' hn, chanRead_eq, h]

theorem bodyStep_of_noData (h : nextRead n s = .ok []) :
    bodyStep s =
      if s.fsm.bodyCnt + 1 = s.cfg.bodyPollBudget then
        failReceive .ioError (setFsm { s.fsm with bodyCnt := s.fsm.bodyCnt + 1 } (afterRead n s))
      else setFsm { s.fsm with bodyCnt := s.fsm.bodyCnt + 1 } (afterRead n s) := by
  simp only [bodyStep, Nat.sub_eq_of_eq_add' hn, chanRead_eq, h, setFsm_fsm]

theorem bodyStep_of_bytes {bs : List Byte} (h : nextRead n s = .ok bs) (hne : bs ≠ []) :
    bodyStep s = storeBody bs (afterRead n s) := by
  cases bs with
  | nil => exact absurd rfl hne
  | cons b bs => simp only [bodyStep, Nat.sub_eq_of_eq_add' hn, chanRead_eq, h]

theorem bodyStep_of_some_missing {bs : List Byte} (h : nextRead n s = .ok bs) (hne : bs ≠ []) (hlt : bs.length < n) :
    bodyStep s = bodyStored bs (afterRead n s) := by
  rw [bodyStep_of_bytes hn h hne, storeBody_eq, afterRead_fsm, if_neg (by omega)]

theorem bodyStep_of_none_missing {bs : List Byte} (h : nextRead n s = .ok bs) (hne : bs ≠ []) (heq : bs.length = n) :
    bodyStep s = finishReceive (bodyStored bs (afterRead n s)) := by
  rw [bodyStep_of_bytes hn h hne, storeBody_eq, afterRead_fsm, if_pos (by omega)]

end

theorem exec_body {b : Byte} {i : Instr} {s : State} (hi : i = .receive b ∨ i = .run b) (hs : s.fsm.state = .body) :
    exec i s = .next (bodyStep s) := by
  rcases hi with rfl | rfl
  · simp only [exec, execReceive, hs]
  · simp only [exec, execRun, hs]

/-- With the count byte written, RXBUF holds the declared length, then the bytes stored behind those got before; every
other byte is as before (R104, R105). -/
theorem finishReceive_bodyStored_mem {s : State} {bs : List Byte} (h : s.fsm.got + bs.length = s.fsm.declLen.toNat) :
    (finishReceive (bodyStored bs s)).mem =
      memWrite (memWriteSpan s.mem (0x301 + s.fsm.got) bs) 0x300 s.fsm.declLen := by
  have hcount : BitVec.ofNat 8 (s.fsm.got + bs.length) = s.fsm.declLen := by
    rw [h, BitVec.ofNat_toNat, BitVec.setWidth_eq]
  rw [finishReceive_mem, bodyStored_mem, bodyStored_fsm, hcount]

/-- Settles O18: the body step by the channel's answer; the bytes that come are stored, and the last ones end the
receive. -/
theorem bodyStepByAnswer : Obligations.BodyStepByAnswer := by
  intro b i s n hi hs hn _
  rw [exec_body hi hs]
  refine ⟨fun h => ?err, fun h hlast => ?last, fun h hmore => ?more,
    fun bs h hne => ⟨nextRead_length h, fun hlt => ?missing, fun heq => ?complete⟩⟩
  case err => rw [bodyStep_of_err hn h, failReceive_eq_ended]
  case last => rw [bodyStep_of_noData hn h, if_pos hlast, failReceive_eq_ended, setFsm]
  case more => rw [bodyStep_of_noData hn h, if_neg hmore, setFsm]
  case missing =>
    refine ⟨_, congrArg _ (bodyStep_of_some_missing hn h hne hlt), ?_, bodyStored_sameOutside .., ?_, ?_⟩
    · rw [bodyStored_mem, afterRead_fsm, afterRead_mem]
      exact memWriteSpan_storedAt s.mem (0x301 + s.fsm.got) bs
    · rw [bodyStored_regs, afterRead_regs]
    · rw [bodyStored_fsm, afterRead_fsm]
  case complete =>
    have hall : s.fsm.got + bs.length = s.fsm.declLen.toNat := by omega
    have hmem := finishReceive_bodyStored_mem (s := afterRead n s) (bs := bs) (by rwa [afterRead_fsm])
    refine ⟨_, congrArg _ (bodyStep_of_none_missing hn h hne heq), finishReceive_sameOutside _, ?_, ?_, ?_, ?_, ?_⟩
    · rw [hmem, memRead_memWrite_same, afterRead_fsm]
    · intro j hj
      rw [hmem, memRead_memWrite_of_ne _ _ (by omega), afterRead_fsm, memRead_memWriteSpan_inside _ hj]
    · intro a ha hout
      rw [hmem, memRead_memWrite_of_ne _ _ ha, afterRead_fsm, memRead_memWriteSpan_outside _ hout, afterRead_mem]
    · intro hop
      simpa [ended, withRxLen, hall] using
        finishReceive_of_receive (s := bodyStored bs (afterRead n s)) (by simpa using hop)
    · intro hop
      simpa [ended, withRxLen, hall] using
        finishReceive_of_run (s := bodyStored bs (afterRead n s)) (by simpa using hop)

end Sys2Proof.Machine
end

section
/-! The function `decode_buf` (43_decode_validate.md R110): its two checks, and where the fields of the response stand
in the buffer. -/

namespace Sys2Proof.Machine

/-! ### The two checks -/

theorem decodeBuf_of_short {buf : List Byte} (h : buf.length < 6) : decodeBuf buf = .error .malformed := if_pos h

/-- From six bytes on, the comparison of the two checksums alone decides. -/
theorem decodeBuf_of_six_le {buf : List Byte} (h : 6 ≤ buf.length) :
    decodeBuf buf =
      if bufChecksum buf = bufTrailer buf then .ok (bufResponse buf) else .error .checksumMismatch := by
  rw [decodeBuf, minFrame, if_neg (Nat.not_lt.2 h), ite_not]

/-! ### The fields and the carried checksum -/

theorem getD_of_getElem? {buf : List Byte} {i : Nat} {b : Byte} (h : buf[i]? = some b) : buf.getD i 0 = b := by
  rw [List.getD_eq_getElem?_getD, h, Option.getD_some]

theorem getElem?_eq_some_getD {buf : List Byte} {i : Nat} (h : i < buf.length) : buf[i]? = some (buf.getD i 0) := by
  rw [List.getD_eq_getElem _ _ h, List.getElem?_eq_getElem h]

theorem bufTrailer_of_getElem? {buf : List Byte} {lo hi : Byte} (hlo : buf[buf.length - 2]? = some lo)
    (hhi : buf[buf.length - 1]? = some hi) : bufTrailer buf = crcOfBytes lo hi := by
  rw [bufTrailer, getD_of_getElem? hlo, getD_of_getElem? hhi]

theorem bufResponse_payload_length (buf : List Byte) : (bufResponse buf).payload.length = buf.length - 6 := by
  simp only [bufResponse, List.length_drop, List.length_take]
  omega

/-- The payload is `buf[4 .. n-2]` (R81). -/
theorem bufResponse_payload_getElem? {buf : List Byte} {j : Nat} (h : j < buf.length - 6) :
    (bufResponse buf).payload[j]? = buf[4 + j]? := by
  rw [bufResponse, List.getElem?_drop, List.getElem?_take_of_lt (by omega)]

/-- Settles O21: the length check, the comparison with the carried checksum, and the fields of `bufResponse`. -/
theorem decodeBufMakesTwoChecks : Obligations.DecodeBufMakesTwoChecks := by
  refine fun buf => ⟨decodeBuf_of_short, fun h6 lo hi hlo hhi => ?_⟩
  have htrailer : bufTrailer buf = lo.setWidth 16 ||| (hi.setWidth 16 <<< 8) := bufTrailer_of_getElem? hlo hhi
  rw [decodeBuf_of_six_le h6, htrailer]
  exact ⟨fun hne => if_neg hne, fun heq => ⟨bufResponse buf, if_pos heq, responseSize_toNat,
    getElem?_eq_some_getD (by omega), getElem?_eq_some_getD (by omega), getElem?_eq_some_getD (by omega),
    bufResponse_payload_length buf, fun j => bufResponse_payload_getElem?⟩⟩

end Sys2Proof.Machine
end

section
/-! The decode stage (43_decode_validate.md R111) by RX_LEN and by what `RXBUF[0 .. RX_LEN]` reads as, and its step in
DECODE and in RUN (R112). -/

namespace Sys2Proof.Machine

/-! ### The decode stage -/

theorem decodeStage_of_too_long {s : State} (h : 256 < s.regs.rxLen.toNat) :
    decodeStage s = .raised (raise .invalidParameter s) := if_pos h

theorem decodeStage_of_short {s : State} (h : s.regs.rxLen.toNat < 6) :
    decodeStage s = .raised (raise .malformed s) := by
  rw [decodeStage, if_neg (by omega), minFrame, if_pos h]

theorem decodeStage_of_unwritten {s : State} {f : Fault} (h6 : 6 ≤ s.regs.rxLen.toNat)
    (h256 : s.regs.rxLen.toNat ≤ 256) (hf : memSpan s.mem (bufBase .rxbuf) s.regs.rxLen.toNat = .error f) :
    decodeStage s = .stop f := by
  simp only [decodeStage, minFrame, Nat.not_lt.2 h6, Nat.not_lt.2 h256, if_false, hf]

/-- On a whole buffer of a length in range, the comparison of the two checksums decides; CRC is written either way. -/
theorem decodeStage_of_buffer {s : State} {buf : List Byte} (h6 : 6 ≤ s.regs.rxLen.toNat)
    (h256 : s.regs.rxLen.toNat ≤ 256) (hb : memSpan s.mem (bufBase .rxbuf) s.regs.rxLen.toNat = .ok buf) :
    decodeStage s =
      if bufChecksum buf = bufTrailer buf then .goOn (setResponse (bufResponse buf) (setCrc (bufChecksum buf) s))
      else .raised (raise .checksumMismatch (setCrc (bufChecksum buf) s)) := by
  simp only [decodeStage, minFrame, Nat.not_lt.2 h6, Nat.not_lt.2 h256, if_false, hb,
    decodeBuf_of_six_le (h6.trans_eq (memSpan_length hb).symm)]
  by_cases hc : bufChecksum buf = bufTrailer buf
  · simp only [if_pos hc]
  · simp only [if_neg hc]

/-! ### DECODE in EXEC and RUN in DEC -/

theorem exec_decodeStage {b : Byte} {i : Instr} {s : State}
    (h : (i = .decode b ∧ s.fsm.state = .exec) ∨ (i = .run b ∧ s.fsm.state = .dec)) :
    exec i s = finishWith (decodeStage s) := by
  rcases h with ⟨rfl, hs⟩ | ⟨rfl, hs⟩
  · rw [exec, execDecode, localOp_exec hs]
  · simp only [exec, execRun, hs]

/-- The response registers of a buffer whose fields are `ra`, `rc` and `rs`, written out (R111). -/
theorem setResponse_bufResponse {buf : List Byte} {ra rc rs : Byte} (hlen : buf.length ≤ 261)
    (hra : buf[1]? = some ra) (hrc : buf[2]? = some rc) (hrs : buf[3]? = some rs) (s : State) :
    setResponse (bufResponse buf) s =
      { s with
        regs :=
          { s.regs with
            respSize := BitVec.ofNat 8 (buf.length - 6), respAddr := ra, respCode := rc, respStatus := rs
            status := { s.regs.status with respValid := true } } } := by
  rw [setResponse, bufResponse, responseSize, if_pos hlen, getD_of_getElem? hra, getD_of_getElem? hrc,
    getD_of_getElem? hrs]
  rfl

/-- Settles O22: the word and start of DECODE, and the step in EXEC or DEC in the five cases of the decode stage. -/
theorem decodeStageValidatesBuffer : Obligations.DecodeStageValidatesBuffer := by
  refine fun b i s => ⟨decodeCmd_cmdWord (op := .decode) nofun b, exec_instrOf_idle (op := .decode) nofun b,
    fun hstep => ?_⟩
  rw [exec_decodeStage hstep]
  refine ⟨fun hlong => ?too_long, fun hshort => ?short, fun h6 h256 hun => ?unwritten,
    fun buf ra rc rs lo hi h6 h256 hlen hbuf hra hrc hrs hlo hhi => ?buffer⟩
  case too_long => rw [decodeStage_of_too_long hlong]; rfl
  case short => rw [decodeStage_of_short hshort]; rfl
  case unwritten =>
    obtain ⟨j, hj, hnone, hspan⟩ := memSpan_of_unwrittenIn hun
    exact ⟨j, hj, hnone, by rw [decodeStage_of_unwritten h6 h256 hspan, finishWith]⟩
  case buffer =>
    have hspan : memSpan s.mem (bufBase .rxbuf) s.regs.rxLen.toNat = .ok buf := hlen ▸ memSpan_of_holdsAt hbuf
    have htrailer : bufTrailer buf = lo.setWidth 16 ||| (hi.setWidth 16 <<< 8) := bufTrailer_of_getElem? hlo hhi
    rw [decodeStage_of_buffer h6 h256 hspan, htrailer, bufChecksum, setResponse_bufResponse (by omega) hra hrc hrs]
    exact ⟨fun hne => by rw [if_neg hne]; rfl, fun heq => by rw [if_pos heq]; rfl⟩

end Sys2Proof.Machine
end

section
/-! RUN with no host access between its steps (44_exchange.md R117–R120): what a RUN in progress is, how many block steps
it has left (R108, R155), and the two ways in which it ends: with an error, or with the response of the buffer received. -/

namespace Sys2Proof.Machine

/-! ### Block steps to the end of an operation -/

theorem settle_of_idle {s : State} (n : Nat) (h : s.fsm.state = .idle) : settle n s = .next s := by
  cases n with
  | zero => rfl
  | succ n => exact if_pos h

theorem settle_succ_next {n : Nat} {s t : State} (hs : s.fsm.state ≠ .idle) (h : settle (n + 1) s = .next t) :
    ∃ u, blockStep s = .next u ∧ settle n u = .next t := by
  rw [settle, if_neg hs] at h
  split at h
  · next u hu => exact ⟨u, hu, h⟩
  · cases h
  · cases h

/-! ### A RUN in progress -/

/-- A RUN in progress, with the ranges of its counters (R29, R103, R104). -/
structure Running (s : State) : Prop where
  config : configOk s.cfg = true
  op : s.fsm.op = .run
  notIdle : s.fsm.state ≠ .idle
  noResponse : s.regs.status.respValid = false
  poll : s.fsm.state = .poll → s.fsm.pollCnt < s.cfg.pollBudget
  body : s.fsm.state = .body → s.fsm.got < s.fsm.declLen.toNat ∧ s.fsm.bodyCnt < s.cfg.bodyPollBudget

/-- A bound on the block steps that a RUN in this state still takes (R108, R155). -/
def stepsLeft (c : Config) (f : Fsm) : Nat :=
  match f.state with
  | .idle => 0
  | .dec => 1
  | .body => (c.bodyPollBudget - f.bodyCnt) + (f.declLen.toNat - f.got)
  | .poll => (c.pollBudget - f.pollCnt) + c.bodyPollBudget + 255
  | .tx => receiveBound c + 1
  | .exec => receiveBound c + 2

/-- RUN ends from `s` in `t`: with an error, or with the response that `RXBUF[0 .. RX_LEN]` holds (R111, R120). -/
inductive RunEnds (s t : State) : Prop where
  | failed (e : ErrKind) : e ≠ .none → t.fsm.state = .idle → t.regs.status = statusCompleted e s.regs.status →
      RunEnds s t
  | responded (buf : List Byte) : 6 ≤ s.regs.rxLen.toNat → s.regs.rxLen.toNat ≤ 256 →
      memSpan s.mem (bufBase .rxbuf) s.regs.rxLen.toNat = .ok buf → bufChecksum buf = bufTrailer buf →
      t = complete (setResponse (bufResponse buf) (setCrc (bufChecksum buf) s)) → RunEnds s t

/-- `t` is a RUN in progress with fewer steps left than in `s`. -/
def RunAdvances (s t : State) : Prop := Running t ∧ stepsLeft t.cfg t.fsm < stepsLeft s.cfg s.fsm

theorem Running.budgets_pos {s : State} (hr : Running s) : 0 < s.cfg.pollBudget ∧ 0 < s.cfg.bodyPollBudget := by
  obtain ⟨hp, -, hb, -⟩ := (configOk_iff s.cfg).1 hr.config
  exact ⟨hp, hb⟩

/-- A RUN in progress has a step left. -/
theorem Running.stepsLeft_pos {s : State} (hr : Running s) : 0 < stepsLeft s.cfg s.fsm := by
  have hbody := hr.body
  cases hs : s.fsm.state with
  | idle => exact absurd hs hr.notIdle
  | exec | tx | poll | dec => simp [stepsLeft, hs]
  | body =>
    obtain ⟨hgot, hcnt⟩ := hbody hs
    simp only [stepsLeft, hs]
    omega

/-- After RUN's acceptance and entry action it is in progress (R117). -/
theorem running_enterOp_run (b : Byte) {s : State} (hc : configOk s.cfg = true) : Running (enterOp .run b s) where
  config := hc
  op := rfl
  notIdle := nofun
  noResponse := rfl
  poll := nofun
  body := nofun

/-! ### The receive steps of RUN -/

/-- Once all bytes have come, one step is left: the decode (R105). -/
theorem finishReceive_running {s : State} (hc : configOk s.cfg = true) (hop : s.fsm.op = .run)
    (hresp : s.regs.status.respValid = false) :
    Running (finishReceive s) ∧ stepsLeft (finishReceive s).cfg (finishReceive s).fsm = 1 := by
  obtain ⟨hcfg, -⟩ := finishReceive_sameOutside s
  obtain ⟨hregs, hfsm⟩ := finishReceive_of_run hop
  refine ⟨⟨by rwa [hcfg], by rw [hfsm, hop], ?_, by rwa [hregs], ?_, ?_⟩, by rw [hfsm]; rfl⟩ <;> rw [hfsm] <;> nofun

theorem runEnds_failReceive {s u : State} {e : ErrKind} (he : e ≠ .none) (hu : u.regs.status = s.regs.status) :
    RunEnds s (failReceive e u) :=
  .failed e he rfl (by rw [failReceive_regs, hu])

/-- The length byte ends the poll, which had an attempt left (R103). -/
theorem Running.startBody_advances {s : State} (hr : Running s) (hs : s.fsm.state = .poll) (len : Byte) :
    RunAdvances s (startBody len (countPoll (afterRead 1 s))) := by
  have hleft : stepsLeft s.cfg s.fsm = (s.cfg.pollBudget - s.fsm.pollCnt) + s.cfg.bodyPollBudget + 255 := by
    rw [stepsLeft, hs]
  have hp := hr.poll hs
  have hbudget := hr.budgets_pos.2
  by_cases hlen : len = 0#8
  · subst hlen
    rw [startBody_zero]
    obtain ⟨hrun, hone⟩ := finishReceive_running
      (s := setFsm { (countPoll (afterRead 1 s)).fsm with declLen := 0#8, got := 0, bodyCnt := 0 }
        (countPoll (afterRead 1 s)))
      (by simpa using hr.config) (by simpa using hr.op) (by simpa using hr.noResponse)
    exact ⟨hrun, by omega⟩
  · rw [startBody_of_ne_zero hlen]
    have hpos : 0 < len.toNat := Nat.pos_of_ne_zero fun h => hlen (BitVec.eq_of_toNat_eq h)
    have hlt : len.toNat < 256 := len.isLt
    refine ⟨⟨by simpa using hr.config, by simpa using hr.op, nofun, by simpa using hr.noResponse, nofun,
      fun _ => ⟨hpos, by simpa using hbudget⟩⟩, ?_⟩
    rw [hleft]
    simp only [stepsLeft, countPoll_cfg, afterRead_cfg]
    omega

theorem Running.pollStep_advances_or_ends {s : State} (hr : Running s) (hs : s.fsm.state = .poll) :
    RunAdvances s (pollStep s) ∨ RunEnds s (pollStep s) := by
  rcases pollStep_cases s with ⟨-, h⟩ | ⟨-, -, h⟩ | ⟨-, hmore, h⟩ | ⟨len, -, h⟩ <;> rw [h]
  · exact .inr (runEnds_failReceive nofun (by simp))
  · exact .inr (runEnds_failReceive nofun (by simp))
  · have hp := hr.poll hs
    refine .inl ⟨⟨by simpa using hr.config, by simpa using hr.op, by simp [hs], by simpa using hr.noResponse,
      fun _ => ?_, by simp [hs]⟩, ?_⟩
    · simp only [countPoll_fsm, countPoll_cfg, afterRead_fsm, afterRead_cfg]
      omega
    · simp only [stepsLeft, countPoll_fsm, countPoll_cfg, afterRead_fsm, afterRead_cfg, hs]
      omega
  · exact .inl (hr.startBody_advances hs len)

/-- Bytes that arrive leave fewer missing, or end the receive (R104). -/
theorem Running.storeBody_advances {s : State} (hr : Running s) (hs : s.fsm.state = .body) (m : Nat) {bs : List Byte}
    (hne : bs ≠ []) (hle : bs.length ≤ s.fsm.declLen.toNat - s.fsm.got) :
    RunAdvances s (storeBody bs (afterRead m s)) := by
  have hleft : stepsLeft s.cfg s.fsm =
      (s.cfg.bodyPollBudget - s.fsm.bodyCnt) + (s.fsm.declLen.toNat - s.fsm.got) := by rw [stepsLeft, hs]
  have hpos : 0 < bs.length := List.length_pos_of_ne_nil hne
  obtain ⟨hgot, hcnt⟩ := hr.body hs
  rw [storeBody_eq, afterRead_fsm]
  split
  · obtain ⟨hrun, hone⟩ := finishReceive_running (s := bodyStored bs (afterRead m s))
      (by simpa [bodyStored] using hr.config) (by simpa using hr.op) (by simpa using hr.noResponse)
    exact ⟨hrun, by omega⟩
  · refine ⟨⟨by simpa [bodyStored] using hr.config, by simpa using hr.op, by simp [hs], by simpa using hr.noResponse,
      by simp [hs], fun _ => ?_⟩, ?_⟩
    · simp only [bodyStored, setFsm_fsm, setFsm_cfg, setMem_cfg, afterRead_fsm, afterRead_cfg]
      omega
    · simp only [stepsLeft, bodyStored, setFsm_fsm, setFsm_cfg, setMem_cfg, afterRead_fsm, afterRead_cfg, hs]
      omega

theorem Running.bodyStep_advances_or_ends {s : State} (hr : Running s) (hs : s.fsm.state = .body) :
    RunAdvances s (bodyStep s) ∨ RunEnds s (bodyStep s) := by
  rcases bodyStep_cases s with ⟨-, h⟩ | ⟨-, -, h⟩ | ⟨-, hmore, h⟩ | ⟨bs, hne, hle, -, h⟩ <;> rw [h]
  · exact .inr (runEnds_failReceive nofun (by simp))
  · exact .inr (runEnds_failReceive nofun (by simp))
  · obtain ⟨hgot, hcnt⟩ := hr.body hs
    refine .inl ⟨⟨by simpa using hr.config, by simpa using hr.op, by simp [hs], by simpa using hr.noResponse,
      by simp [hs], fun _ => ?_⟩, ?_⟩
    · simp only [setFsm_fsm, setFsm_cfg, afterRead_cfg]
      omega
    · simp only [stepsLeft, setFsm_fsm, setFsm_cfg, afterRead_cfg, hs]
      omega
  · exact .inl (hr.storeBody_advances hs _ hne hle)

/-! ### One step of RUN, and the run to its end -/

/-- A step of a RUN in progress brings it nearer to its end, or is its end (R117, R119). -/
theorem Running.moves_advances_or_ends {s t : State} {b : Byte} (hr : Running s) (h : Moves (.run b) s t) :
    RunAdvances s t ∨ RunEnds s t := by
  cases h with
  | stay hu => nomatch hu
  | acceptLocal hs | acceptDecode hs | acceptTransmit hs | acceptReceive hs | acceptRun hs => exact absurd hs hr.notIdle
  | crcDone hi | opcode hi => simp at hi
  | invalidDone hi | encodeDone hi | txDone hi => nomatch hi
  | encodeRun _ hs =>
    refine .inl ⟨⟨hr.config, hr.op, nofun, hr.noResponse, nofun, nofun⟩, ?_⟩
    simp [stepsLeft, hs]
  | encodeFailed => exact .inr (.failed .invalidParameter nofun rfl rfl)
  | txRun _ hs =>
    refine .inl ⟨⟨by simpa using hr.config, by simpa using hr.op, nofun, by simpa using hr.noResponse,
      fun _ => by simpa using hr.budgets_pos.1, nofun⟩, ?_⟩
    simp [stepsLeft, receiveBound, hs]
  | txEmpty => exact .inr (.failed .invalidParameter nofun rfl rfl)
  | txFailed => exact .inr (.failed .ioError nofun rfl (by simp))
  | poll _ hs => exact hr.pollStep_advances_or_ends hs
  | body _ hs => exact hr.bodyStep_advances_or_ends hs
  | decodeDone _ h6 h256 hbuf hcrc => exact .inr (.responded _ h6 h256 hbuf hcrc rfl)
  | decodeTooLong => exact .inr (.failed .invalidParameter nofun rfl rfl)
  | decodeTooShort => exact .inr (.failed .malformed nofun rfl rfl)
  | decodeMismatch => exact .inr (.failed .checksumMismatch nofun rfl rfl)

theorem Running.blockStep_advances_or_ends {s t : State} (hr : Running s) (h : blockStep s = .next t) :
    RunAdvances s t ∨ RunEnds s t := by
  rcases blockStep_next h with ⟨hidle, -⟩ | ⟨-, hm⟩
  · exact absurd hidle hr.notIdle
  · rw [hr.op] at hm
    exact hr.moves_advances_or_ends hm

theorem RunEnds.idle {s t : State} (h : RunEnds s t) : t.fsm.state = .idle := by
  cases h with
  | failed e _ hidle => exact hidle
  | responded buf _ _ _ _ ht => rw [ht]; rfl

/-- As many block steps as are left take a RUN to its end, unless the model stops. -/
theorem Running.settle_ends {n : Nat} {s t : State} (hr : Running s) (hn : stepsLeft s.cfg s.fsm ≤ n)
    (h : settle n s = .next t) : ∃ u, Running u ∧ RunEnds u t := by
  induction n generalizing s with
  | zero => exact absurd hr.stepsLeft_pos (by omega)
  | succ n ih =>
    obtain ⟨u, hu, hrest⟩ := settle_succ_next hr.notIdle h
    rcases hr.blockStep_advances_or_ends hu with ⟨hrun, hless⟩ | hend
    · exact ih hrun (by omega) hrest
    · rw [settle_of_idle n hend.idle] at hrest
      cases hrest
      exact ⟨s, hr, hend⟩

/-- A completed RUN has come to one of its two ends. -/
theorem runOp_run_ends {b : Byte} {s t : State} (hc : configOk s.cfg = true) (hs : s.fsm.state = .idle)
    (h : runOp (.run b) s = .next t) : ∃ u, Running u ∧ RunEnds u t := by
  have hstart : exec (.run b) s = .next (enterOp .run b s) := exec_instrOf_idle (op := .run) nofun b hs
  rw [runOp, hstart] at h
  have hbound : stepsLeft (enterOp .run b s).cfg (enterOp .run b s).fsm ≤ opBound (.run b) s.cfg := by
    change receiveBound s.cfg + 2 ≤ 2 + receiveBound s.cfg + 1
    omega
  exact (running_enterOp_run b hc).settle_ends hbound h

/-! ### The outcome -/

theorem RunEnds.status {s t : State} (hr : Running s) (h : RunEnds s t) :
    t.regs.status.busy = false ∧ t.regs.status.done = true ∧
      (t.regs.status.err = .none ↔ t.regs.status.respValid = true) := by
  cases h with
  | failed e he _ hst =>
    rw [hst]
    exact ⟨rfl, rfl, by simp [statusCompleted, he, hr.noResponse]⟩
  | responded buf _ _ _ _ ht =>
    rw [ht]
    exact ⟨rfl, rfl, ⟨fun _ => rfl, fun _ => rfl⟩⟩

/-- The payload of a buffer in RXBUF stands from `RXBUF[4]` on (R81). -/
theorem holdsAt_bufResponse_payload {buf : List Byte} {m : Memory} (h : holdsAt 0x300 buf m) :
    holdsAt 0x304 (bufResponse buf).payload m := by
  intro j hj
  rw [bufResponse_payload_length] at hj
  rw [bufResponse_payload_getElem? hj, ← h (4 + j) (by omega), ← Nat.add_assoc]

/-- Without an error, RESP_* and RXBUF hold what `decode_buf` makes of the buffer received (R120). -/
theorem RunEnds.response {s t : State} (h : RunEnds s t) (herr : t.regs.status.err = .none) :
    ∃ buf r, buf.length = t.regs.rxLen.toNat ∧ holdsAt 0x300 buf t.mem ∧ decodeBuf buf = .ok r ∧
      r.payload.length = t.regs.respSize.toNat ∧ holdsAt 0x304 r.payload t.mem ∧
      r.size = t.regs.respSize ∧ r.readerAddress = t.regs.respAddr ∧ r.responseCode = t.regs.respCode ∧
      r.status = t.regs.respStatus := by
  cases h with
  | failed e he _ hst =>
    rw [hst] at herr
    exact absurd herr he
  | responded buf h6 h256 hbuf hcrc ht =>
    subst ht
    obtain ⟨hlen, hread⟩ := memSpan_ok_iff.1 hbuf
    have hholds : holdsAt 0x300 buf s.mem := fun i hi => hread i (hlen ▸ hi)
    have hsize : (bufResponse buf).payload.length = (bufResponse buf).size.toNat := by
      rw [bufResponse_payload_length]
      exact (responseSize_toNat (by omega)).symm
    exact ⟨buf, bufResponse buf, hlen, hholds, by rw [decodeBuf_of_six_le (by omega), if_pos hcrc], hsize,
      holdsAt_bufResponse_payload hholds, rfl, rfl, rfl, rfl⟩

/-- Settles O28: a completed RUN has come to one of its two ends, and only the one with a response has ERR = 0. -/
theorem runOutcomeMapping : Obligations.RunOutcomeMapping := by
  intro b s t hc hs h
  obtain ⟨u, hrun, hend⟩ := runOp_run_ends hc hs h
  obtain ⟨hbusy, hdone, hiff⟩ := hend.status hrun
  exact ⟨hend.idle, hbusy, hdone, hiff, hend.response⟩

end Sys2Proof.Machine
end

section
/-! INVALID, the operation of an illegal command word (60_exceptions.md R125). -/

namespace Sys2Proof.Machine

theorem exec_invalid_idle (w : Word) {s : State} (hs : s.fsm.state = .idle) :
    exec (.invalid w) s = .next (enterOp .invalid (byteField w) s) := by
  simp only [exec, execInvalid, localOp, hs, enterOp]

theorem exec_invalid_exec (w : Word) {s : State} (hs : s.fsm.state = .exec) :
    exec (.invalid w) s = .next (raise .invalidOperation s) := by
  rw [exec, execInvalid, localOp_exec hs]

/-- Settles O30: the start of a local operation and its EXEC step; the words of R125 are illegal. -/
theorem invalidReportsInvalidOperation : Obligations.InvalidReportsInvalidOperation := by
  refine ⟨fun w s => ⟨fun hs => ?start, exec_invalid_exec w⟩, decodeCmd_of_illegalWord (by decide),
    decodeCmd_of_illegalWord (by decide), decodeCmd_of_illegalWord (by decide), rfl⟩
  case start =>
    rw [exec_invalid_idle w hs, enterOp_plainLocal (by decide)]
    rfl

end Sys2Proof.Machine
end

section
/-! Which condition raises which error (60_exceptions.md R124, R130): a block step from a good busy state raises an error
only under the condition of its row, and under that condition it always does. -/

namespace Sys2Proof.Machine

/-- The condition in `s` under which R124 has the block step raise `e`; a later check of an operation has its condition
only where the earlier ones pass (R130). -/
def raises (s : State) : ErrKind → Prop
  | .none => False
  | .invalidParameter =>
    (((s.fsm.op = .encode ∧ s.fsm.state = .exec) ∨ (s.fsm.op = .run ∧ s.fsm.state = .exec)) ∧
      251 < s.regs.cmdSize.toNat) ∨
    ((s.fsm.op = .transmit ∧ s.fsm.state = .tx) ∧ s.regs.txLen = 0#9) ∨
    ((s.fsm.op = .decode ∧ s.fsm.state = .exec) ∧ 256 < s.regs.rxLen.toNat)
  | .ioError =>
    (s.fsm.state = .tx ∧ s.regs.txLen ≠ 0#9 ∧ nextWrite s ≠ .ok s.regs.txLen.toNat) ∨
    (s.fsm.state = .poll ∧ nextRead 1 s = .err) ∨
    (s.fsm.state = .body ∧ (nextRead (s.fsm.declLen.toNat - s.fsm.got) s = .err ∨
      (nextRead (s.fsm.declLen.toNat - s.fsm.got) s = .ok [] ∧ s.fsm.bodyCnt + 1 = s.cfg.bodyPollBudget)))
  | .timeout => s.fsm.state = .poll ∧ nextRead 1 s = .ok [] ∧ s.fsm.pollCnt + 1 = s.cfg.pollBudget
  | .malformed => decoding s ∧ s.regs.rxLen.toNat < 6
  | .checksumMismatch =>
    decoding s ∧ 6 ≤ s.regs.rxLen.toNat ∧ s.regs.rxLen.toNat ≤ 256 ∧
      ∃ buf, buf.length = s.regs.rxLen.toNat ∧ holdsAt 0x300 buf s.mem ∧ decodeBuf buf = .error .checksumMismatch
  | .invalidOperation => s.fsm.op = .invalid

/-! ### The operation of an instruction, and of a state -/

/-- The operation that an instruction belongs to; a wire opcode belongs to none (R82). -/
def opOf : Instr → Option Op
  | .crcInit _ => some .crcInit
  | .crcByte _ => some .crcByte
  | .crcSpan _ => some .crcSpan
  | .encode _ => some .encode
  | .transmit _ => some .transmit
  | .receive _ => some .receive
  | .decode _ => some .decode
  | .run _ => some .run
  | .invalid _ => some .invalid
  | .wireTagInventory | .wireSetRfPower | .wireSetInventoryTime | .wireSetBuzzerEnabled => none

theorem opOf_instrOf (op : Op) (b : Byte) : opOf (instrOf op b) = some op := by cases op <;> rfl

theorem op_of_instrOf_eq {op op' : Op} {b : Byte} {i : Instr} (h : instrOf op b = i) (hi : opOf i = some op') :
    op = op' := by
  rw [← h, opOf_instrOf] at hi
  exact Option.some.inj hi

theorem op_of_instrOf_mem {op op₁ op₂ : Op} {b : Byte} {i₁ i₂ : Instr} (h : instrOf op b ∈ [i₁, i₂])
    (h₁ : opOf i₁ = some op₁) (h₂ : opOf i₂ = some op₂) : op = op₁ ∨ op = op₂ :=
  (List.mem_pair.1 h).imp (op_of_instrOf_eq · h₁) (op_of_instrOf_eq · h₂)

theorem Inv.op_of_tx {s : State} (hi : Inv s) (hs : s.fsm.state = .tx) : s.fsm.op = .transmit ∨ s.fsm.op = .run := by
  simpa [hs, Machine.opFits] using hi.opFits

theorem Inv.op_of_poll {s : State} (hi : Inv s) (hs : s.fsm.state = .poll) : s.fsm.op = .receive ∨ s.fsm.op = .run := by
  simpa [hs, Machine.opFits] using hi.opFits

theorem Inv.op_of_body {s : State} (hi : Inv s) (hs : s.fsm.state = .body) : s.fsm.op = .receive ∨ s.fsm.op = .run := by
  simpa [hs, Machine.opFits] using hi.opFits

/-- INVALID has no state but IDLE and EXEC (R125). -/
theorem Inv.exec_of_invalid {s : State} (hi : Inv s) (hs : s.fsm.state ≠ .idle) (hop : s.fsm.op = .invalid) :
    s.fsm.state = .exec := by
  have hf := hi.opFits
  cases hst : s.fsm.state with
  | idle => exact absurd hst hs
  | exec => rfl
  | tx | poll | body | dec => simp [hst, hop, Machine.opFits] at hf

/-- RUN decodes a buffer of at most 256 bytes (R105). -/
theorem Inv.rxLen_le_of_dec {s : State} (hi : Inv s) (hs : s.fsm.state = .dec) : s.regs.rxLen.toNat ≤ 256 := by
  have hlen := (hi.dec hs).1
  have hdecl : s.fsm.declLen.toNat < 256 := s.fsm.declLen.isLt
  omega

theorem txLen_eq_zero_iff (s : State) : s.regs.txLen = 0#9 ↔ s.regs.txLen.toNat = 0 := by
  rw [← BitVec.toNat_inj]
  rfl

/-! ### An error is raised only under its condition -/

/-- The end of a receive raises nothing (R105). -/
theorem finishReceive_err {s : State} (h : s.regs.status.err = .none) :
    (finishReceive s).regs.status.err = .none := by
  rcases finishReceive_cases s with ⟨-, he⟩ | ⟨-, he⟩ <;> rw [he]
  · rfl
  · exact h

theorem startBody_err {s : State} (len : Byte) (h : s.regs.status.err = .none) :
    (startBody len s).regs.status.err = .none := by
  by_cases hlen : len = 0#8
  · rw [hlen, startBody_zero]
    exact finishReceive_err h
  · rw [startBody_of_ne_zero hlen]
    exact h

theorem storeBody_err {s : State} (bs : List Byte) (h : s.regs.status.err = .none) :
    (storeBody bs s).regs.status.err = .none := by
  rw [storeBody_eq]
  split
  · exact finishReceive_err h
  · exact h

theorem pollStep_err {s : State} (hs : s.fsm.state = .poll) (herr : s.regs.status.err = .none) :
    (pollStep s).regs.status.err = .none ∨ raises s (pollStep s).regs.status.err := by
  rcases pollStep_cases s with ⟨ha, h⟩ | ⟨ha, hlast, h⟩ | ⟨-, -, h⟩ | ⟨len, -, h⟩ <;> rw [h]
  · exact .inr (.inr (.inl ⟨hs, ha⟩))
  · exact .inr ⟨hs, ha, hlast⟩
  · exact .inl (by simpa using herr)
  · exact .inl (startBody_err len (by simpa using herr))

theorem bodyStep_err {s : State} (hs : s.fsm.state = .body) (herr : s.regs.status.err = .none) :
    (bodyStep s).regs.status.err = .none ∨ raises s (bodyStep s).regs.status.err := by
  rcases bodyStep_cases s with ⟨ha, h⟩ | ⟨ha, hlast, h⟩ | ⟨-, -, h⟩ | ⟨bs, -, -, -, h⟩ <;> rw [h]
  · exact .inr (.inr (.inr ⟨hs, .inl ha⟩))
  · exact .inr (.inr (.inr ⟨hs, .inr ⟨ha, hlast⟩⟩))
  · exact .inl (by simpa using herr)
  · exact .inl (storeBody_err bs (by simpa using herr))

/-- A transition of the operation in progress leaves ERR = 0, or ERR is an error whose condition held before. -/
theorem moves_err {s t : State} (hi : Inv s) (hs : s.fsm.state ≠ .idle)
    (h : Moves (instrOf s.fsm.op s.fsm.byte) s t) :
    t.regs.status.err = .none ∨ raises s t.regs.status.err := by
  have herr : s.regs.status.err = .none := (hi.busyClears (hi.busyIff.2 hs)).2
  cases h with
  | stay => exact .inl herr
  | acceptLocal h | acceptDecode h | acceptTransmit h | acceptReceive h | acceptRun h => exact absurd h hs
  | opcode hop => cases ho : s.fsm.op <;> simp [ho, instrOf] at hop
  | crcDone | encodeDone | txDone | decodeDone => exact .inl rfl
  | encodeRun => exact .inl herr
  | txRun => exact .inl (by simpa using herr)
  | invalidDone hop => exact .inr (op_of_instrOf_eq hop rfl)
  | encodeFailed hop he hsize =>
    exact .inr (.inl ⟨(op_of_instrOf_mem hop rfl rfl).imp (⟨·, he⟩) (⟨·, he⟩), hsize⟩)
  | txEmpty _ he hzero =>
    have hzero' : s.regs.txLen = 0#9 := (txLen_eq_zero_iff s).2 hzero
    have hop : s.fsm.op = .transmit := (hi.op_of_tx he).resolve_right fun hrun => hi.runTx he hrun hzero'
    exact .inr (.inr (.inl ⟨⟨hop, he⟩, hzero'⟩))
  | txFailed _ he hne _ ha => exact .inr (.inl ⟨he, mt (txLen_eq_zero_iff s).1 hne, ha⟩)
  | poll _ he => exact pollStep_err he herr
  | body _ he => exact bodyStep_err he herr
  | decodeTooLong hop hlong =>
    rcases (decoding_iff_instrOf s).2 ⟨_, hop⟩ with hdecode | ⟨-, hdec⟩
    · exact .inr (.inr (.inr ⟨hdecode, hlong⟩))
    · exact absurd (hi.rxLen_le_of_dec hdec) (by omega)
  | decodeTooShort hop hshort => exact .inr ⟨(decoding_iff_instrOf s).2 ⟨_, hop⟩, hshort⟩
  | @decodeMismatch _ buf hop h6 h256 hbuf hcrc =>
    obtain ⟨hlen, hread⟩ := memSpan_ok_iff.1 hbuf
    refine .inr ⟨(decoding_iff_instrOf s).2 ⟨_, hop⟩, h6, h256, buf, hlen, fun j hj => hread j (hlen ▸ hj), ?_⟩
    rw [decodeBuf_of_six_le (by omega), if_neg hcrc]

/-! ### Under its condition an error is raised -/

theorem blockStep_of_op {s : State} {f : FsmState} {op : Op} (hs : s.fsm.state = f) (hf : f ≠ .idle)
    (hop : s.fsm.op = op) : blockStep s = exec (instrOf op s.fsm.byte) s := by
  rw [blockStep, hs, if_neg hf, hop]

/-- The block step of ENCODE or RUN in EXEC ends with the error that the encode stage raises (R98). -/
theorem blockStep_of_encodeStage_raised {s t : State} (hop : s.fsm.op = .encode ∨ s.fsm.op = .run)
    (hs : s.fsm.state = .exec) (h : encodeStage s = .raised t) : blockStep s = .next t := by
  rcases hop with hop | hop <;> rw [blockStep_of_op hs nofun hop]
  · rw [instrOf, exec_encode_exec _ hs, h, finishWith]
  · simp only [instrOf, exec, execRun, hs, h, continueWith]

/-- The block step in TX ends with the error that the write stage raises (R99). -/
theorem blockStep_of_txStep_raised {s t : State} (hi : Inv s) (hs : s.fsm.state = .tx) (h : txStep s = .raised t) :
    blockStep s = .next t := by
  rcases hi.op_of_tx hs with hop | hop <;> rw [blockStep_of_op hs nofun hop]
  · rw [instrOf, exec_transmit_tx _ hs, h, finishWith]
  · simp only [instrOf, exec, execRun, hs, h, continueWith]

theorem blockStep_poll {s : State} (hi : Inv s) (hs : s.fsm.state = .poll) : blockStep s = .next (pollStep s) := by
  rcases hi.op_of_poll hs with hop | hop <;> rw [blockStep_of_op hs nofun hop]
  · exact exec_poll (.inl rfl) hs
  · exact exec_poll (.inr rfl) hs

theorem blockStep_body {s : State} (hi : Inv s) (hs : s.fsm.state = .body) : blockStep s = .next (bodyStep s) := by
  rcases hi.op_of_body hs with hop | hop <;> rw [blockStep_of_op hs nofun hop]
  · exact exec_body (.inl rfl) hs
  · exact exec_body (.inr rfl) hs

/-- The block step of DECODE in EXEC and of RUN in DEC is the decode stage (R112, R119). -/
theorem blockStep_decoding {s : State} (hd : decoding s) : blockStep s = finishWith (decodeStage s) := by
  rcases hd with ⟨hop, hs⟩ | ⟨hop, hs⟩ <;> rw [blockStep_of_op hs nofun hop]
  · exact exec_decodeStage (.inl ⟨rfl, hs⟩)
  · exact exec_decodeStage (.inr ⟨rfl, hs⟩)

/-- With TX_LEN ≠ 0, any answer but `Ok(TX_LEN)` is IO_ERROR (R99): TXBUF holds a frame. -/
theorem Inv.txStep_of_bad_answer {s : State} (hi : Inv s) (hne : s.regs.txLen ≠ 0#9)
    (ha : nextWrite s ≠ .ok s.regs.txLen.toNat) : ∃ f, txStep s = .raised (raise .ioError (afterWrite f s)) := by
  obtain ⟨_, _, _, f, -, hf⟩ := hi.txFrame hne
  refine ⟨f, ?_⟩
  rw [txStep_of_frame (mt (txLen_eq_zero_iff s).2 hne) hf, memSpan_length hf, if_neg ha]

/-- The condition of an error makes the block step complete with that error. -/
theorem blockStep_of_raises {s : State} {e : ErrKind} (hi : Inv s) (hs : s.fsm.state ≠ .idle) (h : raises s e) :
    ∃ t, blockStep s = .next t ∧ t.regs.status = statusCompleted e s.regs.status := by
  cases e with
  | none => exact h.elim
  | invalidParameter =>
    rcases h with ⟨hop, hsize⟩ | ⟨⟨-, he⟩, hzero⟩ | ⟨hdecode, hlong⟩
    · have he : s.fsm.state = .exec := hop.elim And.right And.right
      exact ⟨_, blockStep_of_encodeStage_raised (hop.imp And.left And.left) he (encodeStage_of_too_long hsize), rfl⟩
    · exact ⟨_, blockStep_of_txStep_raised hi he (txStep_of_txLen_zero ((txLen_eq_zero_iff s).1 hzero)), rfl⟩
    · exact ⟨_, by rw [blockStep_decoding (.inl hdecode), decodeStage_of_too_long hlong, finishWith], rfl⟩
  | ioError =>
    rcases h with ⟨he, hne, ha⟩ | ⟨he, ha⟩ | ⟨he, ha⟩
    · obtain ⟨f, hf⟩ := hi.txStep_of_bad_answer hne ha
      exact ⟨_, blockStep_of_txStep_raised hi he hf, by simp⟩
    · exact ⟨_, blockStep_poll hi he, by simp [pollStep_of_err ha]⟩
    · have hmissing : s.fsm.declLen.toNat = s.fsm.got + (s.fsm.declLen.toNat - s.fsm.got) := by
        obtain ⟨-, hgot, -⟩ := hi.body he
        omega
      refine ⟨_, blockStep_body hi he, ?_⟩
      rcases ha with ha | ⟨ha, hlast⟩
      · simp [bodyStep_of_err hmissing ha]
      · simp [bodyStep_of_noData hmissing ha, hlast]
  | timeout =>
    obtain ⟨he, ha, hlast⟩ := h
    exact ⟨_, blockStep_poll hi he, by simp [pollStep_of_noData ha, hlast]⟩
  | malformed =>
    obtain ⟨hd, hshort⟩ := h
    exact ⟨_, by rw [blockStep_decoding hd, decodeStage_of_short hshort, finishWith], rfl⟩
  | checksumMismatch =>
    obtain ⟨hd, h6, h256, buf, hlen, hbuf, hmis⟩ := h
    have hspan : memSpan s.mem (bufBase .rxbuf) s.regs.rxLen.toNat = .ok buf := hlen ▸ memSpan_of_holdsAt hbuf
    have hcrc : bufChecksum buf ≠ bufTrailer buf := fun hc => by
      rw [decodeBuf_of_six_le (by omega), if_pos hc] at hmis
      cases hmis
    exact ⟨_, by rw [blockStep_decoding hd, decodeStage_of_buffer h6 h256 hspan, if_neg hcrc, finishWith], rfl⟩
  | invalidOperation =>
    have he : s.fsm.state = .exec := hi.exec_of_invalid hs h
    exact ⟨_, (blockStep_of_op he nofun h).trans (exec_invalid_exec _ he), rfl⟩

/-! ### The statement -/

/-- A block step of a good busy state reports an error exactly under its condition. -/
theorem blockStep_reports_iff {s t : State} (hi : Inv s) (hs : s.fsm.state ≠ .idle) (h : blockStep s = .next t)
    {e : ErrKind} (he : e ≠ .none) : (t.regs.status.done = true ∧ t.regs.status.err = e) ↔ raises s e := by
  constructor
  · rintro ⟨-, rfl⟩
    rcases blockStep_next h with ⟨hidle, -⟩ | ⟨-, hm⟩
    · exact absurd hidle hs
    · exact (moves_err hi hs hm).resolve_left he
  · intro hr
    obtain ⟨u, hu, hst⟩ := blockStep_of_raises hi hs hr
    cases hu.symm.trans h
    rw [hst]
    exact ⟨rfl, rfl⟩

/-- Settles O52: on the block's turn, the conditions of R124 are those of `raises`. -/
theorem errorsHaveTheirConditions : Obligations.ErrorsHaveTheirConditions := by
  intro s t hi hturn hbusy h
  simp only [stepOf, hturn, true_and]
  rcases step_turn h with ⟨-, hb⟩ | ⟨e, hd, hne, -⟩
  · have hreports {e : ErrKind} (he : e ≠ .none) := blockStep_reports_iff hi.nextTurn (hi.busyIff.1 hbusy) hb he
    exact ⟨hreports nofun, hreports nofun, hreports nofun, hreports nofun, hreports nofun, hreports nofun⟩
  · simp [blockTurn, hd, hne] at hturn

end Sys2Proof.Machine
end

section
/-! The decoder and the encoder of the two opcode spaces are inverse to each other (30_encoding.md R70–R73, R82): the four
bytes of a command word are the word, and a legal word is composed of its own fields. -/

namespace Sys2Proof.Machine

/-! ### A bus word and its four bytes -/

/-- The four bytes of a bus word, put together again, are the word (R58). -/
theorem bytesWord_wordBytes (w : Word) :
    bytesWord (w.extractLsb' 0 8) (w.extractLsb' 8 8) (w.extractLsb' 16 8) (w.extractLsb' 24 8) = w := by
  refine BitVec.eq_of_getLsbD_eq fun i hi => ?_
  simp only [bytesWord, BitVec.getLsbD_append, BitVec.getLsbD_extractLsb']
  grind

/-- The word of four bytes has these bytes (R58). -/
theorem wordBytes_bytesWord (b0 b1 b2 b3 : Byte) : wordBytes (bytesWord b0 b1 b2 b3) = [b0, b1, b2, b3] := by
  simp only [wordBytes, List.cons.injEq, and_true]
  refine ⟨?_, ?_, ?_, ?_⟩
  all_goals
    refine BitVec.eq_of_getLsbD_eq fun i hi => ?_
    simp only [bytesWord, BitVec.getLsbD_append, BitVec.getLsbD_extractLsb']
    grind

/-! ### Decoding what was encoded -/

theorem decode_wordBytes (w : Word) : decode (wordBytes w) = .ok (decodeCmd w) :=
  congrArg (Except.ok ∘ decodeCmd) (bytesWord_wordBytes w)

/-- An operation but INVALID is encoded by the word of its code and its BYTE (R88). -/
theorem encode_instrOf {op : Op} (hne : op ≠ .invalid) (b : Byte) :
    encode (instrOf op b) = wordBytes (cmdWord (opCode op).toNat b) := by
  cases op with
  | invalid => exact absurd rfl hne
  | crcInit | crcByte | crcSpan | encode | transmit | receive | decode | run => rfl

theorem decode_encode_instrOf {op : Op} (hne : op ≠ .invalid) (b : Byte) :
    decode (encode (instrOf op b)) = .ok (instrOf op b) := by
  rw [encode_instrOf hne, decode_wordBytes, decodeCmd_cmdWord hne]

/-- Settles O2: a command word by its operation, an illegal word as itself, a wire opcode by R82's table. -/
theorem decodeOfEncodeIsIdentity : Obligations.DecodeOfEncodeIsIdentity := by
  intro i hwf
  cases i with
  | crcInit b => exact decode_encode_instrOf (op := .crcInit) nofun b
  | crcByte b => exact decode_encode_instrOf (op := .crcByte) nofun b
  | crcSpan b => exact decode_encode_instrOf (op := .crcSpan) nofun b
  | encode b => exact decode_encode_instrOf (op := .encode) nofun b
  | transmit b => exact decode_encode_instrOf (op := .transmit) nofun b
  | receive b => exact decode_encode_instrOf (op := .receive) nofun b
  | decode b => exact decode_encode_instrOf (op := .decode) nofun b
  | run b => exact decode_encode_instrOf (op := .run) nofun b
  | invalid w => exact (decode_wordBytes w).trans (congrArg _ (decodeCmd_of_illegalWord hwf))
  | wireTagInventory | wireSetRfPower | wireSetInventoryTime | wireSetBuzzerEnabled => rfl

/-! ### Encoding what was decoded -/

/-- A word whose reserved bits are clear is composed of its OP field and its BYTE field (R70). -/
theorem cmdWord_fields {w : Word} (hr : reservedClear w = true) : cmdWord (opField w).toNat (byteField w) = w := by
  obtain ⟨h4, h16⟩ := (reservedClear_iff w).1 hr
  refine BitVec.eq_of_getLsbD_eq fun i hi => ?_
  have hlow := congrArg (BitVec.getLsbD · (i - 4)) h4
  have hhigh := congrArg (BitVec.getLsbD · (i - 16)) h16
  simp only [BitVec.getLsbD_extractLsb', BitVec.getLsbD_zero] at hlow hhigh
  simp only [cmdWord_toNat, opField, byteField, BitVec.getLsbD_or, BitVec.getLsbD_shiftLeft, BitVec.getLsbD_setWidth,
    BitVec.getLsbD_extractLsb']
  grind

/-- An operation code that is not reserved is that of an operation (R71). -/
theorem exists_opCode {c : BitVec 4} (h0 : c ≠ 0#4) (h9 : c.toNat < 9) : ∃ op, op ≠ .invalid ∧ opCode op = c := by
  have hall : ∀ c : BitVec 4, c ≠ 0#4 → c.toNat < 9 →
      ∃ op ∈ [Op.crcInit, .crcByte, .crcSpan, .encode, .transmit, .receive, .decode, .run], opCode op = c := by decide
  obtain ⟨op, hop, hc⟩ := hall c h0 h9
  exact ⟨op, by rintro rfl; simp at hop, hc⟩

/-- A legal word names an operation by its OP field, and is the word of that operation and its BYTE (R71). -/
theorem exists_op_of_legal {w : Word} (h : illegalWord w = false) :
    ∃ op, op ≠ .invalid ∧ decodeCmd w = instrOf op (byteField w) ∧ cmdWord (opCode op).toNat (byteField w) = w := by
  have hlegal := mt (illegalWord_iff w).2 (Bool.eq_false_iff.1 h)
  push Not at hlegal
  obtain ⟨h0, h9, h4, h16⟩ := hlegal
  have hr : reservedClear w = true := (reservedClear_iff w).2 ⟨h4, h16⟩
  obtain ⟨op, hne, hop⟩ := exists_opCode h0 h9
  exact ⟨op, hne, decodeCmd_of_opField hr hne hop.symm, hop ▸ cmdWord_fields hr⟩

/-- What a command word decodes to is well formed and is encoded by that word (R71, R73). -/
theorem wellFormed_and_encode_decodeCmd (w : Word) :
    (decodeCmd w).wellFormed = true ∧ encode (decodeCmd w) = wordBytes w := by
  cases h : illegalWord w with
  | true => rw [decodeCmd_of_illegalWord h]; exact ⟨h, rfl⟩
  | false =>
    obtain ⟨op, hne, hdec, hword⟩ := exists_op_of_legal h
    rw [hdec, encode_instrOf hne, hword]
    refine ⟨?_, rfl⟩
    cases op with
    | invalid => exact absurd rfl hne
    | crcInit | crcByte | crcSpan | encode | transmit | receive | decode | run => rfl

/-- What a wire opcode byte decodes to is well formed and is encoded by that byte (R82). -/
theorem wellFormed_and_encode_of_decodeWire {b : Byte} {i : Instr} (h : decodeWire b = some i) :
    i.wellFormed = true ∧ encode i = [b] := by
  have hrow : ∀ {k : Byte}, b.toNat = k.toNat → b = k := BitVec.eq_of_toNat_eq
  unfold decodeWire at h
  split at h <;> cases h
  · next hb => rw [hrow (k := 0x01#8) hb]; exact ⟨rfl, rfl⟩
  · next hb => rw [hrow (k := 0x2F#8) hb]; exact ⟨rfl, rfl⟩
  · next hb => rw [hrow (k := 0x25#8) hb]; exact ⟨rfl, rfl⟩
  · next hb => rw [hrow (k := 0x40#8) hb]; exact ⟨rfl, rfl⟩

/-- Settles O3: one byte is a wire opcode, four bytes are a command word, no other length decodes. -/
theorem encodeOfDecodeIsIdentity : Obligations.EncodeOfDecodeIsIdentity := by
  intro bs i h
  unfold decode at h
  split at h
  · split at h <;> cases h
    next hi => exact wellFormed_and_encode_of_decodeWire hi
  · cases h
    rw [← wordBytes_bytesWord]
    exact wellFormed_and_encode_decodeCmd _
  · cases h

/-- Settles O4: each of the listed words and bytes is decoded by evaluation. -/
theorem listedWordsDecode : Obligations.ListedWordsDecode := by
  exact ⟨rfl, rfl, rfl, rfl, rfl, rfl, rfl, rfl, rfl, rfl, rfl, rfl, rfl, rfl, rfl⟩

end Sys2Proof.Machine
end

section
/-! Whose turn a step is (10_state.md R47, R64), and what it then is: the block's own step, a host access, a reset. -/

namespace Sys2Proof.Machine

/-! ### The next turn -/

@[simp] theorem nextTurn_mem (s : State) : (nextTurn s).mem = s.mem := rfl
@[simp] theorem nextTurn_cfg (s : State) : (nextTurn s).cfg = s.cfg := rfl
@[simp] theorem nextTurn_chan (s : State) : (nextTurn s).chan = s.chan := rfl

/-- A step takes the next turn of the agenda. -/
theorem step_of_turn {s : State} {e : Event} {rest : List Event} (hc : configOk s.cfg = true) (h : s.todo = e :: rest) :
    step s = turn e { s with todo := rest } := by
  rw [step, advance, if_pos hc, h]

theorem nextTurn_of_nil {s : State} (h : s.todo = []) : nextTurn s = s := by
  cases s
  cases h
  rfl

/-- On the block's turn a step is a block step: the agenda says so, or it is empty (log 1). -/
theorem step_of_blockTurn {s : State} (hc : configOk s.cfg = true) (h : blockTurn s) :
    step s = blockStep (nextTurn s) := by
  cases hd : s.todo with
  | nil => rw [nextTurn_of_nil hd, step, advance, if_pos hc, hd]
  | cons e rest =>
    obtain rfl : e = .block := by simpa [blockTurn, hd] using h
    rw [step_of_turn hc hd, turn, nextTurn, hd, List.tail_cons]

theorem blockStep_of_idle {s : State} (h : s.fsm.state = .idle) : blockStep s = .next s := if_pos h

theorem blockStep_of_ne_idle {s : State} (h : s.fsm.state ≠ .idle) :
    blockStep s = exec (instrOf s.fsm.op s.fsm.byte) s := if_neg h

/-- Settles O56: on its turn an IDLE block takes no step. -/
theorem idleBlockWaits : Obligations.IdleBlockWaits :=
  fun _ hc hs hturn => (step_of_blockTurn hc hturn).trans (blockStep_of_idle hs)

/-! ### A step runs the decoded instruction -/

/-- A write of a command word to CMD while BUSY = 0 runs the word's instruction (R24). -/
theorem step_cmdWrite {s : State} {w : Word} {rest : List Event} (hc : configOk s.cfg = true)
    (h : s.todo = .write 0x000 4 w :: rest) (hb : s.regs.status.busy = false) :
    step s = exec (decodeCmd w) { s with todo := rest } := by
  rw [step_of_turn hc h, turn, hostWrite_cmd, writeCmd, if_neg (by simp [hb])]

/-- A write of a wire opcode byte to CMD_OPCODE runs its instruction (R33, R82; log 9). -/
theorem step_opcodeWrite {s : State} {v : Word} {rest : List Event} {i : Instr} (hc : configOk s.cfg = true)
    (h : s.todo = .write 0x010 4 v :: rest) (hi : decodeWire (lowByte v) = some i) :
    step s = exec i { s with todo := rest } := by
  rw [step_of_turn hc h, turn, hostWrite_reg (r := .cmdOpcode) v _ rfl, writeReg, writeCmdOpcode, hi]

theorem decodeWire_of_decode {b : Byte} {i : Instr} (h : decode [b] = .ok i) : decodeWire b = some i := by
  cases hw : decodeWire b with
  | none => simp [decode, hw] at h
  | some j => simpa [decode, hw] using h

theorem decode_of_decodeTableWord {nbits w : Nat} {i : Instr} (h : decodeTableWord nbits w = some i) :
    decode (tableBytes nbits w) = .ok i := by
  unfold decodeTableWord at h
  split at h
  · next hi => rwa [Option.some.inj h] at hi
  · cases h

theorem lowByte_ofNat_mod (w : Nat) : lowByte (BitVec.ofNat 32 (w % 256)) = BitVec.ofNat 8 w := by
  apply BitVec.eq_of_toNat_eq
  simp [lowByte]

/-- A table word put before the block is run by the next step if the block is not busy (log 12). -/
theorem step_withFetchWord {s : State} {nbits w : Nat} {i : Instr} (hc : configOk s.cfg = true)
    (hn : nbits = 8 ∨ nbits = 32) (hb : s.regs.status.busy = false) (h : decodeTableWord nbits w = some i) :
    step (s.withFetchWord nbits w) = exec i s := by
  have hdec := decode_of_decodeTableWord h
  rcases hn with rfl | rfl
  · refine step_opcodeWrite (s := s.withFetchWord 8 w) hc rfl ?_
    rw [lowByte_ofNat_mod]
    exact decodeWire_of_decode hdec
  · obtain rfl : decodeCmd (BitVec.ofNat 32 w) = i := Except.ok.inj ((decode_wordBytes _).symm.trans hdec)
    exact step_cmdWrite (s := s.withFetchWord 32 w) hc rfl hb

/-- Settles O5: one lemma per way in which an instruction comes to the block. -/
theorem stepRunsDecodedInstruction : Obligations.StepRunsDecodedInstruction := by
  refine fun s i hc => ⟨fun w rest hd hb hi => ?cmd, fun v rest hd hi => ?opcode, fun hturn hs hi => ?block,
    fun nbits w hn hb hi => step_withFetchWord hc hn hb hi⟩
  case cmd =>
    obtain rfl : decodeCmd w = i := Except.ok.inj ((decode_wordBytes w).symm.trans hi)
    exact step_cmdWrite hc hd hb
  case opcode => exact step_opcodeWrite hc hd (lowByte_eq v ▸ decodeWire_of_decode hi)
  case block => rw [step_of_blockTurn hc hturn, hi]; exact blockStep_of_ne_idle (s := nextTurn s) hs

/-! ### Reset and host reads -/

/-- Settles O42: the reset transition gives the registers and buffers of `State.reset`, and touches nothing else. -/
theorem resetSetsSpecifiedValues : Obligations.ResetSetsSpecifiedValues :=
  ⟨fun _ _ hc hd => ⟨_, step_of_turn hc hd, rfl, rfl, fun _ => rfl, rfl, rfl, rfl, rfl, rfl⟩, rfl, rfl, fun _ => rfl⟩

/-- Settles O36: a host read adds one value to what the host has seen, and at most draws one. -/
theorem hostReadsHaveNoSideEffect : Obligations.HostReadsHaveNoSideEffect := by
  intro off n rest s t hd h
  obtain ⟨hc, -⟩ := step_next h
  rw [step_of_turn hc hd, turn] at h
  rcases hostRead_next h with ⟨v, rfl⟩ | ⟨mask, rfl⟩
  · exact ⟨rfl, rfl, rfl, rfl, rfl, rfl, v, rfl⟩
  · exact ⟨rfl, rfl, rfl, rfl, rfl, rfl, _, rfl⟩

end Sys2Proof.Machine
end

section
/-! The algebra of the checksum (40_checksum.md R95, R96): `crc_step` is linear in the accumulator and the byte and loses
nothing of either, and a checksum shifted in behind its sequence leaves 0. -/

namespace Sys2Proof.Machine

/-! ### Linearity -/

/-- One iteration bit by bit: the next bit up, and the polynomial where the bit shifted out was 1 (R89). -/
theorem crcShift_getLsbD (c : Crc) (i : Nat) :
    (crcShift c).getLsbD i = ((c.getLsbD (1 + i)) ^^ (c.getLsbD 0 && (0x8408#16).getLsbD i)) := by
  unfold crcShift
  cases c.getLsbD 0 <;> simp

theorem crcShift_xor (c d : Crc) : crcShift (c ^^^ d) = crcShift c ^^^ crcShift d := by
  refine BitVec.eq_of_getLsbD_eq fun i _ => ?_
  simp only [crcShift_getLsbD, BitVec.getLsbD_xor]
  grind

theorem crcShifts_xor (n : Nat) (c d : Crc) : crcShifts n (c ^^^ d) = crcShifts n c ^^^ crcShifts n d := by
  induction n generalizing c d with
  | zero => rfl
  | succ n ih => rw [crcShifts, crcShift_xor, ih]; rfl

theorem crcStep_xor (c d : Crc) (b e : Byte) : crcStep (c ^^^ d) (b ^^^ e) = crcStep c b ^^^ crcStep d e := by
  rw [crcStep, crcStep, crcStep, ← crcShifts_xor, BitVec.setWidth_xor]
  congr 1
  ac_rfl

/-- Folding a XOR of two sequences into a XOR of two accumulators. -/
theorem foldl_crcStep_zipWith_xor (c d : Crc) {x y : List Byte} (h : x.length = y.length) :
    (List.zipWith (· ^^^ ·) x y).foldl crcStep (c ^^^ d) = x.foldl crcStep c ^^^ y.foldl crcStep d := by
  induction x generalizing c d y with
  | nil =>
    obtain rfl : y = [] := List.length_eq_zero_iff.1 h.symm
    rfl
  | cons b x ih =>
    cases y with
    | nil => cases h
    | cons e y => simp only [List.zipWith_cons_cons, List.foldl_cons, crcStep_xor, ih _ _ (Nat.succ.inj h)]

theorem zipWith_xor_zeros (x : List Byte) : List.zipWith (· ^^^ ·) x (List.replicate x.length 0#8) = x := by
  induction x with
  | nil => rfl
  | cons b x ih => simpa [List.replicate_succ] using ih

/-- Up to its initial value, crc16 is linear (R96). -/
theorem crc16_zipWith_xor {x y : List Byte} (h : x.length = y.length) :
    crc16 (List.zipWith (· ^^^ ·) x y) = crc16 x ^^^ crc16 y ^^^ crc16 (List.replicate x.length 0#8) := by
  have hlen : (List.zipWith (· ^^^ ·) x y).length = x.length := by simp [h]
  have hinit : (0xFFFF#16 : Crc) = 0xFFFF#16 ^^^ 0xFFFF#16 ^^^ 0xFFFF#16 := by decide
  calc crc16 (List.zipWith (· ^^^ ·) x y)
      = (List.zipWith (· ^^^ ·) (List.zipWith (· ^^^ ·) x y) (List.replicate x.length 0#8)).foldl crcStep
          (0xFFFF#16 ^^^ 0xFFFF#16 ^^^ 0xFFFF#16) := by rw [← hlen, zipWith_xor_zeros, ← hinit]; rfl
    _ = crc16 x ^^^ crc16 y ^^^ crc16 (List.replicate x.length 0#8) := by
      rw [foldl_crcStep_zipWith_xor _ _ (by simp [h]), foldl_crcStep_zipWith_xor _ _ h]; rfl

/-! ### No change is lost -/

/-- One iteration can be undone: bit 15 says whether the bit shifted out was 1 (R89). -/
theorem crcShift_injective : Function.Injective crcShift := by
  intro c d h
  have hbit : ∀ i, (crcShift c).getLsbD i = (crcShift d).getLsbD i := fun i => by rw [h]
  simp only [crcShift_getLsbD] at hbit
  have h0 : c.getLsbD 0 = d.getLsbD 0 := by simpa using hbit 15
  rw [h0] at hbit
  refine BitVec.eq_of_getLsbD_eq fun i _ => ?_
  cases i with
  | zero => exact h0
  | succ i => simpa [Nat.add_comm 1] using hbit i

theorem crcShifts_injective (n : Nat) : Function.Injective (crcShifts n) := by
  rw [funext (crcShifts_eq_iterate n)]
  exact crcShift_injective.iterate n

theorem crcStep_injective_left (b : Byte) : Function.Injective (crcStep · b) :=
  fun _ _ h => (BitVec.xor_left_inj _).1 (crcShifts_injective 8 h)

theorem crcStep_injective_right (c : Crc) : Function.Injective (crcStep c) := fun b e h => by
  have hw : b.setWidth 16 = e.setWidth 16 := (BitVec.xor_right_inj _).1 (crcShifts_injective 8 h)
  simpa using congrArg (BitVec.setWidth 8) hw

theorem foldl_crcStep_injective (x : List Byte) : Function.Injective (x.foldl crcStep) := by
  induction x with
  | nil => exact fun _ _ h => h
  | cons b x ih => exact ih.comp (crcStep_injective_left b)

/-- A sequence in which one byte is changed has another checksum. -/
theorem crc16_modify_ne {x : List Byte} {i : Nat} {f : Byte → Byte} (hi : i < x.length) (hf : f x[i] ≠ x[i]) :
    crc16 (x.modify i f) ≠ crc16 x := by
  have hx : x = x.take i ++ x[i] :: x.drop (i + 1) := by simp
  have hy : x.modify i f = x.take i ++ f x[i] :: x.drop (i + 1) := List.modify_eq_take_cons_drop hi
  intro h
  rw [hy, crc16_append] at h
  conv_rhs at h => rw [hx, crc16_append]
  exact hf (crcStep_injective_right _ (foldl_crcStep_injective _ h))

theorem xor_bit_ne (b : Byte) {k : Nat} (hk : k < 8) : b ^^^ (1#8 <<< k) ≠ b := by
  intro h
  have hbit := congrArg (BitVec.getLsbD · k) h
  simp [hk] at hbit

/-- Settles O12: linearity, and a byte with one bit flipped is another byte. -/
theorem checksumLinearAndBitSensitive : Obligations.ChecksumLinearAndBitSensitive :=
  ⟨fun _ _ => crc16_zipWith_xor, fun _ _ _ hi hk => crc16_modify_ne hi (xor_bit_ne _ hk)⟩

/-! ### The residue -/

/-- While the bits shifted out are 0, an iteration only shifts (R89). -/
theorem crcShifts_of_low_clear {n : Nat} {c : Crc} (h : ∀ i, i < n → c.getLsbD i = false) : crcShifts n c = c >>> n := by
  induction n generalizing c with
  | zero => rfl
  | succ n ih =>
    have hshift : crcShift c = c >>> 1 := if_neg (Bool.eq_false_iff.1 (h 0 n.succ_pos))
    have hrest : ∀ i, i < n → (c >>> 1).getLsbD i = false := fun i hi => by
      simpa [Nat.add_comm 1] using h (i + 1) (Nat.succ_lt_succ hi)
    rw [crcShifts, hshift, ih hrest, ← BitVec.shiftRight_add, Nat.add_comm]

/-- An accumulator with the low byte `b` shifts down by a byte when `b` is folded in. -/
theorem crcStep_of_low_byte {c : Crc} {b : Byte} (h : ∀ i, i < 8 → c.getLsbD i = b.getLsbD i) :
    crcStep c b = c >>> 8 := by
  have hlow : ∀ i, i < 8 → (c ^^^ b.setWidth 16).getLsbD i = false := fun i hi => by
    rw [BitVec.getLsbD_xor, h i hi, BitVec.getLsbD_setWidth]
    simp [show i < 16 by omega]
  have hgone : b.setWidth 16 >>> 8 = 0#16 := BitVec.eq_of_getLsbD_eq fun i _ => by simp
  rw [crcStep, crcShifts_of_low_clear hlow, BitVec.ushiftRight_xor_distrib, hgone, BitVec.xor_zero]

/-- The two bytes of an accumulator, folded in behind it low byte first, leave 0 (R80, R95). -/
theorem crcStep_crcLsb_crcMsb (c : Crc) : crcStep (crcStep c (crcLsb c)) (crcMsb c) = 0#16 := by
  have hlsb : crcStep c (crcLsb c) = c >>> 8 := crcStep_of_low_byte fun i hi => by simp [crcLsb, hi]
  have hmsb : crcStep (c >>> 8) (crcMsb c) = c >>> 8 >>> 8 := crcStep_of_low_byte fun i hi => by simp [crcMsb, hi]
  rw [hlsb, hmsb, ← BitVec.shiftRight_add]
  exact BitVec.ushiftRight_eq_zero (by decide)

/-- A sequence followed by its checksum has checksum 0 (R95). -/
theorem crc16_withChecksum (h : List Byte) : crc16 (withChecksum h) = 0#16 := by
  rw [withChecksum, crc16_append, List.foldl_cons, List.foldl_cons, List.foldl_nil, crcStep_crcLsb_crcMsb]

/-- Settles O11: both frames are a sequence followed by its checksum. -/
theorem checksumResidueIsZero : Obligations.ChecksumResidueIsZero :=
  ⟨crc16_withChecksum, fun _ _ _ => crc16_withChecksum _, fun _ _ _ _ => crc16_withChecksum _⟩

end Sys2Proof.Machine
end

section
/-! `decode_buf` on frames and on tampered buffers (43_decode_validate.md R114–R116): a sequence followed by its checksum is
accepted, and one flipped bit spoils either the checksum computed or the checksum carried. -/

namespace Sys2Proof.Machine

/-! ### Frames -/

/-- From four bytes on, a sequence followed by its checksum is accepted (R110). -/
theorem decodeBuf_withChecksum {h : List Byte} (h4 : 4 ≤ h.length) :
    decodeBuf (withChecksum h) = .ok (bufResponse (withChecksum h)) := by
  have hchecksum : bufChecksum (withChecksum h) = crc16 h := by
    rw [bufChecksum, withChecksum_length, Nat.add_sub_cancel, withChecksum, List.take_left]
  have htrailer : bufTrailer (withChecksum h) = crc16 h := trailer_withChecksum h
  rw [decodeBuf_of_six_le (by rw [withChecksum_length]; omega), hchecksum, htrailer, if_pos rfl]

/-- The response of a frame with header `l`, `a`, `o`, `t` and payload `p`; its count byte `l` is not looked at (R113). -/
theorem decodeBuf_frame (l a o t : Byte) {p : List Byte} (hp : p.length ≤ 250) :
    decodeBuf (withChecksum (l :: a :: o :: t :: p)) =
      .ok { size := BitVec.ofNat 8 p.length, readerAddress := a, responseCode := o, status := t, payload := p } := by
  have hlen : (withChecksum (l :: a :: o :: t :: p)).length = p.length + 6 := by simp
  have htake : (withChecksum (l :: a :: o :: t :: p)).take (p.length + 4) = l :: a :: o :: t :: p :=
    List.take_left' (by simp)
  rw [decodeBuf_withChecksum (by simp), bufResponse, hlen, responseSize, if_pos (by omega), Nat.add_sub_cancel]
  simp only [show p.length + 6 - 2 = p.length + 4 by omega, htake]
  rfl

/-- Settles O24: a response frame and a request frame with payload have the same shape; without payload it is five bytes. -/
theorem responseFrameRoundTrip : Obligations.ResponseFrameRoundTrip := by
  refine ⟨fun a o t p hp => decodeBuf_frame _ a o t hp, fun a o q p hp => ?request, fun a o => ?empty⟩
  case request =>
    exact ⟨requestFrame a o (q :: p), encodeFrame_ok (by simpa using hp), decodeBuf_frame _ a o q (by omega)⟩
  case empty => exact ⟨requestFrame a o [], encodeFrame_ok (by simp), decodeBuf_of_short (by simp)⟩

/-- Settles O23: four bytes followed by their checksum are a frame with no payload; five bytes are too few. -/
theorem decodeBoundaryAtSixBytes : Obligations.DecodeBoundaryAtSixBytes := by
  refine ⟨fun h h4 => ?_, fun buf h5 => decodeBuf_of_short (by omega)⟩
  match h, h4 with
  | [l, a, o, t], _ => exact ⟨_, decodeBuf_frame l a o t (p := []) (by simp), rfl, rfl⟩

/-! ### Tampering -/

theorem crcLsb_crcOfBytes (lo hi : Byte) : crcLsb (crcOfBytes lo hi) = lo := by
  refine BitVec.eq_of_getLsbD_eq fun i hi8 => ?_
  simp [crcLsb, crcOfBytes, hi8, show i < 16 by omega]

theorem crcMsb_crcOfBytes (lo hi : Byte) : crcMsb (crcOfBytes lo hi) = hi := by
  refine BitVec.eq_of_getLsbD_eq fun i hi8 => ?_
  simp [crcMsb, crcOfBytes, hi8, show 8 + i < 16 by omega]

/-- A received pair of bytes can be read back from the checksum it carries (R80). -/
theorem crcOfBytes_inj {lo hi lo' hi' : Byte} (h : crcOfBytes lo hi = crcOfBytes lo' hi') : lo = lo' ∧ hi = hi' :=
  ⟨by rw [← crcLsb_crcOfBytes lo hi, h, crcLsb_crcOfBytes], by rw [← crcMsb_crcOfBytes lo hi, h, crcMsb_crcOfBytes]⟩

/-- A buffer that is accepted has six bytes or more and carries its checksum (R110). -/
theorem decodeBuf_ok {buf : List Byte} {r : Response} (h : decodeBuf buf = .ok r) :
    6 ≤ buf.length ∧ bufChecksum buf = bufTrailer buf := by
  by_cases h6 : 6 ≤ buf.length
  · rw [decodeBuf_of_six_le h6] at h
    split at h
    · next hc => exact ⟨h6, hc⟩
    · cases h
  · rw [decodeBuf_of_short (by omega)] at h
    cases h

section
variable {g : List Byte} {i : Nat} {f : Byte → Byte}

/-- A byte changed before the last two changes the checksum computed, not the one carried. -/
theorem tamper_body (hi : i < g.length - 2) (hf : f g[i] ≠ g[i]) :
    bufChecksum (g.modify i f) ≠ bufChecksum g ∧ bufTrailer (g.modify i f) = bufTrailer g := by
  constructor
  · rw [bufChecksum, bufChecksum, List.length_modify, List.take_modify]
    exact crc16_modify_ne (by simp; omega) (by simpa using hf)
  · simp only [bufTrailer, List.length_modify, List.getD_eq_getElem?_getD]
    rw [List.getElem?_modify_ne _ _ (by omega), List.getElem?_modify_ne _ _ (by omega)]

/-- One of the last two bytes changed changes the checksum carried, not the one computed. -/
theorem tamper_trailer (hi : i < g.length) (hlast : g.length - 2 ≤ i) (hf : f g[i] ≠ g[i]) :
    bufChecksum (g.modify i f) = bufChecksum g ∧ bufTrailer (g.modify i f) ≠ bufTrailer g := by
  constructor
  · rw [bufChecksum, bufChecksum, List.length_modify, List.take_modify, List.modify_eq_self (by simp; omega)]
  · intro h
    simp only [bufTrailer, List.length_modify] at h
    obtain ⟨hlo, hhi⟩ := crcOfBytes_inj h
    have hsame : (g.modify i f).getD i 0 = g.getD i 0 := by
      obtain hpos | hpos : g.length - 2 = i ∨ g.length - 1 = i := by omega
      · rwa [hpos] at hlo
      · rwa [hpos] at hhi
    rw [List.getD_eq_getElem _ _ (by simpa using hi), List.getD_eq_getElem _ _ hi, List.getElem_modify_eq] at hsame
    exact hf hsame

end

/-- Settles O25: the flipped bit lies before the checksum field or in it. -/
theorem singleBitTamperIsDetected : Obligations.SingleBitTamperIsDetected := by
  intro g r i k hok hi hk
  obtain ⟨h6, hcrc⟩ := decodeBuf_ok hok
  have hf : g[i] ^^^ (1#8 <<< k) ≠ g[i] := xor_bit_ne _ hk
  have hbad : bufChecksum (flipBit g i k) ≠ bufTrailer (flipBit g i k) := by
    by_cases hlast : i < g.length - 2
    · obtain ⟨hne, heq⟩ := tamper_body (f := (· ^^^ (1#8 <<< k))) hlast hf
      exact fun h => hne (h.trans (heq.trans hcrc.symm))
    · obtain ⟨heq, hne⟩ := tamper_trailer (f := (· ^^^ (1#8 <<< k))) hi (by omega) hf
      exact fun h => hne (h.symm.trans (heq.trans hcrc))
  rw [decodeBuf_of_six_le (by rw [flipBit, List.length_modify]; exact h6), if_neg hbad]

end Sys2Proof.Machine
end

section
/-! What a receive step leaves unchanged (42_receive.md R103–R105): the operation, every byte before RXBUF, and whatever lies
outside the block, the one channel call apart. -/

namespace Sys2Proof.Machine

/-! ### Outside the block -/

theorem sameOutside.refl (s : State) : sameOutside s s := ⟨rfl, rfl, rfl, rfl, rfl⟩

theorem sameOutside.trans {s t u : State} (h : sameOutside s t) (h' : sameOutside t u) : sameOutside s u := by
  obtain ⟨hcfg, hchan, htodo, hseen, hdraws⟩ := h
  obtain ⟨hcfg', hchan', htodo', hseen', hdraws'⟩ := h'
  exact ⟨hcfg'.trans hcfg, hchan'.trans hchan, htodo'.trans htodo, hseen'.trans hseen, hdraws'.trans hdraws⟩

theorem startBody_sameOutside (len : Byte) (s : State) : sameOutside s (startBody len s) := by
  by_cases hlen : len = 0#8
  · subst hlen
    exact finishReceive_sameOutside _
  · rw [startBody_of_ne_zero hlen]
    exact .refl s

theorem storeBody_sameOutside (bs : List Byte) (s : State) : sameOutside s (storeBody bs s) := by
  rw [storeBody_eq]
  split
  · exact (bodyStored_sameOutside bs s).trans (finishReceive_sameOutside _)
  · exact bodyStored_sameOutside bs s

/-- A poll attempt is one ChanRead(1) (R103). -/
theorem pollStep_sameOutside (s : State) : sameOutside (afterRead 1 s) (pollStep s) := by
  rcases pollStep_cases s with ⟨-, h⟩ | ⟨-, -, h⟩ | ⟨-, -, h⟩ | ⟨len, -, h⟩ <;> rw [h]
  case inr.inr.inr => exact startBody_sameOutside len (countPoll (afterRead 1 s))
  all_goals exact .refl (afterRead 1 s)

/-- A body attempt is one ChanRead of the bytes still missing (R104). -/
theorem bodyStep_sameOutside (s : State) :
    sameOutside (afterRead (s.fsm.declLen.toNat - s.fsm.got) s) (bodyStep s) := by
  rcases bodyStep_cases s with ⟨-, h⟩ | ⟨-, -, h⟩ | ⟨-, -, h⟩ | ⟨bs, -, -, -, h⟩ <;> rw [h]
  case inr.inr.inr => exact storeBody_sameOutside bs _
  all_goals exact .refl (afterRead _ s)

/-! ### The operation and the bytes before RXBUF -/

/-- `t` is of the same operation as `s`, and every byte before RXBUF reads as in `s`. -/
structure ReceiveFrame (s t : State) : Prop where
  op : t.fsm.op = s.fsm.op
  mem : ∀ a, a < 0x300 → memRead t.mem a = memRead s.mem a

theorem ReceiveFrame.trans {s t u : State} (h : ReceiveFrame s t) (h' : ReceiveFrame t u) : ReceiveFrame s u :=
  ⟨h'.op.trans h.op, fun a ha => (h'.mem a ha).trans (h.mem a ha)⟩

theorem ReceiveFrame.of_eq {s t : State} (hop : t.fsm.op = s.fsm.op) (hmem : t.mem = s.mem) : ReceiveFrame s t :=
  ⟨hop, fun _ _ => by rw [hmem]⟩

theorem finishReceive_frame (s : State) : ReceiveFrame s (finishReceive s) := by
  refine ⟨?_, fun a ha => ?_⟩
  · rcases finishReceive_cases s with ⟨-, h⟩ | ⟨-, h⟩ <;> rw [h] <;> rfl
  · rw [finishReceive_mem, memRead_memWrite_of_ne _ _ (by omega)]

theorem startBody_frame (len : Byte) (s : State) : ReceiveFrame s (startBody len s) := by
  by_cases hlen : len = 0#8
  · subst hlen
    rw [startBody_zero]
    refine .trans ?_ (finishReceive_frame _)
    exact .of_eq rfl rfl
  · rw [startBody_of_ne_zero hlen]
    exact .of_eq rfl rfl

theorem storeBody_frame (bs : List Byte) (s : State) : ReceiveFrame s (storeBody bs s) := by
  have hstored : ReceiveFrame s (bodyStored bs s) :=
    ⟨rfl, fun a ha => memRead_memWriteSpan_outside _ (.inl (by omega))⟩
  rw [storeBody_eq]
  split
  · exact hstored.trans (finishReceive_frame _)
  · exact hstored

theorem afterRead_frame (m : Nat) (s : State) : ReceiveFrame s (afterRead m s) := .of_eq (by simp) (by simp)

theorem pollStep_frame (s : State) : ReceiveFrame s (pollStep s) := by
  refine (afterRead_frame 1 s).trans ?_
  rcases pollStep_cases s with ⟨-, h⟩ | ⟨-, -, h⟩ | ⟨-, -, h⟩ | ⟨len, -, h⟩ <;> rw [h]
  case inr.inr.inr =>
    refine .trans ?_ (startBody_frame len _)
    exact .of_eq rfl rfl
  all_goals exact .of_eq rfl rfl

theorem bodyStep_frame (s : State) : ReceiveFrame s (bodyStep s) := by
  refine (afterRead_frame (s.fsm.declLen.toNat - s.fsm.got) s).trans ?_
  rcases bodyStep_cases s with ⟨-, h⟩ | ⟨-, -, h⟩ | ⟨-, -, h⟩ | ⟨bs, -, -, -, h⟩ <;> rw [h]
  case inr.inr.inr => exact storeBody_frame bs _
  all_goals exact .of_eq (by simp) rfl

/-! ### Any transition of the operation in progress -/

/-- An operation in progress stays the same operation until it is done (R45). -/
theorem moves_op {s t : State} (hs : s.fsm.state ≠ .idle) (h : Moves (instrOf s.fsm.op s.fsm.byte) s t) :
    t.fsm.op = s.fsm.op := by
  cases h with
  | acceptLocal h | acceptDecode h | acceptTransmit h | acceptReceive h | acceptRun h => exact absurd h hs
  | opcode hop => cases ho : s.fsm.op <;> simp [ho, instrOf] at hop
  | poll => exact (pollStep_frame s).op
  | body => exact (bodyStep_frame s).op
  | txDone | txRun | txFailed => simp
  | stay | crcDone | invalidDone | encodeDone | encodeRun | encodeFailed | txEmpty | decodeDone | decodeTooLong
  | decodeTooShort | decodeMismatch => rfl

end Sys2Proof.Machine
end

section
/-! Everything that one step from a good state can be (10_state.md R47; 20_memory.md R60, R61): a block step, a reset, or one
of the effects of a host access. -/

namespace Sys2Proof.Machine

/-- What a step from `s` to `t` was. -/
inductive StepCase (s t : State) : Prop where
  | block : blockTurn s → blockStep (nextTurn s) = .next t → StepCase s t
  | reset : resetTurn s → t = platformReset (nextTurn s) → StepCase s t
  | read (v : Word) (d : Nat) : t = { nextTurn s with seen := v :: s.seen, draws := d } → StepCase s t
  | ignored : t = nextTurn s → StepCase s t
  | rejected : s.regs.status.busy = true → t = reject (nextTurn s) → StepCase s t
  | accepted (w : Word) (op : Op) : cmdWriteTurn w s → s.regs.status.busy = false → NamesOp w op →
      t = enterOp op (byteField w) (nextTurn s) → StepCase s t
  | storedReg (a o z : Byte) (n : BitVec 9) : s.regs.status.busy = false →
      t = { nextTurn s with regs := { s.regs with cmdAddr := a, cmdOpcode := o, cmdSize := z, rxLen := n } } →
      StepCase s t
  | storedByte (off : Nat) (v : Byte) : s.regs.status.busy = false → (bufAt off).isSome = true →
      (off < 0x200 ∨ 0x300 ≤ off) → t = setMem (memWrite s.mem off v) (nextTurn s) → StepCase s t

theorem Inv.idle_of_not_busy {s : State} (hi : Inv s) (hb : s.regs.status.busy = false) : s.fsm.state = .idle := by
  by_contra hs
  rw [hi.busyIff.2 hs] at hb
  cases hb

/-- A byte that the host can store lies in PBUF or in RXBUF (R60). -/
theorem bufAt_not_txbuf {off : Nat} {b : Buf} {i : Nat} (h : bufAt off = some (b, i)) (hb : b ≠ .txbuf) :
    off < 0x200 ∨ 0x300 ≤ off := by
  obtain ⟨rfl, hi⟩ := bufAt_eq_some_iff.1 h
  cases b with
  | pbuf => simp only [bufBase, bufSize] at hi ⊢; omega
  | txbuf => exact absurd rfl hb
  | rxbuf => simp only [bufBase, bufSize] at hi ⊢; omega

theorem hostWrite_stepCase {s t : State} {off n : Nat} {v : Word} (hi : Inv s)
    (hd : s.todo.head? = some (.write off n v)) (h : hostWrite off n v (nextTurn s) = .next t) : StepCase s t := by
  rcases hostWrite_next h with rfl | ⟨hb, rfl⟩ | ⟨rfl, rfl, hb, he⟩ | ⟨i, -, -, hw, he⟩ | ⟨hb, hstore⟩
  · exact .ignored rfl
  · exact .rejected hb rfl
  · obtain ⟨op, hop⟩ := exists_namesOp v
    rw [exec_of_namesOp (s := nextTurn s) hop (hi.idle_of_not_busy hb)] at he
    cases he
    exact .accepted v op hd hb hop rfl
  · rw [exec_of_decodeWire hw, writeOpcode] at he
    split at he <;> cases he
    · next hb => exact .rejected hb rfl
    · next hb => exact .storedReg s.regs.cmdAddr _ s.regs.cmdSize s.regs.rxLen (Bool.eq_false_iff.2 hb) rfl
  · rcases hstore with rfl | rfl | rfl | rfl | ⟨b, i, hne, hat, rfl⟩
    · exact .storedReg _ s.regs.cmdOpcode s.regs.cmdSize s.regs.rxLen hb rfl
    · exact .storedReg s.regs.cmdAddr _ s.regs.cmdSize s.regs.rxLen hb rfl
    · exact .storedReg s.regs.cmdAddr s.regs.cmdOpcode _ s.regs.rxLen hb rfl
    · exact .storedReg s.regs.cmdAddr s.regs.cmdOpcode s.regs.cmdSize _ hb rfl
    · exact .storedByte off _ hb (by rw [hat]; rfl) (bufAt_not_txbuf hat hne) rfl

theorem stepCase_of_step {s t : State} (hi : Inv s) (h : step s = .next t) : StepCase s t := by
  rcases step_turn h with ⟨hturn, hb⟩ | ⟨e, hd, hne, ht⟩
  · exact .block hturn hb
  · cases e with
    | block => exact absurd rfl hne
    | reset => cases ht; exact .reset hd rfl
    | read off n =>
      rcases hostRead_next ht with ⟨v, rfl⟩ | ⟨mask, rfl⟩
      · exact .read v s.draws rfl
      · exact .read _ (s.draws + 1) rfl
    | write off n v => exact hostWrite_stepCase hi hd ht

end Sys2Proof.Machine
end

section
/-! Every step keeps the invariant. Its clauses about the buffers and TX_LEN (`BufInv`) are kept by each write on its own;
the rest is void while IDLE, and while busy it is what each state of the block has of its own. -/

namespace Sys2Proof.Machine

/-! ### The buffers -/

/-- The clauses of `Inv` about the buffers and TX_LEN. -/
structure BufInv (m : Memory) (n : BitVec 9) : Prop where
  wf : Memory.wf m
  inBuffers : ∀ c ∈ m, (bufAt c.1).isSome = true
  frame : n ≠ 0#9 → ∃ a o p f, encodeFrame a o p = .ok f ∧ memSpan m (bufBase .txbuf) n.toNat = .ok f

theorem Inv.bufInv {s : State} (hi : Inv s) : BufInv s.mem s.regs.txLen := ⟨hi.memWf, hi.memInBuffers, hi.txFrame⟩

theorem BufInv.txLen_le {m : Memory} {n : BitVec 9} (h : BufInv m n) : n.toNat ≤ 256 := by
  by_cases hn : n = 0#9
  · simp [hn]
  · obtain ⟨a, o, p, f, hf, hspan⟩ := h.frame hn
    obtain ⟨hp, rfl⟩ := encodeFrame_inv hf
    have hlen := memSpan_length hspan
    rw [requestFrame_length] at hlen
    omega

theorem BufInv.of_txLen_zero {m : Memory} {n : BitVec 9} (h : BufInv m n) : BufInv m 0#9 :=
  ⟨h.wf, h.inBuffers, fun hne => absurd rfl hne⟩

/-- Bytes written to PBUF or RXBUF leave the frame in TXBUF as it is. -/
theorem BufInv.store {m : Memory} {n : BitVec 9} {a : Nat} {bs : List Byte} (h : BufInv m n)
    (hin : ∀ i, i < bs.length → (bufAt (a + i)).isSome = true) (hout : a + bs.length ≤ 0x200 ∨ 0x300 ≤ a) :
    BufInv (memWriteSpan m a bs) n := by
  refine ⟨memWriteSpan_wf a bs h.wf, memWriteSpan_all (P := fun a => (bufAt a).isSome = true) hin h.inBuffers, fun hn => ?_⟩
  obtain ⟨x, o, p, f, hf, hspan⟩ := h.frame hn
  refine ⟨x, o, p, f, hf, ?_⟩
  rw [← hspan]
  have hle := h.txLen_le
  exact memSpan_congr fun i hi => memRead_memWriteSpan_outside _ (by simp only [bufBase]; omega)

theorem BufInv.storeByte {m : Memory} {n : BitVec 9} {a : Nat} (h : BufInv m n) (v : Byte)
    (hin : (bufAt a).isSome = true) (hout : a < 0x200 ∨ 0x300 ≤ a) : BufInv (memWrite m a v) n :=
  h.store (bs := [v]) (fun i hi => by simpa [Nat.lt_one_iff.1 hi] using hin) (by simpa using hout)

/-- A request frame stored in TXBUF, with its length in TX_LEN (R98). -/
theorem BufInv.storeRequest {m : Memory} {n : BitVec 9} (h : BufInv m n) (a o : Byte) {p : List Byte}
    (hp : p.length ≤ 251) :
    BufInv (memWriteSpan m (bufBase .txbuf) (requestFrame a o p)) (BitVec.ofNat 9 (requestFrame a o p).length) := by
  have hlen : (requestFrame a o p).length ≤ 256 := by rw [requestFrame_length]; omega
  refine ⟨memWriteSpan_wf _ _ h.wf,
    memWriteSpan_all (P := fun a => (bufAt a).isSome = true) (fun i hi => ?_) h.inBuffers, fun _ => ?_⟩
  · rw [bufAt_isSome_iff]; simp only [bufBase]; omega
  · refine ⟨a, o, p, _, encodeFrame_ok hp, ?_⟩
    rw [BitVec.toNat_ofNat, Nat.mod_eq_of_lt (by omega)]
    exact memSpan_memWriteSpan ..

/-! ### The receive -/

theorem finishReceive_bufInv {s : State} (h : BufInv s.mem s.regs.txLen) :
    BufInv (finishReceive s).mem (finishReceive s).regs.txLen := by
  rw [finishReceive_mem]
  have hw := h.storeByte (a := 0x300) (BitVec.ofNat 8 s.fsm.got) (by decide) (.inr (by decide))
  rcases finishReceive_cases s with ⟨-, he⟩ | ⟨-, he⟩ <;> rw [he] <;> exact hw

theorem startBody_bufInv {s : State} (len : Byte) (h : BufInv s.mem s.regs.txLen) :
    BufInv (startBody len s).mem (startBody len s).regs.txLen := by
  by_cases hlen : len = 0#8
  · subst hlen
    exact finishReceive_bufInv h
  · rw [startBody_of_ne_zero hlen]
    exact h

/-- Bytes that are received go to RXBUF: the declared length leaves room for them (R104). -/
theorem storeBody_bufInv {s : State} {bs : List Byte} (h : BufInv s.mem s.regs.txLen)
    (hle : s.fsm.got + bs.length ≤ s.fsm.declLen.toNat) :
    BufInv (storeBody bs s).mem (storeBody bs s).regs.txLen := by
  have hdecl : s.fsm.declLen.toNat < 256 := s.fsm.declLen.isLt
  have hstored : BufInv (bodyStored bs s).mem (bodyStored bs s).regs.txLen :=
    h.store (fun i hi => by rw [bufAt_isSome_iff]; omega) (by omega)
  rw [storeBody_eq]
  split
  · exact finishReceive_bufInv hstored
  · exact hstored

theorem pollStep_bufInv {s : State} (h : BufInv s.mem s.regs.txLen) :
    BufInv (pollStep s).mem (pollStep s).regs.txLen := by
  rcases pollStep_cases s with ⟨-, he⟩ | ⟨-, -, he⟩ | ⟨-, -, he⟩ | ⟨len, -, he⟩ <;> rw [he]
  case inr.inr.inr => exact startBody_bufInv len (by simpa using h)
  all_goals simpa using h

theorem bodyStep_bufInv {s : State} (h : BufInv s.mem s.regs.txLen) (hgot : s.fsm.got < s.fsm.declLen.toNat) :
    BufInv (bodyStep s).mem (bodyStep s).regs.txLen := by
  rcases bodyStep_cases s with ⟨-, he⟩ | ⟨-, -, he⟩ | ⟨-, -, he⟩ | ⟨bs, -, hle, -, he⟩ <;> rw [he]
  case inr.inr.inr => exact storeBody_bufInv (by simpa using h) (by rw [afterRead_fsm]; omega)
  all_goals simpa using h

/-! ### One transition -/

theorem writeOpcode_bufInv {s : State} (o : Byte) (h : BufInv s.mem s.regs.txLen) :
    BufInv (writeOpcode o s).mem (writeOpcode o s).regs.txLen := by
  unfold writeOpcode
  split <;> exact h

theorem moves_bufInv {i : Instr} {s t : State} (hi : Inv s) (h : Moves i s t) : BufInv t.mem t.regs.txLen := by
  have hb := hi.bufInv
  cases h with
  | encodeDone _ _ hsize _ hlen | encodeRun _ _ hsize _ hlen => exact hb.storeRequest _ _ (by omega)
  | encodeFailed => exact hb.of_txLen_zero
  | txDone | txRun | txFailed => simpa using hb
  | poll => exact pollStep_bufInv hb
  | body _ hs => exact bodyStep_bufInv hb (hi.body hs).2.1
  | opcode => exact writeOpcode_bufInv _ hb
  | stay | acceptLocal | acceptDecode | acceptTransmit | acceptReceive | acceptRun | crcDone | invalidDone | txEmpty
  | decodeDone | decodeTooLong | decodeTooShort | decodeMismatch => exact hb

/-! ### The states of the block -/

/-- The clauses of `Inv` about single states of the block; none is about IDLE. -/
structure StateInv (s : State) : Prop where
  opFits : opFits s.fsm.state s.fsm.op = true
  runTx : s.fsm.state = .tx → s.fsm.op = .run → s.regs.txLen ≠ 0#9
  poll : s.fsm.state = .poll →
    s.fsm.pollCnt < s.cfg.pollBudget ∧ s.fsm.got = 0 ∧ s.fsm.bodyCnt = 0 ∧
      s.regs.pollAttempts = BitVec.ofNat 32 s.fsm.pollCnt
  body : s.fsm.state = .body →
    s.fsm.pollCnt ≤ s.cfg.pollBudget ∧ s.fsm.got < s.fsm.declLen.toNat ∧ s.fsm.bodyCnt < s.cfg.bodyPollBudget ∧
      s.regs.pollAttempts = BitVec.ofNat 32 s.fsm.pollCnt ∧
      ∀ j, 1 ≤ j → j ≤ s.fsm.got → (memRead s.mem (bufBase .rxbuf + j)).isSome = true
  dec : s.fsm.state = .dec →
    s.regs.rxLen.toNat = 1 + s.fsm.declLen.toNat ∧
      ∀ j, j < s.regs.rxLen.toNat → (memRead s.mem (bufBase .rxbuf + j)).isSome = true

theorem StateInv.of_idle {s : State} (hs : s.fsm.state = .idle) : StateInv s := by
  constructor <;> simp [hs, Machine.opFits]

/-- The state after the last byte: RUN decodes a buffer that is written to its end (R105). -/
theorem finishReceive_stateInv {s : State} (hop : s.fsm.op = .receive ∨ s.fsm.op = .run)
    (hgot : s.fsm.got = s.fsm.declLen.toNat)
    (hmem : ∀ j, 1 ≤ j → j ≤ s.fsm.got → (memRead s.mem (bufBase .rxbuf + j)).isSome = true) :
    StateInv (finishReceive s) := by
  rcases hop with hop | hop
  · exact .of_idle (by rw [(finishReceive_of_receive hop).2])
  · obtain ⟨hregs, hfsm⟩ := finishReceive_of_run hop
    have hlen : (finishReceive s).regs.rxLen.toNat = 1 + s.fsm.declLen.toNat := by
      have hdecl : s.fsm.declLen.toNat < 256 := s.fsm.declLen.isLt
      rw [hregs, hgot]
      exact Nat.mod_eq_of_lt (by omega)
    refine ⟨?_, ?_, ?_, ?_, fun _ => ⟨by rw [hlen, hfsm], fun j hj => ?_⟩⟩
    case refine_5 =>
      rw [hlen] at hj
      rw [finishReceive_mem, memRead_memWrite]
      split
      · rfl
      · next hne => exact hmem j (by simp only [bufBase] at hne; omega) (by omega)
    all_goals simp [hfsm, hop, Machine.opFits]

theorem startBody_stateInv {s : State} (len : Byte) (hop : s.fsm.op = .receive ∨ s.fsm.op = .run)
    (hcnt : s.fsm.pollCnt ≤ s.cfg.pollBudget) (hbudget : 0 < s.cfg.bodyPollBudget)
    (hatt : s.regs.pollAttempts = BitVec.ofNat 32 s.fsm.pollCnt) : StateInv (startBody len s) := by
  by_cases hlen : len = 0#8
  · subst hlen
    exact finishReceive_stateInv hop rfl (by simp; omega)
  · rw [startBody_of_ne_zero hlen]
    have hpos : 0 < len.toNat := Nat.pos_of_ne_zero fun h => hlen (BitVec.eq_of_toNat_eq h)
    refine ⟨?_, nofun, nofun, fun _ => ⟨hcnt, hpos, hbudget, hatt, fun j h1 h0 => ?_⟩, nofun⟩
    · rcases hop with hop | hop <;> simp [hop, Machine.opFits]
    · exact absurd (h1.trans h0) (by simp)

theorem pollStep_stateInv {s : State} (hi : StateInv s) (hc : configOk s.cfg = true) (hs : s.fsm.state = .poll) :
    StateInv (pollStep s) := by
  obtain ⟨hcnt, hgot, hbody, -⟩ := hi.poll hs
  have hbudget : 0 < s.cfg.bodyPollBudget := ((configOk_iff s.cfg).1 hc).2.2.1
  have hop : s.fsm.op = .receive ∨ s.fsm.op = .run := by simpa [hs, Machine.opFits] using hi.opFits
  rcases pollStep_cases s with ⟨-, h⟩ | ⟨-, -, h⟩ | ⟨-, hmore, h⟩ | ⟨len, -, h⟩ <;> rw [h]
  · exact .of_idle rfl
  · exact .of_idle rfl
  · have hfits := hi.opFits
    refine ⟨by simpa using hfits, ?_, fun _ => ?_, ?_, ?_⟩
    case refine_2 => simp [hgot, hbody]; omega
    all_goals simp [hs]
  · exact startBody_stateInv len (by simpa using hop) (by simpa using hcnt) (by simpa using hbudget) (by simp)

theorem storeBody_stateInv {s : State} {bs : List Byte} (hop : s.fsm.op = .receive ∨ s.fsm.op = .run)
    (hs : s.fsm.state = .body) (hi : StateInv s) (hle : s.fsm.got + bs.length ≤ s.fsm.declLen.toNat) :
    StateInv (storeBody bs s) := by
  obtain ⟨hcnt, -, hbody, hatt, hwritten⟩ := hi.body hs
  have hstored : ∀ j, 1 ≤ j → j ≤ s.fsm.got + bs.length →
      (memRead (bodyStored bs s).mem (bufBase .rxbuf + j)).isSome = true := by
    intro j h1 hj
    by_cases hold : j ≤ s.fsm.got
    · exact memWriteSpan_isSome (hwritten j h1 hold)
    · have hoff : bufBase .rxbuf + j = 0x301 + s.fsm.got + (j - s.fsm.got - 1) := by simp only [bufBase]; omega
      rw [hoff, bodyStored_mem, memRead_memWriteSpan_inside _ (by omega), List.getElem?_eq_getElem (by omega)]
      rfl
  rw [storeBody_eq]
  split
  · next hall => exact finishReceive_stateInv hop hall hstored
  · next hmissing =>
    exact ⟨by simpa using hi.opFits, by simp [hs], by simp [hs],
      fun _ => ⟨hcnt, by rw [bodyStored_fsm]; dsimp only; omega, hbody, hatt, hstored⟩, by simp [hs]⟩

theorem bodyStep_stateInv {s : State} (hi : StateInv s) (hs : s.fsm.state = .body) : StateInv (bodyStep s) := by
  obtain ⟨hcnt, hgot, hbody, hatt, hwritten⟩ := hi.body hs
  have hop : s.fsm.op = .receive ∨ s.fsm.op = .run := by simpa [hs, Machine.opFits] using hi.opFits
  have hread : StateInv (afterRead (s.fsm.declLen.toNat - s.fsm.got) s) := by
    obtain ⟨hfits, hrun, hpoll, hbody, hdec⟩ := hi
    constructor <;> simpa
  rcases bodyStep_cases s with ⟨-, h⟩ | ⟨-, -, h⟩ | ⟨-, hmore, h⟩ | ⟨bs, -, hle, -, h⟩ <;> rw [h]
  · exact .of_idle rfl
  · exact .of_idle rfl
  · refine ⟨by simpa using hi.opFits, ?_, ?_, fun _ => ?_, ?_⟩
    case refine_3 => simpa [hcnt, hgot, hatt] using ⟨by omega, hwritten⟩
    all_goals simp [hs]
  · exact storeBody_stateInv (by simpa using hop) (by simpa using hs) hread (by rw [afterRead_fsm]; omega)

/-- A transition of the operation in progress leads to a state that has what `Inv` asks of it. -/
theorem moves_stateInv {s t : State} (hi : StateInv s) (hc : configOk s.cfg = true) (hs : s.fsm.state ≠ .idle)
    (h : Moves (instrOf s.fsm.op s.fsm.byte) s t) : StateInv t := by
  have hpoll : 0 < s.cfg.pollBudget := ((configOk_iff s.cfg).1 hc).1
  cases h with
  | stay => exact hi
  | acceptLocal h | acceptDecode h | acceptTransmit h | acceptReceive h | acceptRun h => exact absurd h hs
  | opcode hop => cases ho : s.fsm.op <;> simp [ho, instrOf] at hop
  | poll _ he => exact pollStep_stateInv hi hc he
  | body _ he => exact bodyStep_stateInv hi he
  | @encodeRun _ p hop _ hsize _ hlen =>
    have hrun : s.fsm.op = .run := op_of_instrOf_eq hop rfl
    refine ⟨by simp [hrun, Machine.opFits], fun _ _ hzero => ?_, nofun, nofun, nofun⟩
    have hzero := congrArg BitVec.toNat hzero
    rw [setFsmState_regs, storeFrame_requestFrame_regs, BitVec.toNat_ofNat, Nat.mod_eq_of_lt (by omega)] at hzero
    cases hzero
  | txRun hop =>
    have hrun : s.fsm.op = .run := op_of_instrOf_eq hop rfl
    exact ⟨by simp [hrun, Machine.opFits], nofun, fun _ => ⟨by simpa using hpoll, rfl, rfl, rfl⟩, nofun, nofun⟩
  | crcDone | invalidDone | encodeDone | encodeFailed | txDone | txEmpty | txFailed | decodeDone | decodeTooLong
  | decodeTooShort | decodeMismatch => exact .of_idle rfl

/-- The entry actions lead to states that have what `Inv` asks of them (R24, R46). -/
theorem enterOp_stateInv (op : Op) (b : Byte) {s : State} (hc : configOk s.cfg = true) : StateInv (enterOp op b s) := by
  have hpoll : 0 < s.cfg.pollBudget := ((configOk_iff s.cfg).1 hc).1
  cases op with
  | crcInit | crcByte | crcSpan | encode | invalid | transmit | decode | run =>
    exact ⟨rfl, nofun, nofun, nofun, nofun⟩
  | receive => exact ⟨rfl, nofun, fun _ => ⟨hpoll, rfl, rfl, rfl⟩, nofun, nofun⟩

/-! ### The whole invariant -/

theorem Inv.stateInv {s : State} (hi : Inv s) : StateInv s := ⟨hi.opFits, hi.runTx, hi.poll, hi.body, hi.dec⟩

/-- While IDLE only the buffers are asked about. -/
theorem Inv.of_idle {s : State} (hb : BufInv s.mem s.regs.txLen) (hs : s.fsm.state = .idle)
    (hbusy : s.regs.status.busy = false) : Inv s := by
  obtain ⟨hfits, hrun, hpoll, hbody, hdec⟩ := StateInv.of_idle hs
  exact ⟨hb.wf, hb.inBuffers, by simp [hs, hbusy], by simp [hbusy], hfits, by simp [hbusy], hb.frame, hrun, hpoll, hbody,
    hdec⟩

/-- While busy, STATUS is as an accepted CMD write leaves it, RESP_VALID apart (R26, R29). -/
theorem Inv.of_busy {s : State} (hb : BufInv s.mem s.regs.txLen) (hs : s.fsm.state ≠ .idle)
    (hbusy : s.regs.status.busy = true) (hclear : s.regs.status.done = false ∧ s.regs.status.err = .none)
    (hresp : s.fsm.op ∈ clearsResponse → s.regs.status.respValid = false) (hst : StateInv s) : Inv s :=
  ⟨hb.wf, hb.inBuffers, by simp [hs, hbusy], fun _ => hclear, hst.opFits, fun _ => hresp, hb.frame, hst.runTx, hst.poll,
    hst.body, hst.dec⟩

/-- The invariant is about the registers, the hidden state, the buffers and the budgets only. -/
theorem Inv.congr {s t : State} (hi : Inv s) (hregs : t.regs = s.regs) (hfsm : t.fsm = s.fsm) (hmem : t.mem = s.mem)
    (hcfg : t.cfg = s.cfg) : Inv t := by
  obtain ⟨h1, h2, h3, h4, h5, h6, h7, h8, h9, h10, h11⟩ := hi
  rw [← hregs, ← hfsm, ← hmem, ← hcfg] at *
  exact ⟨h1, h2, h3, h4, h5, h6, h7, h8, h9, h10, h11⟩

/-! ### The turns -/

theorem blockStep_inv {s t : State} (hi : Inv s) (hc : configOk s.cfg = true) (h : blockStep s = .next t) : Inv t := by
  rcases blockStep_next h with ⟨-, rfl⟩ | ⟨hs, hm⟩
  · exact hi
  have hb := moves_bufInv hi hm
  cases moves_blockEffect hs hi.opFits hm with
  | completes e hidle hst => exact .of_idle hb hidle (by rw [hst]; rfl)
  | responds hidle hst => exact .of_idle hb hidle (by rw [hst]; rfl)
  | goesOn hne hst =>
    have hbusy := hi.busyIff.2 hs
    exact .of_busy hb hne (hst ▸ hbusy) (hst ▸ hi.busyClears hbusy)
      (fun hop => hst ▸ hi.noResponse hbusy (moves_op hs hm ▸ hop)) (moves_stateInv hi.stateInv hc hs hm)

/-- An accepted CMD write leads to a good state (R24). -/
theorem enterOp_inv (op : Op) (b : Byte) {s : State} (hb : BufInv s.mem s.regs.txLen) (hc : configOk s.cfg = true) :
    Inv (enterOp op b s) := by
  have hstatus := enterOp_status op b s
  refine .of_busy ?_ (enterOp_ne_idle op b s) (by rw [hstatus]) (by rw [hstatus]; exact ⟨rfl, rfl⟩) (fun hop => ?_)
    (enterOp_stateInv op b hc)
  · rw [enterOp_mem, enterOp_regs]; exact hb
  · rw [enterOp_op] at hop
    simp [hstatus, hop]

theorem reject_inv {s : State} (hi : Inv s) : Inv (reject s) :=
  ⟨hi.memWf, hi.memInBuffers, hi.busyIff, hi.busyClears, hi.opFits, hi.noResponse, hi.txFrame, hi.runTx, hi.poll, hi.body,
    hi.dec⟩

theorem bufInv_empty : BufInv [] 0#9 := ⟨.nil, nofun, fun h => absurd rfl h⟩

/-- Settles O43: the block is IDLE, with nothing in its buffers. -/
theorem resetSatisfiesInv : Obligations.ResetSatisfiesInv := .of_idle bufInv_empty rfl rfl

/-- Settles O44: by what the step was. -/
theorem everyStepKeepsInv : Obligations.EveryStepKeepsInv := by
  intro s t hi h
  obtain ⟨hc, -⟩ := step_next h
  have hb := hi.bufInv
  cases stepCase_of_step hi h with
  | block _ hblock => exact blockStep_inv hi.nextTurn hc hblock
  | reset _ ht => exact .of_idle (ht ▸ bufInv_empty) (ht ▸ rfl) (ht ▸ rfl)
  | read v d ht => exact hi.congr (ht ▸ rfl) (ht ▸ rfl) (ht ▸ rfl) (ht ▸ rfl)
  | ignored ht => exact ht ▸ hi.nextTurn
  | rejected _ ht => exact ht ▸ reject_inv hi.nextTurn
  | accepted w op _ _ _ ht => exact ht ▸ enterOp_inv op _ hb hc
  | storedReg a o z n hidle ht =>
    exact .of_idle (ht ▸ hb) (ht ▸ hi.idle_of_not_busy hidle) (ht ▸ hidle)
  | storedByte off v hidle hin hout ht =>
    exact .of_idle (ht ▸ hb.storeByte v hin hout) (ht ▸ hi.idle_of_not_busy hidle) (ht ▸ hidle)

end Sys2Proof.Machine
end

section
/-! Who writes what over one step of a good state (10_state.md R31, R35, R37–R41, R47; 20_memory.md R61, R67): the result
registers, the operands and buffers, the channel. -/

namespace Sys2Proof.Machine

theorem ReceiveEffect.regs {r : Regs} {t : State} (h : ReceiveEffect r t) :
    ∃ n k st, t.regs = { r with rxLen := n, pollAttempts := k, status := st } := by
  cases h with
  | goesOn n k _ hr => exact ⟨n, k, r.status, hr⟩
  | completes n k e _ hr => exact ⟨n, k, _, hr⟩

/-! ### The result registers -/

theorem finishReceive_pollAttempts (s : State) : (finishReceive s).regs.pollAttempts = s.regs.pollAttempts := by
  rcases finishReceive_cases s with ⟨-, h⟩ | ⟨-, h⟩ <;> rw [h] <;> rfl

/-- Only poll attempts are counted in POLL_ATTEMPTS (R41, R104). -/
theorem bodyStep_pollAttempts (s : State) : (bodyStep s).regs.pollAttempts = s.regs.pollAttempts := by
  rcases bodyStep_cases s with ⟨-, h⟩ | ⟨-, -, h⟩ | ⟨-, -, h⟩ | ⟨bs, -, -, -, h⟩ <;> rw [h]
  case inr.inr.inr =>
    rw [storeBody_eq]
    split
    · rw [finishReceive_pollAttempts, bodyStored_regs, afterRead_regs]
    · rw [bodyStored_regs, afterRead_regs]
  all_goals simp

/-- The operation and state in which a block step may change CRC, TX_LEN or POLL_ATTEMPTS. -/
structure ResultWriters (s t : State) : Prop where
  crc : t.regs.crc ≠ s.regs.crc →
    (s.fsm.op ∈ [Op.crcInit, .crcByte, .crcSpan, .encode, .decode, .run] ∧ s.fsm.state = .exec) ∨
      (s.fsm.op = .run ∧ s.fsm.state = .dec)
  txLen : t.regs.txLen ≠ s.regs.txLen → (s.fsm.op = .encode ∨ s.fsm.op = .run) ∧ s.fsm.state = .exec
  pollAttempts : t.regs.pollAttempts ≠ s.regs.pollAttempts →
    ((s.fsm.op = .receive ∨ s.fsm.op = .run) ∧ s.fsm.state = .poll) ∨ (s.fsm.op = .run ∧ s.fsm.state = .tx)

theorem ResultWriters.of_same {s t : State} (hcrc : t.regs.crc = s.regs.crc) (htx : t.regs.txLen = s.regs.txLen)
    (hpoll : t.regs.pollAttempts = s.regs.pollAttempts) : ResultWriters s t :=
  ⟨absurd hcrc, absurd htx, absurd hpoll⟩

theorem moves_resultWriters {s t : State} (hs : s.fsm.state ≠ .idle) (h : Moves (instrOf s.fsm.op s.fsm.byte) s t) :
    ResultWriters s t := by
  have hdec : ∀ {b}, (instrOf s.fsm.op s.fsm.byte = .decode b ∧ s.fsm.state = .exec) ∨
      (instrOf s.fsm.op s.fsm.byte = .run b ∧ s.fsm.state = .dec) →
      (s.fsm.op ∈ [Op.crcInit, .crcByte, .crcSpan, .encode, .decode, .run] ∧ s.fsm.state = .exec) ∨
        (s.fsm.op = .run ∧ s.fsm.state = .dec) := fun hi =>
    ((decoding_iff_instrOf s).2 ⟨_, hi⟩).imp_left fun ⟨hop, he⟩ => ⟨by simp [hop], he⟩
  cases h with
  | acceptLocal h | acceptDecode h | acceptTransmit h | acceptReceive h | acceptRun h => exact absurd h hs
  | opcode hi => cases hop : s.fsm.op <;> simp [hop, instrOf] at hi
  | crcDone hi he =>
    refine ⟨fun _ => .inl ⟨?_, he⟩, absurd rfl, absurd rfl⟩
    cases hop : s.fsm.op <;> simp [hop, instrOf] at hi ⊢
  | encodeDone hi he =>
    have hop := op_of_instrOf_eq hi rfl
    exact ⟨fun _ => .inl ⟨by simp [hop], he⟩, fun _ => ⟨.inl hop, he⟩, absurd rfl⟩
  | encodeRun hi he =>
    have hop := op_of_instrOf_eq hi rfl
    exact ⟨fun _ => .inl ⟨by simp [hop], he⟩, fun _ => ⟨.inr hop, he⟩, absurd rfl⟩
  | encodeFailed hi he => exact ⟨absurd rfl, fun _ => ⟨op_of_instrOf_mem hi rfl rfl, he⟩, absurd rfl⟩
  | txRun hi he => exact ⟨absurd (by simp), absurd (by simp), fun _ => .inr ⟨op_of_instrOf_eq hi rfl, he⟩⟩
  | txDone | txFailed => exact .of_same (by simp) (by simp) (by simp)
  | poll hi he =>
    obtain ⟨n, k, st, hr⟩ := (pollStep_effect he).regs
    exact ⟨absurd (by rw [hr]), absurd (by rw [hr]), fun _ => .inl ⟨op_of_instrOf_mem hi rfl rfl, he⟩⟩
  | body _ he =>
    obtain ⟨n, k, st, hr⟩ := (bodyStep_effect he).regs
    exact .of_same (by rw [hr]) (by rw [hr]) (bodyStep_pollAttempts s)
  | decodeDone hi | decodeMismatch hi => exact ⟨fun _ => hdec hi, absurd rfl, absurd rfl⟩
  | stay | invalidDone | txEmpty | decodeTooLong | decodeTooShort => exact .of_same rfl rfl rfl

/-- The word of an operation that counts poll attempts is the word of RECEIVE or RUN. -/
theorem NamesOp.of_receives {w : Word} {op : Op} (h : NamesOp w op) (hop : op ∈ [Op.receive, .run]) :
    decodeCmd w = .receive (byteField w) ∨ decodeCmd w = .run (byteField w) := by
  rcases h with ⟨-, hw⟩ | ⟨rfl, -⟩
  · rcases List.mem_pair.1 hop with rfl | rfl
    · exact .inl hw
    · exact .inr hw
  · simp at hop

/-- Settles O48: a block step by its operation and state, an accepted CMD write by its entry action; no other access of the
host writes a result register. -/
theorem resultRegistersHaveOnlyTheirWriters : Obligations.ResultRegistersHaveOnlyTheirWriters := by
  intro s t hi h hnr
  cases stepCase_of_step hi h with
  | block hturn hb =>
    rcases blockStep_next hb with ⟨-, rfl⟩ | ⟨hs, hm⟩
    · simp
    obtain ⟨hcrc, htx, hpoll⟩ := moves_resultWriters hs hm
    simp only [stepOf, hturn, true_and]
    refine ⟨fun hne => ?_, fun hne => ?_, fun hne => ?_, fun hne => .inr ?_⟩
    · exact (hcrc hne).imp_left fun ⟨hop, he⟩ => ⟨_, hop, rfl, he⟩
    · cases moves_blockEffect hs hi.opFits hm with
      | goesOn _ _ hsame | completes _ _ _ hsame =>
        simp only [respRegs, Prod.mk.injEq] at hsame
        simp [hsame] at hne
      | responds _ hst hdec => exact ⟨hdec, by rw [hst], by rw [hst]; rfl⟩
    · exact or_and_right.1 (htx hne)
    · exact (hpoll hne).elim (fun hp => (or_and_right.1 hp).imp_right .inl) fun hp => .inr (.inr hp)
  | reset hturn => exact absurd hturn hnr
  | accepted w op hturn _ hop ht =>
    rw [ht, enterOp_regs]
    refine ⟨absurd rfl, by simp, absurd rfl, fun hne => .inl ⟨w, byteField w, hturn, hop.of_receives ?_⟩⟩
    by_contra hno
    exact hne (if_neg hno)
  | read _ _ ht | ignored ht | rejected _ ht | storedReg _ _ _ _ _ ht | storedByte _ _ _ _ _ ht => simp [ht]

/-! ### The operands and the buffers -/

/-- What a block step leaves as it is: the operand registers, PBUF, and but for a receive RX_LEN and RXBUF. -/
structure OperandsKept (s t : State) : Prop where
  cmdAddr : t.regs.cmdAddr = s.regs.cmdAddr
  cmdOpcode : t.regs.cmdOpcode = s.regs.cmdOpcode
  cmdSize : t.regs.cmdSize = s.regs.cmdSize
  pbuf : ∀ a, a < 0x200 → memRead t.mem a = memRead s.mem a
  rxLen : s.fsm.op ∉ [Op.receive, .run] → t.regs.rxLen = s.regs.rxLen
  rxbuf : s.fsm.op ∉ [Op.receive, .run] → ∀ a, 0x300 ≤ a → memRead t.mem a = memRead s.mem a

theorem OperandsKept.of_same {s t : State} (haddr : t.regs.cmdAddr = s.regs.cmdAddr)
    (hopcode : t.regs.cmdOpcode = s.regs.cmdOpcode) (hsize : t.regs.cmdSize = s.regs.cmdSize)
    (hlen : t.regs.rxLen = s.regs.rxLen) (hmem : t.mem = s.mem) : OperandsKept s t :=
  ⟨haddr, hopcode, hsize, fun _ _ => by rw [hmem], fun _ => hlen, fun _ _ _ => by rw [hmem]⟩

/-- A receive step belongs to RECEIVE or RUN and writes of these only RX_LEN and RXBUF. -/
theorem ReceiveEffect.operandsKept {s t : State} (h : ReceiveEffect s.regs t) (hf : ReceiveFrame s t)
    (hop : s.fsm.op = .receive ∨ s.fsm.op = .run) : OperandsKept s t := by
  obtain ⟨n, k, st, hr⟩ := h.regs
  have hmem : s.fsm.op ∈ [Op.receive, .run] := by simpa using hop
  exact ⟨by rw [hr], by rw [hr], by rw [hr], fun a ha => hf.mem a (by omega), absurd hmem, absurd hmem⟩

/-- A stored frame lies in TXBUF. -/
theorem memRead_storeFrame {s : State} {f : List Byte} (hf : f.length ≤ 256) {a : Nat} (ha : a < 0x200 ∨ 0x300 ≤ a) :
    memRead (storeFrame f s).mem a = memRead s.mem a :=
  memRead_memWriteSpan_outside _ (by simp only [bufBase]; omega)

theorem moves_operandsKept {s t : State} (hs : s.fsm.state ≠ .idle) (h : Moves (instrOf s.fsm.op s.fsm.byte) s t) :
    OperandsKept s t := by
  have hframe : ∀ {p : List Byte}, s.regs.cmdSize.toNat ≤ 251 → p.length = s.regs.cmdSize.toNat →
      (requestFrame s.regs.cmdAddr s.regs.cmdOpcode p).length ≤ 256 := fun hsize hlen => by
    rw [requestFrame_length]; omega
  cases h with
  | acceptLocal h | acceptDecode h | acceptTransmit h | acceptReceive h | acceptRun h => exact absurd h hs
  | opcode hi => cases hop : s.fsm.op <;> simp [hop, instrOf] at hi
  | encodeDone _ _ hsize _ hlen | encodeRun _ _ hsize _ hlen =>
    exact ⟨rfl, rfl, rfl, fun a ha => memRead_storeFrame (hframe hsize hlen) (.inl ha), fun _ => rfl,
      fun _ a ha => memRead_storeFrame (hframe hsize hlen) (.inr ha)⟩
  | txDone | txRun | txFailed => exact .of_same (by simp) (by simp) (by simp) (by simp) (by simp)
  | poll hi he => exact (pollStep_effect he).operandsKept (pollStep_frame s) (op_of_instrOf_mem hi rfl rfl)
  | body hi he => exact (bodyStep_effect he).operandsKept (bodyStep_frame s) (op_of_instrOf_mem hi rfl rfl)
  | stay | crcDone | invalidDone | encodeFailed | txEmpty | decodeDone | decodeTooLong | decodeTooShort
  | decodeMismatch => exact .of_same rfl rfl rfl rfl rfl

/-- Settles O49: a busy block's own step keeps its operands, and a host write is rejected or ignored. -/
theorem operandsFrozenWhileBusy : Obligations.OperandsFrozenWhileBusy := by
  intro s t hi h hbusy hnr
  have hkept : OperandsKept (nextTurn s) t := by
    cases stepCase_of_step hi h with
    | block _ hb =>
      rcases blockStep_next hb with ⟨-, rfl⟩ | ⟨hs, hm⟩
      · exact .of_same rfl rfl rfl rfl rfl
      · exact moves_operandsKept hs hm
    | reset hturn => exact absurd hturn hnr
    | accepted _ _ _ hidle | storedReg _ _ _ _ hidle | storedByte _ _ hidle => exact absurd hbusy (by simp [hidle])
    | read _ _ ht | ignored ht | rejected _ ht => subst ht; exact .of_same rfl rfl rfl rfl rfl
  exact ⟨hkept.cmdAddr, hkept.cmdOpcode, hkept.cmdSize, fun a _ ha => hkept.pbuf a (by omega),
    fun hop => ⟨hkept.rxLen hop, fun a ha _ => hkept.rxbuf hop a ha⟩⟩

/-! ### The channel -/

/-- What a block step does on the channel: nothing, one ChanWrite of what TXBUF holds, or one ChanRead. -/
inductive ChanUse (s t : State) : Prop where
  | none : t.chan = s.chan → ChanUse s t
  | write (bs : List Byte) : s.fsm.state = .tx → s.regs.txLen.toNat ≠ 0 →
      memSpan s.mem (bufBase .txbuf) s.regs.txLen.toNat = .ok bs → t.chan = (afterWrite bs s).chan → ChanUse s t
  | read (n : Nat) : (n = 1 ∧ s.fsm.state = .poll) ∨ (n = s.fsm.declLen.toNat - s.fsm.got ∧ s.fsm.state = .body) →
      t.chan = (afterRead n s).chan → ChanUse s t

theorem moves_chanUse {i : Instr} {s t : State} (h : Moves i s t) : ChanUse s t := by
  cases h with
  | txDone _ hs hne hbs | txRun _ hs hne hbs | txFailed _ hs hne hbs => exact .write _ hs hne hbs rfl
  | poll _ hs => exact .read 1 (.inl ⟨rfl, hs⟩) (pollStep_sameOutside s).2.1
  | body _ hs => exact .read _ (.inr ⟨rfl, hs⟩) (bodyStep_sameOutside s).2.1
  | opcode => exact .none (by unfold writeOpcode; split <;> rfl)
  | stay | acceptLocal | acceptDecode | acceptTransmit | acceptReceive | acceptRun | crcDone | invalidDone | encodeDone
  | encodeRun | encodeFailed | txEmpty | decodeDone | decodeTooLong | decodeTooShort | decodeMismatch =>
    exact .none rfl

/-- A step leaves the channel alone, or is a block step that uses it (R47). -/
theorem step_chanUse {s t : State} (hi : Inv s) (h : step s = .next t) :
    t.chan = s.chan ∨ (blockTurn s ∧ ChanUse (nextTurn s) t) := by
  cases stepCase_of_step hi h with
  | block hturn hb =>
    rcases blockStep_next hb with ⟨-, rfl⟩ | ⟨-, hm⟩
    · exact .inl rfl
    · exact .inr ⟨hturn, moves_chanUse hm⟩
  | accepted w op _ _ _ ht => subst ht; exact .inl (enterOp_sameOutside op _ (nextTurn s)).2.1
  | reset _ ht | read _ _ ht | ignored ht | rejected _ ht | storedReg _ _ _ _ _ ht | storedByte _ _ _ _ _ ht =>
    exact .inl (by rw [ht]; rfl)

/-- Settles O50: a ChanRead asks for one byte in POLL, in BODY for the missing ones, of which there are 1 to 255. -/
theorem channelTouchedOnlyByItsStates : Obligations.ChannelTouchedOnlyByItsStates := by
  intro s t hi h
  rcases step_chanUse hi h with hsame | ⟨hturn, huse⟩
  · exact .inl hsame
  cases huse with
  | none hsame => exact .inl hsame
  | write bs hs _ _ ht => exact .inr (.inl ⟨hturn, hs, bs, _, by rw [ht, afterWrite_calls]; rfl⟩)
  | read n hn ht =>
    have hrange : 1 ≤ n ∧ n ≤ 255 := by
      rcases hn with ⟨rfl, -⟩ | ⟨rfl, hs⟩
      · decide
      · have hgot := (hi.body hs).2.1
        have hdecl : s.fsm.declLen.toNat < 256 := s.fsm.declLen.isLt
        simp only [nextTurn_fsm]
        omega
    exact .inr (.inr ⟨hturn, hn.imp And.right And.right, n, _, hrange.1, hrange.2, by rw [ht, afterRead_calls]; rfl⟩)

/-- Settles O51: what TX writes is what TXBUF holds, and with TX_LEN ≠ 0 that is a request frame. -/
theorem everyChannelWriteIsAFrame : Obligations.EveryChannelWriteIsAFrame := by
  intro s t bs a hi h hcalls
  rcases step_chanUse hi h with hsame | ⟨-, huse⟩
  · exact absurd (hsame ▸ hcalls).symm (List.cons_ne_self _ _)
  cases huse with
  | none hsame => exact absurd (hsame ▸ hcalls).symm (List.cons_ne_self _ _)
  | read n _ ht => simp [ht] at hcalls
  | write f _ hne hf ht =>
    obtain ⟨rfl, -⟩ : f = bs ∧ nextWrite (nextTurn s) = a := by simpa [ht] using hcalls
    obtain ⟨x, o, p, g, hg, hspan⟩ := hi.txFrame (mt (txLen_eq_zero_iff s).1 hne)
    obtain ⟨hp, rfl⟩ := encodeFrame_inv hg
    exact ⟨x, o, p, hp, Except.ok.inj (hf.symm.trans hspan)⟩

end Sys2Proof.Machine
end

section
/-! Progress (10_state.md R51; 70_reset_and_hazards.md R155, R156): a block step answers a next state or UNINIT_READ, it
leaves fewer steps to take, and after as many as are left the operation has ended. -/

namespace Sys2Proof.Machine

/-! ### RUN by state -/

theorem exec_run_exec (b : Byte) {s : State} (hs : s.fsm.state = .exec) :
    exec (.run b) s = continueWith (setFsmState .tx) (encodeStage s) := by
  simp only [exec, execRun, hs]

theorem exec_run_tx (b : Byte) {s : State} (hs : s.fsm.state = .tx) :
    exec (.run b) s = continueWith pollEntry (txStep s) := by
  simp only [exec, execRun, hs]

/-! ### How a transition can end -/

/-- `r` is a next state or UNINIT_READ. -/
def nextOrUninit (r : Result) : Prop := (∃ t, r = .next t) ∨ ∃ off, r = .fault (.uninitRead off)

theorem finishWith_ne_refused (r : Stage) (x : Refusal) : finishWith r ≠ .refused x := by
  cases r <;> nofun

theorem continueWith_ne_refused (k : State → State) (r : Stage) (x : Refusal) : continueWith k r ≠ .refused x := by
  cases r <;> nofun

theorem localOp_ne_refused {op : Op} {b : Byte} {entry : State → State} {work : State → Result} {s : State} {x : Refusal}
    (hw : work s ≠ .refused x) : localOp op b entry work s ≠ .refused x := by
  intro h
  rcases localOp_cases h with ⟨-, hr⟩ | ⟨-, hr⟩ | ⟨-, -, hr⟩
  · cases hr
  · exact hw hr.symm
  · cases hr

/-- Every row of the opcode table has a meaning. -/
theorem exec_ne_refused (i : Instr) (s : State) (x : Refusal) : exec i s ≠ .refused x := by
  cases i with
  | crcInit b | crcByte b | invalid w =>
    simp only [exec, execCrcInit, execCrcByte, execInvalid]
    exact localOp_ne_refused nofun
  | crcSpan b =>
    simp only [exec, execCrcSpan]
    refine localOp_ne_refused ?_
    split <;> nofun
  | encode b | decode b =>
    simp only [exec, execEncode, execDecode]
    exact localOp_ne_refused (finishWith_ne_refused _ x)
  | transmit b =>
    simp only [exec, execTransmit]
    split
    case h_2 => exact finishWith_ne_refused _ x
    all_goals nofun
  | receive b =>
    simp only [exec, execReceive]
    split <;> nofun
  | run b =>
    simp only [exec, execRun]
    split
    case h_2 => exact continueWith_ne_refused _ _ x
    case h_3 => exact continueWith_ne_refused _ _ x
    case h_6 => exact finishWith_ne_refused _ x
    all_goals nofun
  | wireTagInventory | wireSetRfPower | wireSetInventoryTime | wireSetBuzzerEnabled => nofun

/-- A block step answers a next state or stops with UNINIT_READ (R51). -/
theorem blockStep_nextOrUninit (s : State) : nextOrUninit (blockStep s) := by
  cases h : blockStep s with
  | next t => exact .inl ⟨t, rfl⟩
  | fault f =>
    obtain ⟨off, rfl, -⟩ := blockStep_fault h
    exact .inr ⟨off, rfl⟩
  | refused x =>
    unfold blockStep at h
    split at h
    · cases h
    · exact absurd h (exec_ne_refused _ s x)

/-! ### No fault after the first step -/

/-- TXBUF holds the frame that TX_LEN declares, so the write stage does not stop (R99). -/
theorem Inv.txStep_ne_stop {s : State} (hi : Inv s) (f : Fault) : txStep s ≠ .stop f := by
  intro h
  obtain ⟨hne, hspan⟩ := txStep_stop h
  obtain ⟨_, _, _, g, -, hg⟩ := hi.txFrame (mt (txLen_eq_zero_iff s).1 hne)
  rw [hg] at hspan
  cases hspan

/-- The receive wrote every byte that RUN decodes, so its decode stage does not stop (R105). -/
theorem StateInv.decodeStage_ne_stop {s : State} (hi : StateInv s) (hs : s.fsm.state = .dec) (f : Fault) :
    decodeStage s ≠ .stop f := by
  intro h
  obtain ⟨-, -, hspan⟩ := decodeStage_stop h
  obtain ⟨buf, hbuf⟩ := memSpan_ok_of_written (hi.dec hs).2
  rw [hbuf] at hspan
  cases hspan

/-- Settles O53: POLL and BODY consume no byte, TX and DEC consume bytes that were written. -/
theorem noFaultAfterTheFirstStep : Obligations.NoFaultAfterTheFirstStep := by
  intro s hi hs
  simp only [List.mem_cons, List.not_mem_nil, or_false] at hs
  rcases hs with hs | hs | hs | hs
  · rcases hi.op_of_tx hs with hop | hop <;> rw [blockStep_of_op hs nofun hop, instrOf]
    · rw [exec_transmit_tx _ hs]
      cases h : txStep s with
      | goOn t | raised t => exact ⟨_, rfl⟩
      | stop f => exact absurd h (hi.txStep_ne_stop f)
    · rw [exec_run_tx _ hs]
      cases h : txStep s with
      | goOn t | raised t => exact ⟨_, rfl⟩
      | stop f => exact absurd h (hi.txStep_ne_stop f)
  · exact ⟨_, blockStep_poll hi hs⟩
  · exact ⟨_, blockStep_body hi hs⟩
  · have hop : s.fsm.op = .run := by simpa [hs, opFits] using hi.opFits
    rw [blockStep_decoding (.inr ⟨hop, hs⟩)]
    cases h : decodeStage s with
    | goOn t | raised t => exact ⟨_, rfl⟩
    | stop f => exact absurd h (hi.stateInv.decodeStage_ne_stop hs f)

/-! ### Operations of one step -/

/-- The block has completed its operation (R27). -/
def completed (s : State) : Prop := s.fsm.state = .idle ∧ s.regs.status.done = true ∧ s.regs.status.busy = false

theorem BlockEffect.completed_of_idle {s t : State} (h : BlockEffect s t) (hidle : t.fsm.state = .idle) : completed t := by
  cases h with
  | goesOn hne => exact absurd hidle hne
  | completes e hs hst => exact ⟨hs, by rw [hst]; rfl, by rw [hst]; rfl⟩
  | responds hs hst => exact ⟨hs, by rw [hst]; rfl, by rw [hst]; rfl⟩

/-- Only RECEIVE and RUN take more than one step. -/
theorem moves_idle_of_local {s t : State} (hf : opFits s.fsm.state s.fsm.op = true)
    (hop : s.fsm.op ∉ [Op.receive, .run]) (hs : s.fsm.state ≠ .idle)
    (h : Moves (instrOf s.fsm.op s.fsm.byte) s t) : t.fsm.state = .idle := by
  obtain ⟨hreceive, hrun⟩ : s.fsm.op ≠ .receive ∧ s.fsm.op ≠ .run := by simpa using hop
  cases h with
  | stay hu => rw [unreached_of_opFits s.fsm.byte hf] at hu; cases hu
  | acceptLocal h | acceptDecode h | acceptTransmit h | acceptReceive h | acceptRun h => exact absurd h hs
  | opcode hi => cases hop : s.fsm.op <;> simp [hop, instrOf] at hi
  | encodeRun hi | txRun hi => exact absurd (op_of_instrOf_eq hi rfl) hrun
  | poll hi | body hi => exact absurd (op_of_instrOf_mem hi rfl rfl) (not_or.2 ⟨hreceive, hrun⟩)
  | crcDone | invalidDone | encodeDone | encodeFailed | txDone | txEmpty | txFailed | decodeDone | decodeTooLong
  | decodeTooShort | decodeMismatch => rfl

/-- A block step of an operation but RECEIVE and RUN is its end, or stops with UNINIT_READ. -/
theorem blockStep_local {s : State} (hf : opFits s.fsm.state s.fsm.op = true) (hop : s.fsm.op ∉ [Op.receive, .run])
    (hs : s.fsm.state ≠ .idle) :
    (∃ t, blockStep s = .next t ∧ completed t) ∨ ∃ off, blockStep s = .fault (.uninitRead off) := by
  refine (blockStep_nextOrUninit s).imp_left fun ⟨t, ht⟩ => ⟨t, ht, ?_⟩
  obtain ⟨-, hm⟩ := (blockStep_next ht).resolve_left fun h => hs h.1
  exact (moves_blockEffect hs hf hm).completed_of_idle (moves_idle_of_local hf hop hs hm)

/-- Settles O54: these operations are the ones but RECEIVE and RUN. -/
theorem localOperationsTakeOneStep : Obligations.LocalOperationsTakeOneStep :=
  fun _ hi hs hop => blockStep_local hi.opFits (fun h => by
    rcases List.mem_pair.1 h with h | h <;> simp [h] at hop) hs

end Sys2Proof.Machine
end

section
/-! Termination (42_receive.md R107, R108; 70_reset_and_hazards.md R155, R156): every block step leaves fewer steps to take
(`stepsLeft`), so after as many as are left at the start the operation has ended. -/

namespace Sys2Proof.Machine

/-! ### Each step leaves fewer -/

theorem StateInv.stepsLeft_pos {s : State} (hi : StateInv s) (hs : s.fsm.state ≠ .idle) :
    0 < stepsLeft s.cfg s.fsm := by
  cases he : s.fsm.state with
  | idle => exact absurd he hs
  | exec | tx | poll | dec => simp [stepsLeft, he]
  | body =>
    obtain ⟨-, hgot, hcnt, -⟩ := hi.body he
    simp only [stepsLeft, he]
    omega

/-- After the receive at most the decode is left (R105). -/
theorem finishReceive_stepsLeft (s : State) : stepsLeft (finishReceive s).cfg (finishReceive s).fsm ≤ 1 := by
  rcases finishReceive_cases s with ⟨-, h⟩ | ⟨-, h⟩ <;> rw [h]
  · exact Nat.zero_le 1
  · exact le_refl 1

theorem startBody_stepsLeft (len : Byte) (s : State) :
    stepsLeft (startBody len s).cfg (startBody len s).fsm ≤ s.cfg.bodyPollBudget + 255 := by
  by_cases hlen : len = 0#8
  · subst hlen
    exact (finishReceive_stepsLeft _).trans (by omega)
  · have hlt : len.toNat < 256 := len.isLt
    rw [startBody_of_ne_zero hlen]
    simp only [stepsLeft]
    omega

theorem StateInv.pollStep_stepsLeft {s : State} (hi : StateInv s) (hs : s.fsm.state = .poll) :
    stepsLeft (pollStep s).cfg (pollStep s).fsm < stepsLeft s.cfg s.fsm := by
  have hcnt := (hi.poll hs).1
  have hleft : stepsLeft s.cfg s.fsm = s.cfg.pollBudget - s.fsm.pollCnt + s.cfg.bodyPollBudget + 255 := by
    rw [stepsLeft, hs]
  rcases pollStep_cases s with ⟨-, h⟩ | ⟨-, -, h⟩ | ⟨-, -, h⟩ | ⟨len, -, h⟩ <;> rw [h]
  · exact hi.stepsLeft_pos (by rw [hs]; nofun)
  · exact hi.stepsLeft_pos (by rw [hs]; nofun)
  · simp only [stepsLeft, countPoll_fsm, countPoll_cfg, afterRead_fsm, afterRead_cfg, hs]
    omega
  · have hbody := startBody_stepsLeft len (countPoll (afterRead 1 s))
    simp only [countPoll_cfg, afterRead_cfg] at hbody
    omega

theorem StateInv.bodyStep_stepsLeft {s : State} (hi : StateInv s) (hs : s.fsm.state = .body) :
    stepsLeft (bodyStep s).cfg (bodyStep s).fsm < stepsLeft s.cfg s.fsm := by
  obtain ⟨-, hgot, hcnt, -⟩ := hi.body hs
  have hleft : stepsLeft s.cfg s.fsm = s.cfg.bodyPollBudget - s.fsm.bodyCnt + (s.fsm.declLen.toNat - s.fsm.got) := by
    rw [stepsLeft, hs]
  rcases bodyStep_cases s with ⟨-, h⟩ | ⟨-, -, h⟩ | ⟨-, -, h⟩ | ⟨bs, hne, hle, -, h⟩ <;> rw [h]
  · exact hi.stepsLeft_pos (by rw [hs]; nofun)
  · exact hi.stepsLeft_pos (by rw [hs]; nofun)
  · simp only [stepsLeft, setFsm_fsm, setFsm_cfg, afterRead_cfg, hs]
    omega
  · have hpos : 0 < bs.length := List.length_pos_of_ne_nil hne
    rw [storeBody_eq]
    split
    · have hone := finishReceive_stepsLeft (bodyStored bs (afterRead (s.fsm.declLen.toNat - s.fsm.got) s))
      omega
    · have hcfg : (bodyStored bs (afterRead (s.fsm.declLen.toNat - s.fsm.got) s)).cfg = s.cfg := afterRead_cfg _ s
      simp only [stepsLeft, hcfg, bodyStored_fsm, afterRead_fsm, hs]
      omega

theorem moves_stepsLeft {s t : State} (hi : StateInv s) (hs : s.fsm.state ≠ .idle)
    (h : Moves (instrOf s.fsm.op s.fsm.byte) s t) : stepsLeft t.cfg t.fsm < stepsLeft s.cfg s.fsm := by
  have hpos := hi.stepsLeft_pos hs
  cases h with
  | stay hu => rw [unreached_of_opFits s.fsm.byte hi.opFits] at hu; cases hu
  | acceptLocal h | acceptDecode h | acceptTransmit h | acceptReceive h | acceptRun h => exact absurd h hs
  | opcode hi => cases hop : s.fsm.op <;> simp [hop, instrOf] at hi
  | encodeRun _ he => simp [stepsLeft, he]
  | txRun _ he => simp [stepsLeft, receiveBound, he]
  | poll _ he => exact hi.pollStep_stepsLeft he
  | body _ he => exact hi.bodyStep_stepsLeft he
  | crcDone | invalidDone | encodeDone | encodeFailed | txDone | txEmpty | txFailed | decodeDone | decodeTooLong
  | decodeTooShort | decodeMismatch => exact hpos

/-- No transition changes the configuration or the agenda. -/
theorem moves_cfg_todo {i : Instr} {s t : State} (h : Moves i s t) : t.cfg = s.cfg ∧ t.todo = s.todo := by
  cases h with
  | poll =>
    obtain ⟨hcfg, -, htodo, -⟩ := pollStep_sameOutside s
    exact ⟨hcfg.trans (afterRead_cfg 1 s), htodo.trans (afterRead_todo 1 s)⟩
  | body =>
    obtain ⟨hcfg, -, htodo, -⟩ := bodyStep_sameOutside s
    exact ⟨hcfg.trans (afterRead_cfg _ s), htodo.trans (afterRead_todo _ s)⟩
  | txDone | txRun | txFailed => simp
  | opcode => unfold writeOpcode; split <;> exact ⟨rfl, rfl⟩
  | stay | acceptLocal | acceptDecode | acceptTransmit | acceptReceive | acceptRun | crcDone | invalidDone | encodeDone
  | encodeRun | encodeFailed | txEmpty | decodeDone | decodeTooLong | decodeTooShort | decodeMismatch =>
    exact ⟨rfl, rfl⟩

/-- One block step of a busy block: the states of the block stay as `Inv` asks, fewer steps are left, and when the block is
IDLE the operation is complete. -/
theorem StateInv.blockStep_progress {s t : State} (hi : StateInv s) (hc : configOk s.cfg = true)
    (hs : s.fsm.state ≠ .idle) (h : blockStep s = .next t) :
    StateInv t ∧ t.cfg = s.cfg ∧ stepsLeft t.cfg t.fsm < stepsLeft s.cfg s.fsm ∧ (t.fsm.state = .idle → completed t) := by
  obtain ⟨-, hm⟩ := (blockStep_next h).resolve_left fun h => hs h.1
  exact ⟨moves_stateInv hi hc hs hm, (moves_cfg_todo hm).1, moves_stepsLeft hi hs hm,
    (moves_blockEffect hs hi.opFits hm).completed_of_idle⟩

/-! ### To the end of an operation -/

/-- `settle` came to the end of the operation, or stopped with UNINIT_READ. -/
def settles (n : Nat) (s : State) : Prop :=
  (∃ u, settle n s = .next u ∧ completed u) ∨ ∃ off, settle n s = .fault (.uninitRead off)

theorem settle_succ {n : Nat} {s t : State} (hs : s.fsm.state ≠ .idle) (h : blockStep s = .next t) :
    settle (n + 1) s = settle n t := by
  rw [settle, if_neg hs, h]

theorem settle_succ_fault {n : Nat} {s : State} {f : Fault} (hs : s.fsm.state ≠ .idle) (h : blockStep s = .fault f) :
    settle (n + 1) s = .fault f := by
  rw [settle, if_neg hs, h]

/-- As many block steps as are left take an operation to its end, unless the model stops. -/
theorem StateInv.settles {n : Nat} {s : State} (hi : StateInv s) (hc : configOk s.cfg = true)
    (hs : s.fsm.state ≠ .idle) (hn : stepsLeft s.cfg s.fsm ≤ n) : settles n s := by
  induction n generalizing s with
  | zero => exact absurd (hi.stepsLeft_pos hs) (by omega)
  | succ n ih =>
    rcases blockStep_nextOrUninit s with ⟨t, ht⟩ | ⟨off, hf⟩
    · obtain ⟨hi', hcfg, hless, hdone⟩ := hi.blockStep_progress hc hs ht
      rw [Machine.settles, settle_succ hs ht]
      by_cases hidle : t.fsm.state = .idle
      · exact .inl ⟨t, settle_of_idle n hidle, hdone hidle⟩
      · exact ih hi' (by rw [hcfg]; exact hc) hidle (by omega)
    · exact .inr ⟨off, settle_succ_fault hs hf⟩

/-- One block step takes an operation but RECEIVE and RUN to its end, unless the model stops. -/
theorem settles_one_of_local {s : State} (hf : opFits s.fsm.state s.fsm.op = true)
    (hop : s.fsm.op ∉ [Op.receive, .run]) (hs : s.fsm.state ≠ .idle) : settles 1 s := by
  rcases blockStep_local hf hop hs with ⟨t, ht, hdone⟩ | ⟨off, hf⟩
  · exact .inl ⟨t, settle_succ hs ht, hdone⟩
  · exact .inr ⟨off, settle_succ_fault hs hf⟩

/-- Every operation, once entered, ends within its bound. -/
theorem settles_enterOp (op : Op) (b : Byte) {s : State} (hc : configOk s.cfg = true) :
    settles (opBound (instrOf op b) s.cfg) (enterOp op b s) := by
  have hi := enterOp_stateInv op b hc
  have hs := enterOp_ne_idle op b s
  cases op with
  | receive => exact hi.settles hc hs (le_refl (receiveBound s.cfg))
  | run => exact hi.settles hc hs (by change receiveBound s.cfg + 2 ≤ 2 + receiveBound s.cfg + 1; omega)
  | crcInit | crcByte | crcSpan | encode | transmit | decode | invalid => exact settles_one_of_local hi.opFits (by simp) hs

theorem endsWithin_of_namesOp {w : Word} {op : Op} {s : State} (h : NamesOp w op) (hc : configOk s.cfg = true)
    (hs : s.fsm.state = .idle) : endsWithin (opBound (decodeCmd w) s.cfg) (decodeCmd w) s := by
  have hbound : opBound (decodeCmd w) s.cfg = opBound (instrOf op (byteField w)) s.cfg := by
    rcases h with ⟨-, hw⟩ | ⟨rfl, hw⟩ <;> rw [hw]
    rfl
  rw [hbound]
  exact ⟨_, exec_of_namesOp h hs, enterOp_ne_idle _ _ _, settles_enterOp op _ hc⟩

/-- Running an operation to its end is running it for its bound. -/
theorem runOp_of_endsWithin {i : Instr} {s : State} (h : endsWithin (opBound i s.cfg) i s) :
    (∃ t, runOp i s = .next t ∧ completed t) ∨ ∃ off, runOp i s = .fault (.uninitRead off) := by
  obtain ⟨t, ht, -, hend⟩ := h
  have hrun : runOp i s = settle (opBound i s.cfg) t := by rw [runOp, ht]
  rwa [hrun]

theorem opBound_decodeCmd_eq_one {w : Word} (c : Config) (h : ∀ b, decodeCmd w ≠ .receive b ∧ decodeCmd w ≠ .run b) :
    opBound (decodeCmd w) c = 1 := by
  obtain ⟨op, hop⟩ := exists_namesOp w
  rcases hop with ⟨-, hw⟩ | ⟨-, hw⟩
  · cases op with
    | receive => exact absurd hw (h _).1
    | run => exact absurd hw (h _).2
    | crcInit | crcByte | crcSpan | encode | transmit | decode | invalid => rw [hw]; rfl
  · rw [hw]; rfl

/-- Settles O55: the bound of the operation that the word names. -/
theorem everyOperationTerminates : Obligations.EveryOperationTerminates := by
  intro w s hc hs
  obtain ⟨op, hop⟩ := exists_namesOp w
  have hend := endsWithin_of_namesOp hop hc hs
  refine ⟨fun h => ?_, fun b hb => ?_, fun b hb => ?_, runOp_of_endsWithin hend⟩
  · rwa [opBound_decodeCmd_eq_one s.cfg h] at hend
  · rw [hb] at hend ⊢
    exact hend
  · rw [hb] at hend ⊢
    have hbound : opBound (.run b) s.cfg = s.cfg.pollBudget + s.cfg.bodyPollBudget + 258 := by
      simp only [opBound, receiveBound]; omega
    rwa [hbound] at hend

/-! ### The bound of a receive -/

/-- A receive has no more steps to take than R108 says, so it cannot come to EXEC or TX again. -/
theorem stepsLeft_receive_le {c : Config} {f : Fsm} (h : f.state = .poll ∨ f.state = .body) :
    stepsLeft c f ≤ receiveBound c := by
  have hdecl : f.declLen.toNat < 256 := f.declLen.isLt
  rcases h with h | h <;> simp only [stepsLeft, receiveBound, h] <;> omega

/-- With an empty agenda, a receive step is a step of the machine and leaves the agenda empty; it goes on with the
receive, ends it, or has RUN decode. -/
theorem Inv.receive_step {s : State} (hi : Inv s) (hc : configOk s.cfg = true) (htodo : s.todo = [])
    (hs : s.fsm.state = .poll ∨ s.fsm.state = .body) :
    ∃ t, step s = .next t ∧ Inv t ∧ t.cfg = s.cfg ∧ t.todo = [] ∧ t.fsm.op = s.fsm.op ∧
      stepsLeft t.cfg t.fsm < stepsLeft s.cfg s.fsm ∧
      (t.fsm.state = .idle ∨ (s.fsm.op = .run ∧ t.fsm.state = .dec) ∨ t.fsm.state = .poll ∨ t.fsm.state = .body) := by
  obtain ⟨t, ht⟩ := noFaultAfterTheFirstStep s hi (by rcases hs with h | h <;> simp [h])
  have hstep : step s = .next t := by
    rw [step_of_blockTurn hc (.inl (by rw [htodo]; rfl)), nextTurn_of_nil htodo, ht]
  have hne : s.fsm.state ≠ .idle := by rcases hs with h | h <;> simp [h]
  obtain ⟨-, hm⟩ := (blockStep_next ht).resolve_left fun h => hne h.1
  obtain ⟨hcfg, htodo'⟩ := moves_cfg_todo hm
  have hop := moves_op hne hm
  have hi' := everyStepKeepsInv s t hi hstep
  have hless := moves_stepsLeft hi.stateInv hne hm
  refine ⟨t, hstep, hi', hcfg, htodo'.trans htodo, hop, hless, ?_⟩
  have hle : stepsLeft t.cfg t.fsm ≤ receiveBound t.cfg := by
    rw [hcfg] at hless ⊢
    exact hless.le.trans (stepsLeft_receive_le hs)
  have hfits := hi'.opFits
  cases he : t.fsm.state with
  | idle => exact .inl rfl
  | poll => exact .inr (.inr (.inl rfl))
  | body => exact .inr (.inr (.inr rfl))
  | dec => exact .inr (.inl ⟨by simpa [he, hop, Machine.opFits] using hfits, rfl⟩)
  | exec | tx => simp only [stepsLeft, he] at hle; omega

theorem run_succ {M : Host.Core} {k : Nat} {s t : M.State} (h : M.step s = .next t) : M.run (k + 1) s = M.run k t := by
  rw [Host.Core.run, h]

theorem Inv.receive_ends {n : Nat} {s : State} (hi : Inv s) (hc : configOk s.cfg = true) (htodo : s.todo = [])
    (hs : s.fsm.state = .poll ∨ s.fsm.state = .body) (hn : stepsLeft s.cfg s.fsm ≤ n) :
    ∃ k t, k ≤ n ∧ Host.Core.run core k s = .next t ∧
      (t.fsm.state = .idle ∨ (s.fsm.op = .run ∧ t.fsm.state = .dec)) := by
  induction n generalizing s with
  | zero => exact absurd (hi.stateInv.stepsLeft_pos (by rcases hs with h | h <;> simp [h])) (by omega)
  | succ n ih =>
    obtain ⟨t, hstep, hi', hcfg, htodo', hop, hless, hend⟩ := hi.receive_step hc htodo hs
    rw [← or_assoc] at hend
    rcases hend with hend | hmore
    · exact ⟨1, t, by omega, run_succ hstep, hend⟩
    · obtain ⟨k, u, hk, hrun, hend⟩ := ih hi' (by rw [hcfg]; exact hc) htodo' hmore (by omega)
      exact ⟨k + 1, u, by omega, (run_succ hstep).trans hrun, hop ▸ hend⟩

/-- Settles O20: at poll_entry no more steps are left than R108's bound. -/
theorem receiveEndsWithinBound : Obligations.ReceiveEndsWithinBound :=
  fun _ hi hc htodo hs _ => hi.receive_ends hc htodo (.inl hs) (stepsLeft_receive_le (.inl hs))

end Sys2Proof.Machine
end

section
/-! The exact timeout (42_receive.md R107): on a channel that answers every ChanRead with no data, each poll attempt but the
last leaves the block waiting, and the last one ends with TIMEOUT. -/

namespace Sys2Proof.Machine

/-- `u` is `s` after `k` poll attempts without an answer, with POLL_BUDGET - k such answers still to come. -/
structure Waiting (s : State) (k : Nat) (u : State) : Prop where
  state : u.fsm.state = .poll
  op : u.fsm.op = s.fsm.op
  pollCnt : u.fsm.pollCnt = k
  cfg : u.cfg = s.cfg
  regs : ∃ p, u.regs = { s.regs with pollAttempts := p }
  mem : u.mem = s.mem
  calls : u.chan.calls = List.replicate k (.read 1 (.ok [])) ++ s.chan.calls
  answers : u.chan.readAns.take (s.cfg.pollBudget - k) = List.replicate (s.cfg.pollBudget - k) (.ok [])

/-- `t` is `s` after a receive that timed out: `POLL_BUDGET` ChanReads made, no buffer byte written (R102, R103). -/
def TimedOut (s t : State) : Prop :=
  t.fsm.state = .idle ∧
    t.regs =
      { s.regs with
        status := { s.regs.status with err := .timeout, busy := false, done := true }
        rxLen := 0#9
        pollAttempts := BitVec.ofNat 32 s.cfg.pollBudget } ∧
    t.mem = s.mem ∧ t.chan.calls = List.replicate s.cfg.pollBudget (.read 1 (.ok [])) ++ s.chan.calls

theorem exists_of_take_eq_replicate {α : Type} {a : α} {l : List α} {n : Nat}
    (h : l.take (n + 1) = List.replicate (n + 1) a) : ∃ rest, l = a :: rest ∧ rest.take n = List.replicate n a := by
  cases l with
  | nil => cases h
  | cons b rest =>
    obtain ⟨rfl, hrest⟩ := List.cons.inj h
    exact ⟨rest, rfl, hrest⟩

/-- The next scripted answer is given, and the rest of the script is left (R14). -/
theorem read_of_script {m : Nat} {s : State} {a : ReadAnswer} {rest : List ReadAnswer} (h : s.chan.readAns = a :: rest) :
    nextRead m s = clipRead m a ∧ (afterRead m s).chan.readAns = rest := by
  rw [nextRead, afterRead, h]
  exact ⟨rfl, rfl⟩

section
variable {s u : State} {k : Nat} (h : Waiting s k u) (hop : s.fsm.op = .receive ∨ s.fsm.op = .run)
include h

theorem Waiting.ne_idle : u.fsm.state ≠ .idle := by
  rw [h.state]
  nofun

/-- While an attempt is left, it finds no data, and an answer less is to come. -/
theorem Waiting.noData (hk : k < s.cfg.pollBudget) :
    nextRead 1 u = .ok [] ∧ (afterRead 1 u).chan.readAns.take (s.cfg.pollBudget - (k + 1)) =
      List.replicate (s.cfg.pollBudget - (k + 1)) (.ok []) := by
  have hans := h.answers
  rw [show s.cfg.pollBudget - k = s.cfg.pollBudget - (k + 1) + 1 by omega] at hans
  obtain ⟨rest, hscript, hrest⟩ := exists_of_take_eq_replicate hans
  obtain ⟨hnext, hafter⟩ := read_of_script (m := 1) hscript
  exact ⟨hnext, hafter ▸ hrest⟩

theorem Waiting.calls_succ (hk : k < s.cfg.pollBudget) :
    (afterRead 1 u).chan.calls = List.replicate (k + 1) (.read 1 (.ok [])) ++ s.chan.calls := by
  rw [afterRead_calls, (h.noData hk).1, h.calls, List.replicate_succ, List.cons_append]

include hop

theorem Waiting.blockStep_eq : blockStep u = .next (pollStep u) := by
  rcases hop with hop | hop <;> rw [blockStep_of_op h.state nofun (h.op.trans hop)]
  · exact exec_poll (.inl rfl) h.state
  · exact exec_poll (.inr rfl) h.state

/-- An attempt but the last leaves the block waiting (R103). -/
theorem Waiting.wait (hk : k + 1 < s.cfg.pollBudget) : ∃ v, blockStep u = .next v ∧ Waiting s (k + 1) v := by
  obtain ⟨hnone, hans⟩ := h.noData (by omega)
  have hmore : u.fsm.pollCnt + 1 ≠ u.cfg.pollBudget := by rw [h.pollCnt, h.cfg]; omega
  obtain ⟨p, hregs⟩ := h.regs
  refine ⟨countPoll (afterRead 1 u), ?_, ⟨?_, ?_, ?_, ?_, ⟨BitVec.ofNat 32 (u.fsm.pollCnt + 1), ?_⟩, ?_,
    h.calls_succ (by omega), hans⟩⟩
  · rw [h.blockStep_eq hop, pollStep_of_noData hnone, if_neg hmore]
  · simp [h.state]
  · simp [h.op]
  · simp [h.pollCnt]
  · simp [h.cfg]
  · simp [hregs]
  · simp [h.mem]

/-- The last attempt ends with TIMEOUT (R103). -/
theorem Waiting.timeout (hk : k + 1 = s.cfg.pollBudget) : ∃ t, blockStep u = .next t ∧ TimedOut s t := by
  obtain ⟨hnone, -⟩ := h.noData (by omega)
  have hlast : u.fsm.pollCnt + 1 = u.cfg.pollBudget := by rw [h.pollCnt, h.cfg]; omega
  obtain ⟨p, hregs⟩ := h.regs
  refine ⟨failReceive .timeout (countPoll (afterRead 1 u)), ?_, rfl, ?_, ?_, hk ▸ h.calls_succ (by omega)⟩
  · rw [h.blockStep_eq hop, pollStep_of_noData hnone, if_pos hlast]
  · simp [hregs, h.pollCnt, hk, statusCompleted]
  · simp [h.mem]

theorem Waiting.settle_waits {n : Nat} (hn : k + n < s.cfg.pollBudget) :
    ∃ v, settle n u = .next v ∧ Waiting s (k + n) v := by
  induction n generalizing k u with
  | zero => exact ⟨u, rfl, h⟩
  | succ n ih =>
    obtain ⟨v, hv, hwait⟩ := h.wait hop (by omega)
    rw [settle_succ h.ne_idle hv, show k + (n + 1) = k + 1 + n by omega]
    exact ih hwait (by omega)

theorem Waiting.settle_times_out {n : Nat} (hn : k + n + 1 = s.cfg.pollBudget) :
    ∃ t, settle (n + 1) u = .next t ∧ TimedOut s t := by
  induction n generalizing k u with
  | zero =>
    obtain ⟨t, ht, hout⟩ := h.timeout hop hn
    exact ⟨t, settle_succ h.ne_idle ht, hout⟩
  | succ n ih =>
    obtain ⟨v, hv, hwait⟩ := h.wait hop (by omega)
    rw [settle_succ h.ne_idle hv]
    exact ih hwait (by omega)

end

/-- Settles O19: after each attempt but the last the block waits; the last one is its end. -/
theorem emptyChannelTimesOutExactly : Obligations.EmptyChannelTimesOutExactly := by
  intro s hc hs hop hcnt hans
  have hstart : Waiting s 0 s := ⟨hs, rfl, hcnt, rfl, ⟨_, rfl⟩, rfl, rfl, hans⟩
  refine ⟨fun k hk => ?_, ?_⟩
  · obtain ⟨u, hu, hwait⟩ := hstart.settle_waits hop (n := k) (by omega)
    exact ⟨u, hu, hwait.state, by rw [hwait.pollCnt, Nat.zero_add]⟩
  · obtain ⟨hbudget, -⟩ := (configOk_iff s.cfg).1 hc
    have hlast : s.cfg.pollBudget = s.cfg.pollBudget - 1 + 1 := by omega
    have hend := hstart.settle_times_out hop (n := s.cfg.pollBudget - 1) (by omega)
    rwa [← hlast] at hend

end Sys2Proof.Machine
end

section
/-! The start of RECEIVE and of RUN, RUN's first two steps, and the operations that stop at an unwritten byte
(42_receive.md R102, R106; 44_exchange.md R117; 10_state.md R51). -/

namespace Sys2Proof.Machine

/-- Settles O16: the word of RECEIVE, and its acceptance and entry action as a whole state. -/
theorem receiveStartsPolling : Obligations.ReceiveStartsPolling :=
  fun b _ => ⟨decodeCmd_cmdWord (op := .receive) nofun b, exec_instrOf_idle (op := .receive) nofun b⟩

/-! ### RUN -/

theorem exec_run_encode_ok (b : Byte) {s : State} {p : List Byte} (hs : s.fsm.state = .exec)
    (hsize : s.regs.cmdSize.toNat ≤ 251) (hp : payloadSpan s = .ok p) :
    exec (.run b) s = .next (setFsmState .tx (storeFrame (requestFrame s.regs.cmdAddr s.regs.cmdOpcode p) s)) := by
  rw [exec_run_exec b hs, encodeStage_of_payload hsize hp, continueWith]

theorem exec_run_too_long (b : Byte) {s : State} (hs : s.fsm.state = .exec) (hsize : 251 < s.regs.cmdSize.toNat) :
    exec (.run b) s = .next (raise .invalidParameter (setTxLen 0 s)) := by
  rw [exec_run_exec b hs, encodeStage_of_too_long hsize, continueWith]

/-- RUN after a good write: the state in which the receive starts, written out (R102). -/
theorem pollEntry_afterWrite (f : List Byte) (s : State) :
    pollEntry (afterWrite f s) =
      { afterWrite f s with
        regs := { s.regs with pollAttempts := 0#32 }
        fsm := { s.fsm with state := .poll, pollCnt := 0, bodyCnt := 0, got := 0 } } := by
  simp only [pollEntry, setPollAttempts, setFsm, afterWrite_regs, afterWrite_fsm]

/-- Settles O26: RUN's word and start, its EXEC step in the two cases of the encode stage, its TX step by TX_LEN and the
channel's answer. -/
theorem runChainsEncodeAndWrite : Obligations.RunChainsEncodeAndWrite := by
  refine fun b s => ⟨decodeCmd_cmdWord (op := .run) nofun b, exec_instrOf_idle (op := .run) nofun b,
    fun p hs hsize hlen hp => ?encode, exec_run_too_long b, fun hs hzero => ?empty, fun f hs hne hlen hf => ?write⟩
  case encode =>
    exact ⟨_, exec_run_encode_ok b hs hsize (payloadSpan_of_holdsAt hlen hp), storeFrame_requestFrame_regs _ _ p s, rfl,
      memWriteSpan_storedAt s.mem 0x200 _, rfl, rfl, rfl, rfl, rfl⟩
  case empty =>
    rw [exec_run_tx b hs, txStep_of_txLen_zero ((txLen_eq_zero_iff s).1 hzero)]
    rfl
  case write =>
    have hspan : memSpan s.mem (bufBase .txbuf) s.regs.txLen.toNat = .ok f := hlen ▸ memSpan_of_holdsAt hf
    rw [exec_run_tx b hs, txStep_of_frame (mt (txLen_eq_zero_iff s).2 hne) hspan]
    exact ⟨fun hok => by rw [if_pos hok, continueWith, pollEntry_afterWrite],
      fun hok => by rw [if_neg hok]; rfl⟩

/-! ### Unwritten bytes -/

theorem txStep_of_unwritten {s : State} {f : Fault} (hne : s.regs.txLen.toNat ≠ 0)
    (hf : memSpan s.mem (bufBase .txbuf) s.regs.txLen.toNat = .error f) : txStep s = .stop f := by
  simp only [txStep, hne, if_false, hf]

/-- RUN on a payload with an unwritten byte is UNINIT_READ of such a byte (R51, R98). -/
theorem exec_run_unwritten_payload (b : Byte) {s : State} (hs : s.fsm.state = .exec) (hsize : s.regs.cmdSize.toNat ≤ 251)
    (h : unwrittenIn 0x100 s.regs.cmdSize.toNat s.mem) :
    stopsUninit 0x100 s.regs.cmdSize.toNat s.mem (exec (.run b) s) := by
  obtain ⟨i, hi, hnone, hspan⟩ := memSpan_of_unwrittenIn h
  exact ⟨i, hi, hnone, by rw [exec_run_exec b hs, encodeStage_of_unwritten hsize hspan, continueWith]⟩

/-- TRANSMIT and RUN on a frame with an unwritten byte are UNINIT_READ of such a byte (R51, R99). -/
theorem exec_tx_unwritten {i : Instr} {b : Byte} {s : State} (hi : i ∈ [Instr.transmit b, .run b])
    (hs : s.fsm.state = .tx) (h : unwrittenIn 0x200 s.regs.txLen.toNat s.mem) :
    stopsUninit 0x200 s.regs.txLen.toNat s.mem (exec i s) := by
  obtain ⟨j, hj, hnone, hspan⟩ := memSpan_of_unwrittenIn h
  refine ⟨j, hj, hnone, ?_⟩
  rcases List.mem_pair.1 hi with rfl | rfl
  · rw [exec_transmit_tx b hs, txStep_of_unwritten (by omega) hspan, finishWith]
  · rw [exec_run_tx b hs, txStep_of_unwritten (by omega) hspan, continueWith]

/-- DECODE and RUN on a buffer with an unwritten byte are UNINIT_READ of such a byte (R51, R111). -/
theorem exec_decode_unwritten {i : Instr} {b : Byte} {s : State}
    (hi : (i = .decode b ∧ s.fsm.state = .exec) ∨ (i = .run b ∧ s.fsm.state = .dec)) (h6 : 6 ≤ s.regs.rxLen.toNat)
    (h256 : s.regs.rxLen.toNat ≤ 256) (h : unwrittenIn 0x300 s.regs.rxLen.toNat s.mem) :
    stopsUninit 0x300 s.regs.rxLen.toNat s.mem (exec i s) := by
  obtain ⟨j, hj, hnone, hspan⟩ := memSpan_of_unwrittenIn h
  exact ⟨j, hj, hnone, by rw [exec_decodeStage hi, decodeStage_of_unwritten h6 h256 hspan, finishWith]⟩

/-- A host read of an unwritten byte is UNINIT_READ of it (R51; log 7). -/
theorem hostRead_unwritten {off : Nat} {s : State}
    (hoff : (0x100 ≤ off ∧ off ≤ 0x1FE) ∨ (0x200 ≤ off ∧ off ≤ 0x3FF)) (h : memRead s.mem off = none) :
    hostRead off 1 s = .fault (.uninitRead off) := by
  obtain ⟨⟨b, i⟩, hb⟩ := Option.isSome_iff_exists.1 ((bufAt_isSome_iff off).2 hoff)
  simp only [hostRead, target_byte_iff.2 ⟨rfl, hb⟩, h]

/-- Settles O40: one lemma per consumer of buffer bytes. -/
theorem unwrittenBytesStopTheModel : Obligations.UnwrittenBytesStopTheModel := by
  refine fun b s => ⟨fun off => hostRead_unwritten, fun hs hun => ⟨exec_crcSpan_unwritten b hs hun, fun hsize i hi => ?_⟩,
    fun hs hun i hi => exec_tx_unwritten hi hs hun, fun i hi h6 h256 hun => exec_decode_unwritten hi h6 h256 hun⟩
  rcases List.mem_pair.1 hi with rfl | rfl
  · exact exec_encode_unwritten b hs hsize hun
  · exact exec_run_unwritten_payload b hs hsize hun

end Sys2Proof.Machine
end

section
/-! What the host reads and writes (10_state.md R25, R48; 20_memory.md R55, R56, R60): register by register and byte by byte,
while BUSY = 0 and while BUSY = 1. -/

namespace Sys2Proof.Machine

/-! ### Wire opcodes and STATUS -/

theorem writeOpcode_idle (o : Byte) {s : State} (h : s.regs.status.busy = false) :
    writeOpcode o s = { s with regs := { s.regs with cmdOpcode := o } } := if_neg (by simp [h])

theorem writeOpcode_busy (o : Byte) {s : State} (h : s.regs.status.busy = true) : writeOpcode o s = reject s := if_pos h

/-- Settles O31: a wire opcode is a write of its byte, stored while idle and rejected while busy. -/
theorem wireOpcodesSetCommandOpcode : Obligations.WireOpcodesSetCommandOpcode := by
  refine fun s => ⟨fun hb => ?_, fun hb i hi => ?_⟩
  · have hstore : ∀ o, (.next (writeOpcode o s) : Result) = .next { s with regs := { s.regs with cmdOpcode := o } } :=
      fun o => congrArg _ (writeOpcode_idle o hb)
    refine ⟨hstore _, hstore _, hstore _, hstore _, fun v => ?_⟩
    rw [hostWrite_reg (r := .cmdOpcode) v s rfl, writeReg, writeCmdOpcode_eq, hstore, lowByte_eq]
  · have hreject : ∀ o, (.next (writeOpcode o s) : Result) = .next (reject s) :=
      fun o => congrArg _ (writeOpcode_busy o hb)
    simp only [List.mem_cons, List.not_mem_nil, or_false] at hi
    rcases hi with rfl | rfl | rfl | rfl <;> exact hreject _

/-- STATUS bit by bit (R25). -/
theorem statusWord_getLsbD (t : Status) (i : Nat) :
    (statusWord t).getLsbD i =
      if i = 0 then t.busy else if i = 1 then t.done else if i = 2 then t.rej else if i = 3 then t.respValid
      else (errCode t.err).getLsbD (i - 4) := by
  simp only [statusWord, BitVec.getLsbD_append, BitVec.getLsbD_ofBool, BitVec.getLsbD_zero]
  grind

/-- Settles O38: the fields by STATUS's bits, the codes by `errCode`. -/
theorem statusWordFields : Obligations.StatusWordFields := by
  refine ⟨fun t => ?_, rfl, rfl, rfl, rfl, rfl, rfl, rfl⟩
  simp only [statusWord_getLsbD]
  refine ⟨rfl, rfl, rfl, rfl, BitVec.eq_of_getLsbD_eq fun i hi => ?_, BitVec.eq_of_getLsbD_eq fun i hi => ?_⟩
  all_goals
    rw [BitVec.getLsbD_extractLsb', statusWord_getLsbD]
    grind

/-! ### Reads of registers -/

/-- Reserved bits above a register's used bits read 0 (R23). -/
theorem zero_append {n w : Nat} (x : BitVec w) : 0#n ++ x = x.setWidth (n + w) := by
  refine BitVec.eq_of_getLsbD_eq fun i hi => ?_
  simp only [BitVec.getLsbD_append, BitVec.getLsbD_setWidth, BitVec.getLsbD_zero]
  grind

theorem hostRead_reg_busy {off : Nat} {r : Reg} {s : State} (hr : regAt off = some r) (hb : s.regs.status.busy = true) :
    hostRead off 4 s =
      if opWritesReg s.fsm.op r = true then .next (drawRead (usedMask r) s)
      else .next (answerRead (regValue r s.regs) s) := by
  simp only [hostRead, target_reg_iff.2 ⟨rfl, hr⟩, hb, Bool.true_and]

/-- Of a register that the running operation does not write the host reads the value (R48). -/
theorem hostRead_reg_exact {off : Nat} {r : Reg} {s : State} (hr : regAt off = some r) (hb : s.regs.status.busy = true)
    (hw : opWritesReg s.fsm.op r = false) : hostRead off 4 s = .next (answerRead (regValue r s.regs) s) := by
  rw [hostRead_reg_busy hr hb, hw]
  rfl

/-- Of a register that the operations `ops` write, and no other, the host reads a free value while one of them runs. -/
theorem hostRead_reg_of_ops {off : Nat} {r : Reg} {s : State} {ops : List Op} (hr : regAt off = some r)
    (hb : s.regs.status.busy = true) (hw : opWritesReg s.fsm.op r = decide (s.fsm.op ∈ ops)) :
    hostRead off 4 s =
      if s.fsm.op ∈ ops then .next (drawRead (usedMask r) s) else .next (answerRead (regValue r s.regs) s) := by
  simp only [hostRead_reg_busy hr hb, hw, decide_eq_true_eq]

/-! ### Reads of buffer bytes -/

section
variable {off i : Nat} {b : Buf} {x : Byte} {s : State} (hat : bufAt off = some (b, i)) (hx : memRead s.mem off = some x)
include hat hx

theorem hostRead_byte_exact (hw : (s.regs.status.busy && opWritesByte s b i) = false) :
    hostRead off 1 s = .next (answerRead (x.setWidth 32) s) := by
  simp only [hostRead, target_byte_iff.2 ⟨rfl, hat⟩, hx, hw]
  rfl

theorem hostRead_byte_draw (hw : (s.regs.status.busy && opWritesByte s b i) = true) :
    hostRead off 1 s = .next (drawRead 0xFF#32 s) := by
  simp only [hostRead, target_byte_iff.2 ⟨rfl, hat⟩, hx, hw, if_true]

end

theorem bufAt_pbuf {off : Nat} (h : 0x100 ≤ off ∧ off ≤ 0x1FE) : bufAt off = some (.pbuf, off - 0x100) := by
  rw [bufAt_eq_some_iff]; simp only [bufBase, bufSize]; omega

theorem bufAt_txbuf {off : Nat} (h : 0x200 ≤ off ∧ off ≤ 0x2FF) : bufAt off = some (.txbuf, off - 0x200) := by
  rw [bufAt_eq_some_iff]; simp only [bufBase, bufSize]; omega

theorem bufAt_rxbuf {off : Nat} (h : 0x300 ≤ off ∧ off ≤ 0x3FF) : bufAt off = some (.rxbuf, off - 0x300) := by
  rw [bufAt_eq_some_iff]; simp only [bufBase, bufSize]; omega

/-! ### The statements -/

/-- Settles O37: one lemma for all registers, one for all bytes. -/
theorem idleReadsReturnValues : Obligations.IdleReadsReturnValues := by
  intro s hb
  have hreg : ∀ {off r}, regAt off = some r → hostRead off 4 s = .next (answerRead (regValue r s.regs) s) :=
    fun hr => hostRead_reg_idle hr hb
  simp only [zero_append]
  refine ⟨hreg (r := .cmd) rfl, hreg (r := .status) rfl, hreg (r := .crc) rfl, hreg (r := .cmdAddr) rfl,
    hreg (r := .cmdOpcode) rfl, hreg (r := .cmdSize) rfl, hreg (r := .txLen) rfl, hreg (r := .rxLen) rfl,
    hreg (r := .respSize) rfl, hreg (r := .respAddr) rfl, hreg (r := .respCode) rfl, hreg (r := .respStatus) rfl,
    hreg (r := .pollAttempts) rfl, fun off x hoff hx => ?_⟩
  obtain ⟨⟨b, i⟩, hat⟩ := Option.isSome_iff_exists.1 ((bufAt_isSome_iff off).2 hoff)
  exact hostRead_byte_exact hat hx (by rw [hb]; rfl)

/-- Settles O39: registers by the operations that write them, bytes by what the running operation writes of their buffer. -/
theorem busyReadsDrawOrStayExact : Obligations.BusyReadsDrawOrStayExact := by
  intro s hb
  have hexact : ∀ {off r}, regAt off = some r → opWritesReg s.fsm.op r = false →
      hostRead off 4 s = .next (answerRead (regValue r s.regs) s) := fun hr hw => hostRead_reg_exact hr hb hw
  simp only [zero_append]
  refine ⟨hexact (r := .status) rfl rfl, hexact (r := .cmd) rfl rfl, hexact (r := .cmdAddr) rfl rfl,
    hexact (r := .cmdOpcode) rfl rfl, hexact (r := .cmdSize) rfl rfl,
    hostRead_reg_of_ops (r := .crc) rfl hb rfl, hostRead_reg_of_ops (r := .txLen) rfl hb rfl,
    hostRead_reg_of_ops (r := .rxLen) rfl hb rfl, hostRead_reg_of_ops (r := .respSize) rfl hb rfl,
    hostRead_reg_of_ops (r := .respAddr) rfl hb rfl, hostRead_reg_of_ops (r := .respCode) rfl hb rfl,
    hostRead_reg_of_ops (r := .respStatus) rfl hb rfl, hostRead_reg_of_ops (r := .pollAttempts) rfl hb rfl,
    fun off x hx => ?_⟩
  have hbyte : ∀ {b i}, bufAt off = some (b, i) → opWritesByte s b i = false →
      hostRead off 1 s = .next (answerRead (x.setWidth 32) s) :=
    fun hat hw => hostRead_byte_exact hat hx (by rw [hw, Bool.and_false])
  have hdraw : ∀ {b i}, bufAt off = some (b, i) → opWritesByte s b i = true →
      hostRead off 1 s = .next (drawRead 0xFF#32 s) :=
    fun hat hw => hostRead_byte_draw hat hx (by rw [hb, hw]; rfl)
  refine ⟨fun h => hbyte (bufAt_pbuf h) rfl, fun h hop => hbyte (bufAt_txbuf h) ?_, fun h hop => hbyte (bufAt_rxbuf h) ?_,
    fun h h' hsize hop => hdraw (bufAt_txbuf (by omega)) ?_, fun h h' => hbyte (bufAt_txbuf (by omega)) ?_,
    fun h h' hsize hop => hbyte (bufAt_txbuf ⟨h, h'⟩) ?_, fun h h' hs hop => hdraw (bufAt_rxbuf ⟨h, h'⟩) ?_,
    fun h h' hs => hbyte (bufAt_rxbuf (by omega)) ?_, fun h h' hs hop => hdraw (bufAt_rxbuf (by omega)) ?_⟩
  all_goals simp only [opWritesByte]
  · simp [hop]
  · simp [hop]
  · simp [hop, hsize]; omega
  · simp; omega
  · simp; omega
  · cases hst : s.fsm.state <;> simp_all
  · rcases hs with hs | hs <;> simp [hs] <;> omega
  · rcases hs with hs | hs <;> simp [hs, hop] <;> omega

end Sys2Proof.Machine
end

section
/-! The running CRC (40_checksum.md R92): CRC_INIT and CRC_BYTE run to their completion, one after the other. -/

namespace Sys2Proof.Machine

/-- One block step, where the block is not IDLE. -/
theorem settle_one {s : State} (hs : s.fsm.state ≠ .idle) : settle 1 s = blockStep s := by
  rw [settle, if_neg hs]
  cases blockStep s <;> rfl

/-- An operation of one block step is its acceptance and that step (R155). -/
theorem runOp_eq_blockStep {op : Op} (hne : op ≠ .invalid) (hop : op ∉ [Op.receive, .run]) (b : Byte) {s : State}
    (hs : s.fsm.state = .idle) : runOp (instrOf op b) s = blockStep (enterOp op b s) := by
  have hbound : opBound (instrOf op b) s.cfg = 1 := by
    cases op with
    | receive | run => simp at hop
    | crcInit | crcByte | crcSpan | encode | transmit | decode | invalid => rfl
  rw [runOp, exec_instrOf_idle hne b hs, hbound]
  exact settle_one (enterOp_ne_idle op b s)

/-- An operation that only enters EXEC is its EXEC step in the state that its acceptance leaves (R24). -/
theorem runOp_plainLocal {op : Op} (h : op ∈ plainLocal) (hne : op ≠ .invalid) (b : Byte) {s : State}
    (hs : s.fsm.state = .idle) : runOp (instrOf op b) s = exec (instrOf op b) (started op b .exec s) := by
  have hop : op ∉ [Op.receive, .run] := by cases op <;> simp [plainLocal] at h ⊢
  rw [runOp_eq_blockStep hne hop b hs, enterOp_plainLocal h]
  exact blockStep_of_op rfl nofun rfl

theorem runOp_crcInit (b : Byte) {s : State} (hs : s.fsm.state = .idle) :
    runOp (.crcInit b) s = .next (ended .none (withCrc 0xFFFF#16 (started .crcInit b .exec s))) := by
  rw [← exec_crcInit_exec b (s := started .crcInit b .exec s) rfl]
  exact runOp_plainLocal (op := .crcInit) (by decide) nofun b hs

theorem runOp_crcByte (b : Byte) {s : State} (hs : s.fsm.state = .idle) :
    runOp (.crcByte b) s = .next (ended .none (withCrc (crcStep s.regs.crc b) (started .crcByte b .exec s))) := by
  refine (runOp_plainLocal (op := .crcByte) (by decide) nofun b hs).trans ?_
  exact exec_crcByte_exec b (s := started .crcByte b .exec s) rfl

theorem runOps_cons_next {i : Instr} {is : List Instr} {s t : State} (h : runOp i s = .next t) :
    runOps (i :: is) s = runOps is t := by
  rw [runOps, h]

/-- CRC_BYTE of each byte folds them into the accumulator in order. -/
theorem runOps_crcBytes (d : List Byte) {s : State} (hs : s.fsm.state = .idle) :
    ∃ t, runOps (d.map .crcByte) s = .next t ∧ t.fsm.state = .idle ∧ t.regs.crc = d.foldl crcStep s.regs.crc ∧
      t.mem = s.mem := by
  induction d generalizing s with
  | nil => exact ⟨s, rfl, hs, rfl, rfl⟩
  | cons b d ih =>
    rw [List.map_cons, runOps_cons_next (runOp_crcByte b hs)]
    exact ih rfl

/-- Settles O9: CRC_INIT starts the fold at 0xFFFF. -/
theorem runningCrcIsCrc16 : Obligations.RunningCrcIsCrc16 := by
  intro d s hs
  rw [runOps_cons_next (runOp_crcInit 0#8 hs)]
  exact runOps_crcBytes d rfl

end Sys2Proof.Machine
end

section
/-! The channel calls of a RUN with no host access between its steps (44_exchange.md R118, R119): one ChanWrite of the
frame, and after it only ChanReads. -/

namespace Sys2Proof.Machine

theorem runOp_run_eq (b : Byte) {s : State} (hs : s.fsm.state = .idle) :
    runOp (.run b) s = settle (receiveBound s.cfg + 3) (enterOp .run b s) := by
  have hstart : exec (.run b) s = .next (enterOp .run b s) := exec_instrOf_idle (op := .run) nofun b hs
  have hbound : opBound (.run b) s.cfg = receiveBound s.cfg + 3 := by simp only [opBound]; omega
  rw [runOp, hstart, hbound]

/-- A RUN behind its write stage, or at its end. -/
def PastWrite (s : State) : Prop :=
  s.fsm.state = .idle ∨ (Running s ∧ stepsLeft s.cfg s.fsm ≤ receiveBound s.cfg)

theorem Running.blockStep_pastWrite {s t : State} (hr : Running s) (hpast : stepsLeft s.cfg s.fsm ≤ receiveBound s.cfg)
    (h : blockStep s = .next t) : PastWrite t := by
  obtain ⟨-, hm⟩ := (blockStep_next h).resolve_left fun h => hr.notIdle h.1
  rcases hr.blockStep_advances_or_ends h with ⟨hrun, hless⟩ | hend
  · rw [(moves_cfg_todo hm).1] at hless
    exact .inr ⟨hrun, by rw [(moves_cfg_todo hm).1]; omega⟩
  · exact .inl hend.idle

/-- Behind its write stage RUN does not write again. -/
theorem Running.blockStep_reads {s t : State} (hr : Running s) (hpast : stepsLeft s.cfg s.fsm ≤ receiveBound s.cfg)
    (h : blockStep s = .next t) :
    t.chan.calls = s.chan.calls ∨ ∃ n a, t.chan.calls = .read n a :: s.chan.calls := by
  obtain ⟨-, hm⟩ := (blockStep_next h).resolve_left fun h => hr.notIdle h.1
  cases moves_chanUse hm with
  | none hsame => exact .inl (by rw [hsame])
  | write bs hs => simp only [stepsLeft, hs] at hpast; omega
  | read n _ ht => exact .inr ⟨n, _, by rw [ht, afterRead_calls]⟩

theorem PastWrite.settle_reads {n : Nat} {s t : State} (hp : PastWrite s) (h : settle n s = .next t) :
    ∃ reads : List ChanCall, t.chan.calls = reads ++ s.chan.calls ∧ ∀ c ∈ reads, ∃ m a, c = .read m a := by
  induction n generalizing s with
  | zero => cases h; exact ⟨[], rfl, nofun⟩
  | succ n ih =>
    rcases hp with hidle | ⟨hr, hpast⟩
    · rw [settle_of_idle _ hidle] at h
      cases h
      exact ⟨[], rfl, nofun⟩
    · obtain ⟨u, hu, hrest⟩ := settle_succ_next hr.notIdle h
      obtain ⟨reads, hcalls, hall⟩ := ih (hr.blockStep_pastWrite hpast hu) hrest
      rcases hr.blockStep_reads hpast hu with hsame | ⟨m, a, hread⟩
      · exact ⟨reads, by rw [hcalls, hsame], hall⟩
      · refine ⟨reads ++ [.read m a], by rw [hcalls, hread, List.append_assoc]; rfl, fun c hc => ?_⟩
        rcases List.mem_append.1 hc with hc | hc
        · exact hall c hc
        · exact ⟨m, a, List.mem_singleton.1 hc⟩

/-- A poll attempt is a read, so a RUN that polls reads at least once (R103). -/
theorem Running.settle_reads_of_poll {n : Nat} {s t : State} (hr : Running s) (hs : s.fsm.state = .poll)
    (h : settle (n + 1) s = .next t) :
    ∃ reads : List ChanCall, t.chan.calls = reads ++ s.chan.calls ∧ (∀ c ∈ reads, ∃ m a, c = .read m a) ∧ reads ≠ [] := by
  have hpast := stepsLeft_receive_le (c := s.cfg) (.inl hs)
  obtain ⟨reads, hcalls, hall⟩ := PastWrite.settle_reads (.inr ⟨hr, hpast⟩) h
  refine ⟨reads, hcalls, hall, ?_⟩
  rintro rfl
  obtain ⟨u, hu, hrest⟩ := settle_succ_next hr.notIdle h
  obtain ⟨more, hmore, -⟩ := (hr.blockStep_pastWrite hpast hu).settle_reads hrest
  have hpoll : u = pollStep s := by
    rw [blockStep_of_op hs nofun hr.op] at hu
    exact Host.Outcome.next.inj (hu.symm.trans (exec_poll (.inr rfl) hs))
  rw [hcalls, hpoll, (pollStep_sameOutside s).2.1, afterRead_calls] at hmore
  have hlen := congrArg List.length hmore
  simp at hlen
  omega

/-! ### The first two steps of RUN -/

theorem blockStep_run_exec {s : State} (hop : s.fsm.op = .run) (hs : s.fsm.state = .exec) :
    blockStep s = continueWith (setFsmState .tx) (encodeStage s) := by
  rw [blockStep_of_op hs nofun hop, instrOf, exec_run_exec _ hs]

theorem blockStep_run_tx {s : State} (hop : s.fsm.op = .run) (hs : s.fsm.state = .tx) :
    blockStep s = continueWith pollEntry (txStep s) := by
  rw [blockStep_of_op hs nofun hop, instrOf, exec_run_tx _ hs]

/-- A stored frame of at most 256 bytes is what TXBUF holds up to TX_LEN (R98). -/
theorem storeFrame_span {f : List Byte} (hlen : f.length ≤ 256) (s : State) :
    (storeFrame f s).regs.txLen.toNat = f.length ∧
      memSpan (storeFrame f s).mem (bufBase .txbuf) (storeFrame f s).regs.txLen.toNat = .ok f := by
  have htx : (storeFrame f s).regs.txLen.toNat = f.length := Nat.mod_eq_of_lt (by omega)
  exact ⟨htx, by rw [htx]; exact memSpan_memWriteSpan ..⟩

/-- The write stage on a frame just stored (R99). -/
theorem txStep_of_storeFrame {f : List Byte} {s t : State} (h5 : 0 < f.length) (h256 : f.length ≤ 256)
    (hregs : t.regs.txLen = (storeFrame f s).regs.txLen) (hmem : t.mem = (storeFrame f s).mem) :
    txStep t =
      if nextWrite t = .ok f.length then .goOn (afterWrite f t) else .raised (raise .ioError (afterWrite f t)) := by
  obtain ⟨htx, hspan⟩ := storeFrame_span h256 s
  exact txStep_of_frame (by rw [hregs, htx]; omega) (by rw [hregs, hmem]; exact hspan)

/-- While a RUN does not end it stays a RUN in progress. -/
theorem Running.next {s t : State} (hr : Running s) (h : blockStep s = .next t) (ht : t.fsm.state ≠ .idle) : Running t :=
  (hr.blockStep_advances_or_ends h).elim And.left fun hend => absurd hend.idle ht

/-- The calls of a RUN from TX to its end, with the frame `f` in TXBUF: the write, and after a good one the reads of the
receive. -/
theorem Running.settle_calls_of_tx {n : Nat} {s t : State} {f : List Byte} (hr : Running s) (hs : s.fsm.state = .tx)
    (hf : txStep s =
      if nextWrite s = .ok f.length then .goOn (afterWrite f s) else .raised (raise .ioError (afterWrite f s)))
    (h : settle (n + 2) s = .next t) :
    ∃ reads : List ChanCall, t.chan.calls = reads ++ .write f (nextWrite s) :: s.chan.calls ∧
      (∀ c ∈ reads, ∃ n a, c = .read n a) ∧ (nextWrite s = .ok f.length ↔ reads ≠ []) := by
  obtain ⟨u, hu, hrest⟩ := settle_succ_next hr.notIdle h
  have hwrite := hu
  rw [blockStep_run_tx hr.op hs, hf] at hwrite
  by_cases hok : nextWrite s = .ok f.length
  · rw [if_pos hok] at hwrite
    cases hwrite
    obtain ⟨reads, hcalls, hall, hne⟩ := (hr.next hu nofun).settle_reads_of_poll rfl hrest
    rw [pollEntry_chan, afterWrite_calls] at hcalls
    exact ⟨reads, hcalls, hall, by simp [hok, hne]⟩
  · rw [if_neg hok] at hwrite
    cases hwrite
    rw [settle_of_idle _ rfl] at hrest
    cases hrest
    exact ⟨[], by simp, nofun, by simp [hok]⟩

/-- The calls of a RUN from EXEC to its end, for a payload of at most 251 bytes. -/
theorem Running.settle_calls {n : Nat} {s t : State} (hr : Running s) (hs : s.fsm.state = .exec)
    (hsize : s.regs.cmdSize.toNat ≤ 251) (h : settle (n + 3) s = .next t) :
    ∃ (p f : List Byte) (reads : List ChanCall), p.length = s.regs.cmdSize.toNat ∧ holdsAt 0x100 p s.mem ∧
      f = requestFrame s.regs.cmdAddr s.regs.cmdOpcode p ∧
      t.chan.calls = reads ++ .write f (nextWrite s) :: s.chan.calls ∧
      (∀ c ∈ reads, ∃ n a, c = .read n a) ∧ (nextWrite s = .ok f.length ↔ reads ≠ []) := by
  obtain ⟨u, hu, hrest⟩ := settle_succ_next hr.notIdle h
  have hencode := hu
  rw [blockStep_run_exec hr.op hs] at hencode
  rcases continueWith_next hencode with ⟨v, hv, rfl⟩ | hraised
  · obtain ⟨p, -, hp, hlen, rfl⟩ := encodeStage_goOn hv
    obtain ⟨-, hread⟩ := memSpan_ok_iff.1 hp
    have hf : (requestFrame s.regs.cmdAddr s.regs.cmdOpcode p).length = p.length + 5 := requestFrame_length ..
    obtain ⟨reads, hreads⟩ := (hr.next hu nofun).settle_calls_of_tx rfl
      (txStep_of_storeFrame (s := s) (by omega) (by omega) rfl rfl) hrest
    exact ⟨p, _, reads, hlen, fun i hi => hread i (hlen ▸ hi), rfl, hreads⟩
  · exact absurd (encodeStage_raised hraised).1 (by omega)

/-- Settles O29: RUN fails to encode, or writes the frame and then ends or polls. -/
theorem runWritesOnceThenOnlyReads : Obligations.RunWritesOnceThenOnlyReads := by
  intro b s t hc hs h
  have hrun := running_enterOp_run b hc
  rw [runOp_run_eq b hs] at h
  refine ⟨fun hsize => ?_, fun hsize => hrun.settle_calls rfl hsize h⟩
  obtain ⟨u, hu, hrest⟩ := settle_succ_next hrun.notIdle h
  rw [blockStep_run_exec rfl rfl, encodeStage_of_too_long (s := enterOp .run b s) hsize] at hu
  cases hu
  rw [settle_of_idle _ rfl] at hrest
  cases hrest
  rfl

end Sys2Proof.Machine
end

section
/-! RUN and its stages (44_exchange.md R121): RUN's encode and write stages are those of ENCODE and TRANSMIT with RESP_VALID and
POLL_ATTEMPTS 0 (`asRun`), and from there on RUN goes the steps of RECEIVE as RUN (`inRun`) and decodes as DECODE does. -/

namespace Sys2Proof.Machine

/-! ### The encode and write stages -/

/-- `s` with RUN as its operation, RESP_VALID 0 and POLL_ATTEMPTS 0: the effect of RUN's entry action (R117). -/
def asRun (s : State) : State :=
  { s with
    regs := { s.regs with pollAttempts := 0#32, status := { s.regs.status with respValid := false } }
    fsm := { s.fsm with op := .run } }

@[simp] theorem asRun_mem (s : State) : (asRun s).mem = s.mem := rfl
@[simp] theorem asRun_chan (s : State) : (asRun s).chan = s.chan := rfl

theorem enterOp_run_eq (b : Byte) (s : State) : enterOp .run b s = asRun (enterOp .encode b s) := rfl

theorem encodeStage_asRun (s : State) : encodeStage (asRun s) = (encodeStage s).map asRun := by
  unfold encodeStage
  refine ite_eq_map (Stage.map asRun) rfl ?_
  rw [show payloadSpan (asRun s) = payloadSpan s from rfl]
  cases payloadSpan s with
  | error f => rfl
  | ok p =>
    simp only [show (asRun s).regs.cmdAddr = s.regs.cmdAddr from rfl, show (asRun s).regs.cmdOpcode = s.regs.cmdOpcode from rfl]
    cases encodeFrame s.regs.cmdAddr s.regs.cmdOpcode p <;> rfl

theorem afterWrite_asRun (bs : List Byte) (s : State) : afterWrite bs (asRun s) = asRun (afterWrite bs s) := by
  unfold afterWrite
  simp only [asRun_chan]
  split <;> rfl

theorem txStep_asRun (s : State) : txStep (asRun s) = (txStep s).map asRun := by
  unfold txStep
  refine ite_eq_map (Stage.map asRun) rfl ?_
  simp only [chanWrite_eq, afterWrite_asRun, show nextWrite (asRun s) = nextWrite s from rfl, asRun_mem,
    show (asRun s).regs.txLen = s.regs.txLen from rfl]
  cases memSpan s.mem (bufBase .txbuf) s.regs.txLen.toNat with
  | error f => rfl
  | ok bs =>
    cases nextWrite s with
    | err => rfl
    | ok k => exact ite_eq_map (Stage.map asRun) rfl rfl

/-! ### The receive -/

/-- `s` with RUN as its operation. -/
def inRun (s : State) : State := { s with fsm := { s.fsm with op := .run } }

@[simp] theorem inRun_chan (s : State) : (inRun s).chan = s.chan := rfl

theorem afterRead_inRun (m : Nat) (s : State) : afterRead m (inRun s) = inRun (afterRead m s) := by
  unfold afterRead
  simp only [inRun_chan]
  split <;> rfl

/-- One step of RECEIVE from `s` to `t` beside the step of RUN from `inRun s` to `u`. -/
inductive ReceiveSim (s t u : State) : Prop where
  | goesOn : t.fsm.state ≠ .idle → t.regs.status = s.regs.status → u = inRun t → ReceiveSim s t u
  | failed : t.fsm.state = .idle → t.regs.status.err ≠ .none → u = inRun t → ReceiveSim s t u
  /-- the whole buffer has come: RECEIVE completes, RUN goes on to decode (R105) -/
  | received (x : State) : x.regs.status = s.regs.status → t = complete x → u = setFsmState .dec (inRun x) →
      ReceiveSim s t u

theorem finishReceive_sim {s : State} {st : State} (hop : s.fsm.op = .receive) (hst : s.regs.status = st.regs.status) :
    ReceiveSim st (finishReceive s) (finishReceive (inRun s)) := by
  rcases finishReceive_cases s with ⟨-, h⟩ | ⟨hne, -⟩
  · rcases finishReceive_cases (inRun s) with ⟨hrun, -⟩ | ⟨-, h'⟩
    · cases hrun
    · exact .received (setRxLen (1 + s.fsm.got) (setMem (memWrite s.mem (bufBase .rxbuf) (BitVec.ofNat 8 s.fsm.got)) s))
        hst h h'
  · exact absurd hop hne

theorem startBody_sim {s st : State} (len : Byte) (hop : s.fsm.op = .receive) (hst : s.regs.status = st.regs.status) :
    ReceiveSim st (startBody len s) (startBody len (inRun s)) := by
  by_cases hlen : len = 0#8
  · subst hlen
    rw [startBody_zero, startBody_zero]
    exact finishReceive_sim (s := setFsm { s.fsm with declLen := 0#8, got := 0, bodyCnt := 0 } s) hop hst
  · rw [startBody_of_ne_zero hlen, startBody_of_ne_zero hlen]
    exact .goesOn nofun hst rfl

theorem storeBody_sim {s st : State} (bs : List Byte) (hop : s.fsm.op = .receive) (hs : s.fsm.state ≠ .idle)
    (hst : s.regs.status = st.regs.status) : ReceiveSim st (storeBody bs s) (storeBody bs (inRun s)) := by
  rw [storeBody_eq, storeBody_eq]
  change ReceiveSim st _ (if s.fsm.got + bs.length = s.fsm.declLen.toNat then _ else _)
  split
  · exact finishReceive_sim (s := bodyStored bs s) hop hst
  · exact .goesOn hs hst rfl

theorem pollStep_sim {s : State} (hop : s.fsm.op = .receive) (hs : s.fsm.state = .poll) :
    ReceiveSim s (pollStep s) (pollStep (inRun s)) := by
  have hread : countPoll (afterRead 1 (inRun s)) = inRun (countPoll (afterRead 1 s)) := by rw [afterRead_inRun]; rfl
  rcases nextRead_one_cases s with h | h | ⟨len, h⟩
  · rw [pollStep_of_err h, pollStep_of_err (s := inRun s) h, hread]
    exact .failed rfl nofun rfl
  · rw [pollStep_of_noData h, pollStep_of_noData (s := inRun s) h, hread]
    change ReceiveSim s _ (if s.fsm.pollCnt + 1 = s.cfg.pollBudget then _ else _)
    split
    · exact .failed rfl nofun rfl
    · exact .goesOn (by simp [hs]) (by simp) rfl
  · rw [pollStep_of_byte h, pollStep_of_byte (s := inRun s) h, hread]
    exact startBody_sim len (by simpa using hop) (by simp)

theorem bodyStep_sim {s : State} (hop : s.fsm.op = .receive) (hs : s.fsm.state = .body)
    (hgot : s.fsm.got < s.fsm.declLen.toNat) : ReceiveSim s (bodyStep s) (bodyStep (inRun s)) := by
  have hn : s.fsm.declLen.toNat = s.fsm.got + (s.fsm.declLen.toNat - s.fsm.got) := by omega
  generalize s.fsm.declLen.toNat - s.fsm.got = n at hn
  have hread := afterRead_inRun n s
  cases h : nextRead n s with
  | err =>
    rw [bodyStep_of_err hn h, bodyStep_of_err (s := inRun s) hn h, hread]
    exact .failed rfl nofun rfl
  | ok bs =>
    by_cases hbs : bs = []
    · subst hbs
      rw [bodyStep_of_noData hn h, bodyStep_of_noData (s := inRun s) hn h, hread]
      change ReceiveSim s _ (if s.fsm.bodyCnt + 1 = s.cfg.bodyPollBudget then _ else _)
      split
      · exact .failed rfl nofun rfl
      · exact .goesOn (by simp [hs]) (by simp) rfl
    · rw [bodyStep_of_bytes hn h hbs, bodyStep_of_bytes (s := inRun s) hn h hbs, hread]
      exact storeBody_sim bs (by simpa using hop) (by simp [hs]) (by simp)

/-- RUN can be in every state of the block. -/
theorem opFits_run (f : FsmState) : opFits f .run = true := by
  cases f <;> rfl

theorem StateInv.inRun_of_receive {s : State} (hi : StateInv s) (hop : s.fsm.op = .receive) : StateInv (inRun s) := by
  have hfits := hi.opFits
  refine ⟨opFits_run _, fun htx => ?_, hi.poll, hi.body, hi.dec⟩
  rw [hop, show s.fsm.state = .tx from htx] at hfits
  cases hfits

/-- A step of RECEIVE and the step of RUN beside it. -/
theorem StateInv.receiveStep_sim {s : State} (hi : StateInv s) (hop : s.fsm.op = .receive) (hs : s.fsm.state ≠ .idle) :
    ∃ t u, blockStep s = .next t ∧ blockStep (inRun s) = .next u ∧ ReceiveSim s t u := by
  have hfits := hi.opFits
  cases he : s.fsm.state with
  | idle => exact absurd he hs
  | exec | tx | dec => simp [hop, he, Machine.opFits] at hfits
  | poll =>
    refine ⟨_, _, ?_, ?_, pollStep_sim hop he⟩
    · rw [blockStep_of_op he nofun hop]
      exact exec_poll (.inl rfl) he
    · rw [blockStep_of_op (s := inRun s) he nofun rfl]
      exact exec_poll (s := inRun s) (.inr rfl) he
  | body =>
    refine ⟨_, _, ?_, ?_, bodyStep_sim hop he (hi.body he).2.1⟩
    · rw [blockStep_of_op he nofun hop]
      exact exec_body (.inl rfl) he
    · rw [blockStep_of_op (s := inRun s) he nofun rfl]
      exact exec_body (s := inRun s) (.inr rfl) he

/-- The block step that ends the operation is the last one. -/
theorem settle_eq_blockStep {n : Nat} {s : State} (hs : s.fsm.state ≠ .idle)
    (hend : ∀ t, blockStep s = .next t → t.fsm.state = .idle) : settle (n + 1) s = blockStep s := by
  rw [settle, if_neg hs]
  cases h : blockStep s with
  | next t => exact settle_of_idle n (hend t h)
  | fault | refused => rfl

theorem decodeStage_ends {s t : State} (h : finishWith (decodeStage s) = .next t) : t.fsm.state = .idle := by
  rcases finishWith_next h with ⟨u, -, rfl⟩ | h
  · rfl
  · rcases decodeStage_raised h with ⟨-, rfl⟩ | ⟨-, rfl⟩ | ⟨_, -, -, -, -, rfl⟩ <;> rfl

/-- RUN in DEC: the decode stage, and the end. -/
theorem settle_dec (n : Nat) {s : State} (hop : s.fsm.op = .run) (hs : s.fsm.state = .dec) :
    settle (n + 1) s = finishWith (decodeStage s) := by
  have hdec := blockStep_decoding (.inr ⟨hop, hs⟩)
  rw [settle_eq_blockStep (by rw [hs]; nofun) fun t ht => decodeStage_ends (hdec ▸ ht), hdec]

/-- The end `t` of a RECEIVE from `s`, and what the RUN beside it answers. -/
inductive ReceiveEnd (s t : State) (r : Result) : Prop where
  | failed : t.fsm.state = .idle → t.regs.status.err ≠ .none → r = .next (inRun t) → ReceiveEnd s t r
  | received (x : State) : x.regs.status = s.regs.status → t = complete x → StateInv (setFsmState .dec (inRun x)) →
      r = finishWith (decodeStage (setFsmState .dec (inRun x))) → ReceiveEnd s t r

/-- RECEIVE to its end, and RUN beside it with one more step for the decode (R105). -/
theorem StateInv.settle_receive {n : Nat} {s : State} (hi : StateInv s) (hc : configOk s.cfg = true)
    (hop : s.fsm.op = .receive) (hs : s.fsm.state ≠ .idle) (hn : stepsLeft s.cfg s.fsm ≤ n) :
    ∃ t, settle n s = .next t ∧ ReceiveEnd s t (settle (n + 1) (inRun s)) := by
  induction n generalizing s with
  | zero => exact absurd (hi.stepsLeft_pos hs) (by omega)
  | succ n ih =>
    obtain ⟨t, u, ht, hu, hsim⟩ := hi.receiveStep_sim hop hs
    obtain ⟨hit, hcfg, hless, -⟩ := hi.blockStep_progress hc hs ht
    obtain ⟨hiu, -⟩ := (hi.inRun_of_receive hop).blockStep_progress hc hs hu
    rw [settle_succ hs ht, settle_succ (s := inRun s) hs hu]
    cases hsim with
    | goesOn hne hst hut =>
      obtain ⟨-, hm⟩ := (blockStep_next ht).resolve_left fun h => hs h.1
      obtain ⟨v, hv, hend⟩ := ih hit (hcfg ▸ hc) ((moves_op hs hm).trans hop) hne (by omega)
      refine ⟨v, hv, ?_⟩
      rw [hut]
      cases hend with
      | failed hidle herr hr => exact .failed hidle herr hr
      | received x hx hv hix hr => exact .received x (hx.trans hst) hv hix hr
    | failed hidle herr hut =>
      subst hut
      exact ⟨t, settle_of_idle n hidle, .failed hidle herr (settle_of_idle (s := inRun t) (n + 1) hidle)⟩
    | received x hx htx hux =>
      subst htx hux
      exact ⟨_, settle_of_idle n rfl, .received x hx rfl hiu (settle_dec n rfl rfl)⟩

/-! ### From one operation to the next -/

/-- `s` is in an operation accepted with BYTE `b`, with STATUS as the acceptance left it (R24). -/
structure Accepted (b : Byte) (s : State) : Prop where
  byte : s.fsm.byte = b
  status : statusAccepted s.regs.status = s.regs.status

theorem accepted_enterOp (op : Op) (b : Byte) (s : State) : Accepted b (enterOp op b s) :=
  ⟨enterOp_byte op b s, by rw [enterOp_status]; rfl⟩

/-- The acceptance of the next operation takes the completion of the one before back (R24, R127). -/
theorem accept_complete {s : State} (hst : statusAccepted s.regs.status = s.regs.status) (op : Op) (b : Byte) :
    accept op b (complete s) = setFsm { s.fsm with op := op, byte := b, state := .idle } s := by
  have hstatus : statusAccepted (statusCompleted .none s.regs.status) = s.regs.status := hst
  rw [accept, complete_fsm, complete_regs, hstatus]
  rfl

theorem Accepted.enterOp_transmit {b : Byte} {s : State} (h : Accepted b s) :
    setFsmState .tx (asRun s) = asRun (enterOp .transmit b (complete s)) := by
  rw [enterOp, accept_complete h.status, ← h.byte]
  rfl

theorem Accepted.enterOp_receive {b : Byte} {s : State} (h : Accepted b s) :
    pollEntry (asRun s) = inRun (enterOp .receive b (complete s)) := by
  rw [enterOp, accept_complete h.status, ← h.byte]
  rfl

theorem setRespValid_false_of_eq {s : State} (h : s.regs.status.respValid = false) : setRespValid false s = s := by
  rw [← h]
  rfl

/-- The block of DECODE in EXEC and that of RUN in DEC differ in the hidden state alone. -/
theorem enterOp_decode_complete (b : Byte) {s : State} (hst : statusAccepted s.regs.status = s.regs.status)
    (hresp : s.regs.status.respValid = false) :
    enterOp .decode b (complete s) =
      setFsm { s.fsm with op := .decode, byte := b, state := .exec } (setFsmState .dec (inRun s)) := by
  rw [enterOp, accept_complete hst, setRespValid_false_of_eq (by exact hresp)]
  rfl

theorem decodeStage_setFsm (f : Fsm) (s : State) :
    finishWith (decodeStage (setFsm f s)) =
      mapNext (setFsm { f with state := .idle }) (finishWith (decodeStage s)) := by
  unfold decodeStage
  simp only [apply_ite finishWith]
  refine ite_eq_map (mapNext _) rfl (ite_eq_map (mapNext _) rfl ?_)
  simp only [setFsm_regs, setFsm_mem]
  cases memSpan s.mem (bufBase .rxbuf) s.regs.rxLen.toNat with
  | error f => rfl
  | ok buf =>
    dsimp only
    cases decodeBuf buf <;> rfl

/-! ### The stages of RUN -/

theorem runOp_encode (b : Byte) {s : State} (hs : s.fsm.state = .idle) :
    runOp (.encode b) s = finishWith (encodeStage (enterOp .encode b s)) :=
  (runOp_eq_blockStep (op := .encode) nofun (by decide) b hs).trans
    ((blockStep_of_op (f := .exec) (op := .encode) rfl nofun rfl).trans (exec_encode_exec b rfl))

theorem runOp_transmit (b : Byte) {s : State} (hs : s.fsm.state = .idle) :
    runOp (.transmit b) s = finishWith (txStep (enterOp .transmit b s)) :=
  (runOp_eq_blockStep (op := .transmit) nofun (by decide) b hs).trans
    ((blockStep_of_op (f := .tx) (op := .transmit) rfl nofun rfl).trans (exec_transmit_tx b rfl))

theorem runOp_receive (b : Byte) {s : State} (hs : s.fsm.state = .idle) :
    runOp (.receive b) s = settle (receiveBound s.cfg) (enterOp .receive b s) := by
  have hstart : exec (.receive b) s = .next (enterOp .receive b s) := exec_instrOf_idle (op := .receive) nofun b hs
  rw [runOp, hstart, opBound]

theorem runOp_decode (b : Byte) {s : State} (hs : s.fsm.state = .idle) :
    runOp (.decode b) s = finishWith (decodeStage (enterOp .decode b s)) :=
  (runOp_eq_blockStep (op := .decode) nofun (by decide) b hs).trans (blockStep_decoding (.inl ⟨rfl, rfl⟩))

/-- `r` is the end of an operation with the registers, buffers, channel and draws of `u`. -/
def endsAs (r : Result) (u : State) : Prop := ∃ t, r = .next t ∧ t.fsm.state = .idle ∧ sameEnd u t

/-- `r` is what RECEIVE and, unless it fails, DECODE answer from `s` on. -/
def endsAsFromReceive (r : Result) (b : Byte) (s : State) : Prop :=
  ∃ t, runOp (.receive b) s = .next t ∧ (t.regs.status.err ≠ .none → endsAs r t) ∧
    (t.regs.status.err = .none → ∃ u, runOp (.decode b) t = .next u ∧ endsAs r u)

/-- `r` is what TRANSMIT and, unless one of them fails, RECEIVE and DECODE answer from `s` on; if TRANSMIT fails, RESP_VALID
and POLL_ATTEMPTS are 0 besides (R121). -/
def endsAsFromTransmit (r : Result) (b : Byte) (s : State) : Prop :=
  ∃ t, runOp (.transmit b) s = .next t ∧ (t.regs.status.err ≠ .none → endsAs r (asRun t)) ∧
    (t.regs.status.err = .none → endsAsFromReceive r b t)

theorem Accepted.run_from_receive {b : Byte} {s : State} (h : Accepted b s) (hc : configOk s.cfg = true) :
    endsAsFromReceive (settle (receiveBound s.cfg + 1) (pollEntry (asRun s))) b (complete s) := by
  have hi := enterOp_stateInv .receive b (s := complete s) hc
  obtain ⟨t, ht, hend⟩ := hi.settle_receive hc rfl (enterOp_ne_idle .receive b _)
    (stepsLeft_receive_le (c := s.cfg) (.inl rfl))
  refine ⟨t, (runOp_receive b rfl).trans ht, ?_⟩
  rw [h.enterOp_receive]
  cases hend with
  | failed hidle herr hr =>
    exact ⟨fun _ => ⟨_, hr, hidle, rfl, rfl, rfl, rfl⟩, fun hnone => absurd hnone herr⟩
  | received x hx htx hix hr =>
    subst htx
    rw [enterOp_status] at hx
    have hdecode := runOp_decode b (s := complete x) rfl
    rw [enterOp_decode_complete b (by rw [hx]; rfl) (by rw [hx]; simp [clearsResponse]), decodeStage_setFsm] at hdecode
    obtain ⟨u, hu⟩ : ∃ u, finishWith (decodeStage (setFsmState .dec (inRun x))) = .next u := by
      cases hd : decodeStage (setFsmState .dec (inRun x)) with
      | goOn u | raised u => exact ⟨_, rfl⟩
      | stop f => exact absurd hd (hix.decodeStage_ne_stop rfl f)
    rw [hu] at hdecode hr
    exact ⟨fun hne => absurd rfl hne, fun _ => ⟨_, hdecode, u, hr, decodeStage_ends hu, rfl, rfl, rfl, rfl⟩⟩

/-- A RUN in TX with the frame just stored, beside TRANSMIT. -/
theorem Accepted.run_from_transmit {b : Byte} {s : State} {f : List Byte} (h : Accepted b (storeFrame f s))
    (hc : configOk s.cfg = true) (h5 : 0 < f.length) (h256 : f.length ≤ 256) :
    endsAsFromTransmit (settle (receiveBound s.cfg + 2) (setFsmState .tx (asRun (storeFrame f s)))) b
      (complete (storeFrame f s)) := by
  have hrun := runOp_transmit b (s := complete (storeFrame f s)) rfl
  have hacc := accepted_enterOp .transmit b (complete (storeFrame f s))
  have htx := txStep_of_storeFrame (s := s) (t := enterOp .transmit b (complete (storeFrame f s))) h5 h256 rfl rfl
  have hcfg : (enterOp .transmit b (complete (storeFrame f s))).cfg = s.cfg := rfl
  have hs : (enterOp .transmit b (complete (storeFrame f s))).fsm.state = .tx := rfl
  rw [h.enterOp_transmit, ← hcfg]
  generalize enterOp .transmit b (complete (storeFrame f s)) = u at hrun hacc htx hcfg hs
  have hne : (asRun u).fsm.state ≠ .idle := by rw [show (asRun u).fsm.state = .tx from hs]; nofun
  have hstep : blockStep (asRun u) = continueWith pollEntry ((txStep u).map asRun) := by
    rw [← txStep_asRun]
    exact blockStep_run_tx rfl hs
  rw [htx] at hrun hstep
  split at hstep
  · rw [if_pos ‹_›] at hrun
    refine ⟨_, hrun, fun hne => absurd rfl hne, fun _ => ?_⟩
    rw [settle_succ hne hstep, ← afterWrite_cfg f u]
    exact Accepted.run_from_receive ⟨by simp [hacc.byte], by simp [hacc.status]⟩ (by simp [hcfg, hc])
  · rw [if_neg ‹_›] at hrun
    refine ⟨_, hrun, fun _ => ⟨_, ?_, rfl, rfl, rfl, rfl, rfl⟩, nofun⟩
    rw [settle_succ hne hstep]
    exact settle_of_idle _ rfl

/-- Settles O27: RUN stage by stage beside its four operations. -/
theorem runEqualsItsStages : Obligations.RunEqualsItsStages := by
  intro b s hc hs
  have hacc := accepted_enterOp .encode b s
  have hne : (asRun (enterOp .encode b s)).fsm.state ≠ .idle := nofun
  have hstep : blockStep (asRun (enterOp .encode b s)) =
      continueWith (setFsmState .tx) ((encodeStage (enterOp .encode b s)).map asRun) := by
    rw [← encodeStage_asRun]
    exact blockStep_run_exec rfl rfl
  rw [runOp_run_eq b hs, enterOp_run_eq, runOp_encode b hs]
  have hcfg : (enterOp .encode b s).cfg = s.cfg := rfl
  rw [← hcfg] at hc ⊢
  generalize enterOp .encode b s = e at hc hacc hne hstep
  cases he : encodeStage e with
  | stop f =>
    rw [he] at hstep
    refine ⟨fun g hg => ?_, fun _ h => nomatch h⟩
    cases hg
    exact settle_succ_fault hne hstep
  | raised t =>
    rw [he] at hstep
    refine ⟨fun _ h => (nomatch h), fun s1 h1 => ?_⟩
    cases h1
    obtain ⟨-, rfl⟩ := encodeStage_raised he
    have hend : settle (receiveBound e.cfg + 3) (asRun e) = .next (asRun (raise .invalidParameter (setTxLen 0 e))) :=
      (settle_succ hne hstep).trans (settle_of_idle _ rfl)
    exact ⟨fun _ => ⟨_, hend, rfl, rfl, rfl, rfl, rfl⟩, fun h => nomatch h⟩
  | goOn t =>
    rw [he] at hstep
    refine ⟨fun _ h => (nomatch h), fun s1 h1 => ?_⟩
    cases h1
    obtain ⟨p, hsize, -, hlen, rfl⟩ := encodeStage_goOn he
    refine ⟨fun herr => absurd rfl herr, fun _ => ?_⟩
    rw [settle_succ hne hstep]
    have hf : (requestFrame e.regs.cmdAddr e.regs.cmdOpcode p).length = p.length + 5 := requestFrame_length ..
    exact Accepted.run_from_transmit ⟨hacc.byte, hacc.status⟩ hc (by omega) (by omega)

end Sys2Proof.Machine
end
